-- ==== Sys2Proof/Word.lean ====
section
/-!
DEFINITION. The word types of HUFF-CORE. A byte has 8 bits and a register word 32 (00_scope R8);
every integer of the spec is unsigned.
-/

namespace Sys2Proof

/-- One byte of a buffer, and one symbol of the alphabet (R7: the byte values 0 to 255). -/
abbrev Byte := BitVec 8

/-- One REG word (R7, REG_W = 32). -/
abbrev Word := BitVec 32

/-- A byte address inside REG (R7, REG_ADDR_W = 13). -/
abbrev RegAddr := BitVec 13

end Sys2Proof
end

