-- ==== Sys2Proof/Config.lean ====
section
/-!
DEFINITION. The parameters of 00_scope R7 and the free values: what an implementation fixes, and what
the spec leaves unspecified.
-/

namespace Sys2Proof

/-- The three host-visible address spaces (20_memory R50). -/
inductive Space where
  | reg
  | ibuf
  | obuf
  deriving DecidableEq, Repr

namespace Config

/-- The ID register's value (30_encoding R72). -/
def idValue : Word := 0x48554643#32

/-- MAX_CODE_LEN (R7): the longest code, in bits. -/
def maxCodeLen : Nat := 8

/-- MAX_NODES (R7): 256 leaves and 255 internal nodes. -/
def maxNodes : Nat := 511

/-- The largest weight a node holds (R7 FREQ_W = 32, 41_tree_builder R124). -/
def maxWeight : Nat := 0xFFFFFFFF

/-- The least BUF_BYTES that R7 allows. -/
def minBufBytes : Nat := 1024

/-- The greatest BUF_BYTES that R7 allows. -/
def maxBufBytes : Nat := 16777216

/-- DESIGN CHOICE (entry 3): the instance of the OPEN parameter BUF_BYTES that `State.reset` stands
for. The parameter itself is the field `bufSize` of State; no statement rests on this number. -/
def resetBufBytes : Word := 65536#32

/-- HOST_BASE (R7, 20_memory R68): where the block sits in the host's address map. No rule reads it,
and neither does the model (entry 16). -/
opaque hostBase : Nat

/-- LATENCY (R7, 70 R274): how long a command keeps BUSY = 1. No rule reads it: the model orders events
only by the agenda (entry 16). -/
opaque latency : Nat

/-- The free values (entry 8): what an unspecified location of a space reads as, for the value `n` of
the model's counter `draws`. No body: nothing can be proved of a value of it
(10_state R42, R43; 93 U1 to U6, "a draw, never one fixed value"). -/
opaque freeWord (n : Nat) (space : Space) (address : Nat) : Word

end Config

end Sys2Proof
end

