-- ==== Sys2Proof/Syntax.lean ====
section
/-!
DEFINITION. The commands of HUFF-CORE: one constructor per row of spec/opcode_table.json
(30_encoding R78). No command word carries an immediate or a register number (R81), so no
constructor has an argument.
-/

namespace Sys2Proof

/-- The command set (40_control R100). -/
inductive Instr where
  /-- Does nothing (R107). -/
  | nop
  /-- Builds the Huffman tree from FREQ (R120). -/
  | build
  /-- Assigns a code to every leaf of the tree (R140). -/
  | extract
  /-- Writes the container header from CT (R160). -/
  | henc
  /-- Encodes IBUF and appends the payload to the header (R190). -/
  | pack
  /-- Parses the container header in IBUF (R163). -/
  | hdec
  /-- Decodes the payload (R210). -/
  | decode
  /-- Returns the datapath state to its reset values (R108). -/
  | clear
  deriving DecidableEq, Repr

end Sys2Proof
end

