-- ==== Sys2Proof/WellFormed.lean ====
section
/-!
DEFINITION. Well-formedness. A command has no operands (30_encoding R81), so what can be ill-formed is
the command WORD, and it has two ways to be (R70, R79): a reserved bit set, or a reserved opcode.
-/

namespace Sys2Proof

/-- Bits 31:4 of a command word are reserved and must be 0 (R70). -/
def reservedBitsClear (w : Word) : Bool := w.extractLsb' 4 28 == 0#28

/-- OP names a command: 0x0 to 0x7 (R78). -/
def opcodeAssigned (w : Word) : Bool := decide ((w.extractLsb' 0 4).toNat < 8)

/-- The word is legal (R70: bits 31:4 are 0 and OP names a command). -/
def wellFormedWord (w : Word) : Bool := reservedBitsClear w && opcodeAssigned w

/-- Every command is well-formed: it has no operand that could be out of range (R81). -/
def Instr.wellFormed (_ : Instr) : Bool := true

end Sys2Proof
end

