-- ==== Sys2Proof/Decode.lean ====
section
/-!
DEFINITION. The decoder of command words, total on every 32-bit word and rejecting by name, and after
it the encoder (30_encoding R70, R78, R79). A word reaches the block whole, by one REG write, and has
no byte order (20_memory R60).
-/

namespace Sys2Proof

/-- Why a word is no command (R79). Either way the engine raises ILLEGAL_COMMAND. -/
inductive DecodeError where
  /-- Some bit of 31:4 is set. -/
  | reservedBits
  /-- OP is one of 0x8 to 0xF. -/
  | reservedOpcode
  deriving DecidableEq, Repr

/-- OP = w[3:0] (R70). -/
def opField (w : Word) : BitVec 4 := w.extractLsb' 0 4

/-- RSV = w[31:4] (R70). -/
def rsvField (w : Word) : BitVec 28 := w.extractLsb' 4 28

/-- The opcode map (R78). -/
def decodeOp (op : BitVec 4) : Except DecodeError Instr :=
  match op.toNat with
  | 0 => .ok .nop
  | 1 => .ok .build
  | 2 => .ok .extract
  | 3 => .ok .henc
  | 4 => .ok .pack
  | 5 => .ok .hdec
  | 6 => .ok .decode
  | 7 => .ok .clear
  | _ => .error .reservedOpcode

/-- The command a word stands for (R70, R79). -/
def decode (w : Word) : Except DecodeError Instr :=
  if rsvField w = 0#28 then decodeOp (opField w) else .error .reservedBits

/-- The OP of a command (R78). -/
def opOf : Instr → BitVec 4
  | .nop => 0x0#4
  | .build => 0x1#4
  | .extract => 0x2#4
  | .henc => 0x3#4
  | .pack => 0x4#4
  | .hdec => 0x5#4
  | .decode => 0x6#4
  | .clear => 0x7#4

/-- The word of a command: OP in bits 3:0, zero above (R70, "match = OP"). -/
def encode (i : Instr) : Word := 0#28 ++ opOf i

/-- A command word from the table's numbering of its bits: bit 0 is the least significant bit, and the
bits above `nbits` are 0. -/
def tableWord (nbits w : Nat) : Word := BitVec.ofNat 32 (w % 2 ^ nbits)

/-- The command the decoder reads from a table row's word. -/
def decodeTableWord (nbits w : Nat) : Option Instr :=
  match decode (tableWord nbits w) with
  | .ok i => some i
  | .error _ => none

end Sys2Proof
end

