-- ==== Sys2Proof/Machine/State.lean ====
section
/-!
DEFINITION. The state of HUFF-CORE: every piece of 10_state R20, and the model's own three fields
(`agenda`, `draws`, `hostRead`). Plain data throughout.
-/

namespace Sys2Proof.Machine

/-- The error codes of STATUS.ERRCODE (60_exceptions R230). Codes 11 to 15 are never produced. -/
inductive ErrCode where
  | none
  | unsupportedCodeLength
  | malformedHeader
  | truncatedPayload
  | emptyInput
  | illegalCommand
  | sequenceError
  | symbolNotInTable
  | outputOverflow
  | weightOverflow
  | badLength
  deriving DecidableEq, Repr

/-- One FREQ entry (10_state R30): the count, and whether the host has written it since reset (the
definedness mark of R43). -/
structure FreqEntry where
  count : Word
  written : Bool
  deriving DecidableEq, Repr

/-- One CT entry (R31): VALID, LEN and the left-justified CODE. -/
structure CtEntry where
  valid : Bool
  len : BitVec 4
  code : Byte
  deriving DecidableEq, Repr

/-- The all-zero CT entry (R31, VALID = 0). -/
def CtEntry.empty : CtEntry := ⟨false, 0#4, 0#8⟩

/-- One NODE entry (R32). -/
inductive Node where
  | leaf (weight : Word) (sym : Byte)
  | internal (weight : Word) (left right : BitVec 9)
  deriving DecidableEq, Repr

/-- A byte memory: the bytes written since reset, by strictly rising offset. -/
abbrev Memory := List Host.Cell

/-- What an unlisted offset reads as: no value (10_state R42, IBUF and OBUF are unspecified after
reset; entries 5 and 7). -/
def Memory.unlisted : Option Byte := none

/-- The canonical form: offsets strictly rising, and no entry equal to what an unlisted offset reads
as. -/
abbrev Memory.wf (m : Memory) : Prop :=
  m.Pairwise (fun x y => x.1 < y.1) ∧ ∀ c ∈ m, some c.2 ≠ Memory.unlisted

/-- One access of the host (20_memory R50 to R56). `width` is in bits. -/
inductive HostOp where
  | regRead (addr : RegAddr) (width : Nat)
  | regWrite (addr : RegAddr) (width : Nat) (data : Word)
  | ibufRead (offset : Nat)
  | ibufWrite (offset : Nat) (v : Byte)
  | obufRead (offset : Nat)
  | obufWrite (offset : Nat) (v : Byte)
  deriving DecidableEq, Repr

/-- One entry of the agenda: what happens next (00_scope R11, 40_control R100, 70 R260). -/
inductive Event where
  /-- The engine moves: it completes the pending command, or does nothing when there is none. -/
  | engine
  /-- The host makes one access. -/
  | host (op : HostOp)
  /-- The platform asserts reset. -/
  | reset
  deriving DecidableEq, Repr

/-- Which input a host write reached while a command was pending (70 R270). -/
inductive BusyTarget where
  | freq
  | inLen
  | ibuf
  deriving DecidableEq, Repr

/-- Why the machine stops. -/
inductive Fault where
  /-- BUILD read FREQ[sym], which the host has not written since reset (R43, R264; 93 U1). Raised by
  `execBuild`. Safe: the model stops where the block goes on with an unspecified tree. -/
  | unwrittenFreq (sym : Nat)
  /-- PACK, HDEC or DECODE read an IBUF byte that the host has not written since reset (R265; 93 U2).
  Raised by `memRead`. Safe. -/
  | unwrittenIbuf (offset : Nat)
  /-- A REG access that is not an aligned 32-bit access (R51; 93 U8). Raised by a host access. Safe:
  the spec leaves the response unspecified. -/
  | regAccess (addr : RegAddr) (width : Nat)
  /-- An IBUF or OBUF access at an offset at or beyond BUF_BYTES (R54, R56; 93 U9). Raised by a host
  access. Safe. -/
  | bufferRange (space : Space) (offset : Nat)
  /-- A host write of FREQ, IN_LEN or IBUF while a command is pending (R270; 93 U7). Raised by a host
  access. Safe: the spec leaves the running command's result unspecified. -/
  | busyWrite (target : BusyTarget)
  /-- EXTRACT met a NODE store that is no tree with children below their parent (R32, R126). Raised by
  `execExtract` only in states that no run reaches (entry 12). Safe. -/
  | notATree
  deriving DecidableEq, Repr

/-- Why the model gives no meaning. -/
inductive Refusal where
  /-- The command has no meaning in the model yet. Raised by a refused arm of `exec`. Safe. -/
  | notModelled (mnemonic : String)
  deriving DecidableEq, Repr

/-- The architectural state (10_state R20). ID and CMD hold nothing: ID is the constant
`Config.idValue`, and CMD's only storage is `pending`. BUSY is `pending` (R38), irq is derived. -/
structure State where
  /-- The accepted command word, none when idle (R38). -/
  pending : Option Word
  /-- STATUS.DONE (R23). -/
  done : Bool
  /-- STATUS.ERR (R23). -/
  err : Bool
  /-- STATUS.OVR (R23). -/
  ovr : Bool
  /-- STATUS.ERRCODE (R23, R230). -/
  errCode : ErrCode
  /-- STATUS.TREE_OK (R37). -/
  treeOk : Bool
  /-- STATUS.CT_OK (R37). -/
  ctOk : Bool
  /-- STATUS.HENC_OK (R37). -/
  hencOk : Bool
  /-- STATUS.HDR_OK (R37). -/
  hdrOk : Bool
  /-- ERR_INFO (R24). -/
  errInfo : Word
  /-- IN_LEN (R25). -/
  inLen : Word
  /-- OUT_LEN (R26). -/
  outLen : Word
  /-- PAY_OFF (R27). -/
  payOff : Word
  /-- PAD (R27). -/
  pad : BitVec 3
  /-- TOTAL_BITS (R28). -/
  totalBits : Word
  /-- NUM_CODES (R29). -/
  numCodes : BitVec 9
  /-- MAX_LEN (R29). -/
  maxLen : BitVec 4
  /-- NUM_NODES (R29). -/
  numNodes : BitVec 9
  /-- CTRL.IRQ_EN (R35, R74). -/
  irqEn : Bool
  /-- BUF_SIZE, the parameter BUF_BYTES (R36, R7; entry 3). -/
  bufSize : Word
  /-- FREQ[0..255] (R30). -/
  freq : Vector FreqEntry 256
  /-- CT[0..255] (R31). -/
  ct : Vector CtEntry 256
  /-- NODE[0..510] (R32). -/
  node : Vector Node 511
  /-- IBUF (R33). -/
  ibuf : Memory
  /-- OBUF (R34). -/
  obuf : Memory
  /-- The model's own: the inputs and the schedule still to come (entry 1). -/
  agenda : List Event
  /-- The model's own: the counter of the free values (entry 8). -/
  draws : Nat
  /-- The model's own: the data the host's last read returned (entry 14). -/
  hostRead : Option Word
  deriving DecidableEq, Repr

/-- The state right after reset (10_state R42, 70 R260). FREQ, NODE, IBUF and OBUF are unspecified
there: FREQ entries are marked unwritten, NODE is behind NUM_NODES = 0, the buffers list nothing
(entries 4 to 7). -/
def State.reset : State where
  pending := none
  done := false
  err := false
  ovr := false
  errCode := .none
  treeOk := false
  ctOk := false
  hencOk := false
  hdrOk := false
  errInfo := 0#32
  inLen := 0#32
  outLen := 0#32
  payOff := 0#32
  pad := 0#3
  totalBits := 0#32
  numCodes := 0#9
  maxLen := 0#4
  numNodes := 0#9
  irqEn := false
  bufSize := Config.resetBufBytes
  freq := Vector.replicate 256 ⟨0#32, false⟩
  ct := Vector.replicate 256 CtEntry.empty
  node := Vector.replicate 511 (.leaf 0#32 0#8)
  ibuf := []
  obuf := []
  agenda := []
  draws := 0
  hostRead := none

end Sys2Proof.Machine
end

