-- ==== Sys2Proof/Machine/Flags.lean ====
section
/-!
DEFINITION. STATUS: its bits (30_encoding R73), the error-code numbers (60_exceptions R230), the
write-one-to-clear rule (20_memory R53), the sequencing flags (40_control R104, R109) and the irq
output (60_exceptions R237).
-/

namespace Sys2Proof.Machine

/-- The 4-bit number of an error (R230). -/
def ErrCode.toBits : ErrCode → BitVec 4
  | .none => 0#4
  | .unsupportedCodeLength => 1#4
  | .malformedHeader => 2#4
  | .truncatedPayload => 3#4
  | .emptyInput => 4#4
  | .illegalCommand => 5#4
  | .sequenceError => 6#4
  | .symbolNotInTable => 7#4
  | .outputOverflow => 8#4
  | .weightOverflow => 9#4
  | .badLength => 10#4

/-- STATUS.BUSY: 1 exactly when a command is pending (10_state R38). -/
def State.busy (s : State) : Bool := s.pending.isSome

/-- The STATUS word (R73), from bit 31 down. -/
def State.statusWord (s : State) : Word :=
  0#12 ++ BitVec.ofBool s.hdrOk ++ BitVec.ofBool s.hencOk ++ BitVec.ofBool s.ctOk ++
    BitVec.ofBool s.treeOk ++ 0#4 ++ s.errCode.toBits ++ 0#4 ++ BitVec.ofBool s.ovr ++
    BitVec.ofBool s.err ++ BitVec.ofBool s.done ++ BitVec.ofBool s.busy

/-- A host write of STATUS: DONE (bit 1) and OVR (bit 3) clear when written with 1, everything else is
unchanged (20_memory R53). -/
def State.writeStatus (data : Word) (s : State) : State :=
  { s with done := s.done && !data.getLsbD 1, ovr := s.ovr && !data.getLsbD 3 }

/-- The CTRL word (R74). -/
def State.ctrlWord (s : State) : Word := 0#31 ++ BitVec.ofBool s.irqEn

/-- A host write of CTRL: only bit 0 is there (R74). -/
def State.writeCtrl (data : Word) (s : State) : State := { s with irqEn := data.getLsbD 0 }

/-- The irq output, a level (60_exceptions R237). -/
def State.irq (s : State) : Bool := s.irqEn && s.done

/-- Every legal command except NOP clears HENC_OK before its other checks (R104). The value it had,
`henc_prev`, is `s.hencOk` of the state before. -/
def consumeHenc (s : State) : State := { s with hencOk := false }

end Sys2Proof.Machine
end

