-- ==== Sys2Proof/Machine/Operands.lean ====
section
/-!
DEFINITION. What commands and host accesses operate on: codes as bit strings (00_scope R9), the count
bytes of the container (30_encoding R87, R88), the REG map (R71) and the word formats of the arrays
(R75 to R77).
-/

namespace Sys2Proof.Machine

/-! ### Bit strings and codes -/

/-- The integer of a bit string, first bit most significant (R9, `val`). -/
def bitsVal (c : List Bool) : Nat := c.foldl (fun v b => 2 * v + b.toNat) 0

/-- A code left-justified in a byte, the low bits zero (R9). -/
def codeByte (c : List Bool) : Byte := BitVec.ofNat 8 (bitsVal c) <<< (8 - c.length)

/-- The bits of a byte, most significant first (44_bit_packer R197, `E`). -/
def byteBits (v : Byte) : List Bool := (List.range 8).map v.getMsbD

/-- The code of a CT entry as a bit string: `CODE[7 : 8 - LEN]`, first bit first (R9;
43_header_codec R163, `code(s)`). -/
def CtEntry.bits (e : CtEntry) : List Bool := (List.range e.len.toNat).map e.code.getMsbD

/-- `TopMask(L)`: the top L bits of a byte (43_header_codec R163). -/
def topMask (len : Nat) : Byte := 0xFF#8 <<< (8 - len)

/-- A count byte as a count: 0 means 256 (30_encoding R87, R88). -/
def decodeCount (b : Byte) : Nat := if b = 0#8 then 256 else b.toNat

/-- A count as its count byte: modulo 256 (R87, R88). -/
def encodeCount (n : Nat) : Byte := BitVec.ofNat 8 n

/-! ### The arrays -/

/-- CT[sym]. -/
def ctAt (ct : Vector CtEntry 256) (sym : Byte) : CtEntry := ct[sym.toNat]'sym.isLt

/-- CT with the entry of `sym` replaced. -/
def ctSet (ct : Vector CtEntry 256) (sym : Byte) (e : CtEntry) : Vector CtEntry 256 :=
  ct.set sym.toNat e sym.isLt

/-- CT with every entry all zero. -/
def ctEmpty : Vector CtEntry 256 := Vector.replicate 256 CtEntry.empty

/-- FREQ[sym]. -/
def freqAt (freq : Vector FreqEntry 256) (sym : Byte) : FreqEntry := freq[sym.toNat]'sym.isLt

/-- FREQ with the entry of `sym` replaced. -/
def freqSet (freq : Vector FreqEntry 256) (sym : Byte) (e : FreqEntry) : Vector FreqEntry 256 :=
  freq.set sym.toNat e sym.isLt

/-- NODE[i]; there is no entry at 511 or above, and no access reaches one. -/
def nodeAt (node : Vector Node 511) (i : Nat) : Node := node[i]?.getD (.leaf 0#32 0#8)

/-- The weight of a node (R32). -/
def Node.weight : Node → Word
  | .leaf w _ => w
  | .internal w _ _ => w

/-- The symbols in ascending order. -/
def symbols : List Byte := (List.range 256).map (BitVec.ofNat 8)

/-- The VALID entries of a table from symbol `sym` on, each with its symbol, ascending. -/
def entriesFrom : Nat → List CtEntry → List (Byte × CtEntry)
  | _, [] => []
  | sym, e :: es =>
    if e.valid then (BitVec.ofNat 8 sym, e) :: entriesFrom (sym + 1) es else entriesFrom (sym + 1) es

/-- The VALID entries of CT, in ascending symbol order. -/
def validEntries (ct : Vector CtEntry 256) : List (Byte × CtEntry) := entriesFrom 0 ct.toList

/-- The VALID entries of CT as codes, in ascending symbol order. -/
def validCodes (ct : Vector CtEntry 256) : List (Byte × List Bool) :=
  (validEntries ct).map fun x => (x.1, x.2.bits)

/-- The number of VALID entries (10_state R29, NUM_CODES). -/
def countValid (ct : Vector CtEntry 256) : Nat := ct.toList.countP (·.valid)

/-- The largest LEN among the VALID entries, 0 when there is none (R29, MAX_LEN). -/
def maxValidLen (ct : Vector CtEntry 256) : Nat :=
  ct.toList.foldr (fun e m => if e.valid then max e.len.toNat m else m) 0

/-! ### The REG map -/

/-- A REG word by its name (R71). -/
inductive Reg where
  | id | cmd | status | errInfo | inLen | outLen | payOff | pad | totalBits | numCodes | maxLen
  | numNodes | ctrl | bufSize
  | freq (sym : Byte)
  | ct (sym : Byte)
  | node0 (i : Nat)
  | node1 (i : Nat)
  | unmapped
  deriving DecidableEq, Repr

/-- The register at an aligned address (R71). -/
def regAt (addr : RegAddr) : Reg :=
  let a := addr.toNat
  if a < 0x400 then
    match a / 4 with
    | 0 => .id
    | 1 => .cmd
    | 2 => .status
    | 3 => .errInfo
    | 4 => .inLen
    | 5 => .outLen
    | 6 => .payOff
    | 7 => .pad
    | 8 => .totalBits
    | 9 => .numCodes
    | 10 => .maxLen
    | 11 => .numNodes
    | 12 => .ctrl
    | 13 => .bufSize
    | _ => .unmapped
  else if a < 0x800 then .freq (BitVec.ofNat 8 ((a - 0x400) / 4))
  else if a < 0xC00 then .ct (BitVec.ofNat 8 ((a - 0x800) / 4))
  else if a < 0x1000 then .unmapped
  else if a < 0x1FF8 then
    if (a / 4) % 2 = 0 then .node0 ((a - 0x1000) / 8) else .node1 ((a - 0x1000) / 8)
  else .unmapped

/-- The CT[s] word (R75). -/
def CtEntry.word (e : CtEntry) : Word := BitVec.ofBool e.valid ++ 0#19 ++ e.len ++ e.code

/-- NODE[i] word 0 (R76). -/
def Node.word0 (n : Node) : Word := n.weight

/-- NODE[i] word 1 (R76). -/
def Node.word1 : Node → Word
  | .leaf _ sym => 0#24 ++ sym
  | .internal _ left right => 1#1 ++ 0#13 ++ right ++ left

/-- What a register reads as while it is specified; none where its value is unspecified: a FREQ entry
not written since reset (10_state R43) and a NODE entry at or beyond NUM_NODES (R32). -/
def regValue (s : State) : Reg → Option Word
  | .id => some Config.idValue
  | .cmd => some 0#32
  | .status => some s.statusWord
  | .errInfo => some s.errInfo
  | .inLen => some s.inLen
  | .outLen => some s.outLen
  | .payOff => some s.payOff
  | .pad => some (s.pad.setWidth 32)
  | .totalBits => some s.totalBits
  | .numCodes => some (s.numCodes.setWidth 32)
  | .maxLen => some (s.maxLen.setWidth 32)
  | .numNodes => some (s.numNodes.setWidth 32)
  | .ctrl => some s.ctrlWord
  | .bufSize => some s.bufSize
  | .freq sym => if (freqAt s.freq sym).written then some (freqAt s.freq sym).count else none
  | .ct sym => some (ctAt s.ct sym).word
  | .node0 i => if i < s.numNodes.toNat then some (nodeAt s.node i).word0 else none
  | .node1 i => if i < s.numNodes.toNat then some (nodeAt s.node i).word1 else none
  | .unmapped => some 0#32

/-- A read of the register while a command is pending returns an unspecified value (70 R270). ID, CMD,
STATUS, ERR_INFO, CTRL, BUF_SIZE and unmapped words stay defined. FREQ and IN_LEN: entry 10. -/
def Reg.unspecifiedWhileBusy : Reg → Bool
  | .id | .cmd | .status | .errInfo | .ctrl | .bufSize | .unmapped => false
  | .inLen | .outLen | .payOff | .pad | .totalBits | .numCodes | .maxLen | .numNodes => true
  | .freq _ | .ct _ | .node0 _ | .node1 _ => true

/-- The bits a register has: an unspecified value is unspecified in these, and its reserved bits read
0 (20_memory R53, 93 V3; entry 9). -/
def Reg.fieldMask : Reg → Word
  | .pad => 0x00000007#32
  | .numCodes => 0x000001FF#32
  | .maxLen => 0x0000000F#32
  | .numNodes => 0x000001FF#32
  | .ct _ => 0x80000FFF#32
  | .node1 _ => 0x8003FFFF#32
  | .unmapped => 0x00000000#32
  | .id | .cmd | .status | .errInfo | .inLen | .outLen | .payOff | .totalBits | .ctrl | .bufSize =>
    0xFFFFFFFF#32
  | .freq _ | .node0 _ => 0xFFFFFFFF#32

end Sys2Proof.Machine
end

