-- ==== Sys2Proof/Machine/Ops.lean ====
section
/-!
DEFINITION. The operations every command is written over: the byte memories, the engine's reads and
writes of them (00_scope R10, 40_control R112), the checks of `Complete` (R105, R109, R110), and its
two ends (R106, 60_exceptions R231).
-/

namespace Sys2Proof.Machine

/-! ### Byte memories -/

/-- The byte at an offset, none where nothing is listed. -/
def Memory.read : Memory → Nat → Option Byte
  | [], _ => Memory.unlisted
  | (b, v) :: m, a => if b = a then some v else Memory.read m a

/-- The memory with the byte at an offset replaced, in the canonical form. -/
def Memory.write : Memory → Nat → Byte → Memory
  | [], a, v => [(a, v)]
  | (b, w) :: m, a, v =>
    if a < b then (a, v) :: (b, w) :: m
    else if a = b then (a, v) :: m
    else (b, w) :: Memory.write m a v

/-! ### How a command body ends -/

/-- A command body, or a part of one, ends normally with a value, ends the command by `raise E(info)`
(R10), or faults. Either of the first two carries the state as written so far (R231, R240: errors are
precise). -/
inductive Exit (α : Type) where
  | ok (a : α) (s : State)
  | raise (e : ErrCode) (info : Word) (s : State)
  | fault (f : Fault)
  deriving Repr

/-- Run one part after another; a raise or a fault of the first skips the second. -/
def Exit.bind {α β : Type} (x : Exit α) (k : α → State → Exit β) : Exit β :=
  match x with
  | .ok a s => k a s
  | .raise e info s => .raise e info s
  | .fault f => .fault f

/-- Completion on a normal end (R106). The counter of the free values moves on: what a command leaves
unspecified may change at its completion (entry 8). -/
def complete (s : State) : State :=
  { s with
    pending := none, done := true, err := false, errCode := .none, errInfo := 0#32
    draws := s.draws + 1 }

/-- Completion on `raise E(info)` (R106, R231): what this spec has for taking an exception. -/
def raiseError (e : ErrCode) (info : Word) (s : State) : State :=
  { s with
    pending := none, done := true, err := true, errCode := e, errInfo := info
    draws := s.draws + 1 }

/-- The end of `Complete(w)` (R106). -/
def finish : Exit Unit → Host.Outcome State Fault Refusal
  | .ok _ s => .next (complete s)
  | .raise e info s => .next (raiseError e info s)
  | .fault f => .fault f

/-- `Complete(w)` of an illegal word: ILLEGAL_COMMAND with the word, and nothing else changes (R79,
R103). -/
def illegalCommand (w : Word) (s : State) : Host.Outcome State Fault Refusal :=
  .next (raiseError .illegalCommand w s)

/-! ### The checks before a body -/

/-- Step 3 of R105: the command's sequencing requirement, SEQUENCE_ERROR with its OP where it is 0
(R109). -/
def requireFlag (flag : Bool) (i : Instr) (s : State) (body : Exit Unit) : Exit Unit :=
  if flag then body else .raise .sequenceError ((opOf i).setWidth 32) s

/-- Step 4 of R105: BAD_LENGTH where IN_LEN > BUF_BYTES (R110). -/
def checkLength (s : State) (body : Exit Unit) : Exit Unit :=
  if s.inLen.toNat > s.bufSize.toNat then .raise .badLength s.inLen s else body

/-! ### The engine's accesses to the buffers -/

/-- `MemRead(IBUF, a, 1)` (R10, R55). A byte the host has not written since reset faults (R265). -/
def memRead (a : Nat) (s : State) : Exit Byte :=
  match s.ibuf.read a with
  | some v => .ok v s
  | none => .fault (.unwrittenIbuf a)

/-- `EmitOut(q, v)` (R112). -/
def emitOut (q : Nat) (v : Byte) (s : State) : Exit Unit :=
  if q ≥ s.bufSize.toNat then .raise .outputOverflow s.bufSize { s with outLen := 0#32 }
  else .ok () { s with obuf := s.obuf.write q v }

/-- `EmitOut` of a list of bytes at ascending offsets from q; the value is the next offset. -/
def emitList : Nat → List Byte → State → Exit Nat
  | q, [], s => .ok q s
  | q, v :: vs, s => (emitOut q v s).bind fun _ s => emitList (q + 1) vs s

/-! ### The code table -/

/-- CT all zero, NUM_CODES and MAX_LEN 0. -/
def clearTable (s : State) : State := { s with ct := ctEmpty, numCodes := 0#9, maxLen := 0#4 }

/-! ### Unspecified values and reset -/

/-- The counter of the free values moves on, so that what is read next is drawn anew (entry 8). -/
def nextDraw (s : State) : State := { s with draws := s.draws + 1 }

/-- The unspecified value of a location, in the bits of `mask` (10_state R42, R43; entry 8). -/
def unspecified (space : Space) (address : Nat) (mask : Word) (s : State) : Word :=
  Config.freeWord s.draws space address &&& mask

/-- The `Reset` transition (70 R260): every piece of state to its value of 10_state R42. The parameter
BUF_BYTES, what is left of the agenda and the host's own read data are not the block's to reset; the
free values are drawn anew (entry 19). -/
def resetBlock (s : State) : State :=
  { State.reset with
    bufSize := s.bufSize, agenda := s.agenda, hostRead := s.hostRead, draws := s.draws + 1 }

end Sys2Proof.Machine
end

