-- ==== Sys2Proof/Machine/HostBus.lean ====
section
/-!
DEFINITION. The host's accesses (20_memory R50 to R57): what each does to the block, what a read
returns, and what the busy rules of 70_reset_and_hazards R268 to R271 make of it.
-/

namespace Sys2Proof.Machine

/-- A read's data reaches the host (entry 14). -/
def returnData (v : Word) (s : State) : State := { s with hostRead := some v }

/-- A read that returns an unspecified value while a command is pending (R270): the counter moves before
each such read, so its value is a draw that no read before it has shown, the idle reads before the CMD
write included. -/
def returnBusyDraw (space : Space) (address : Nat) (mask : Word) (s : State) : State :=
  returnData (unspecified space address mask (nextDraw s)) (nextDraw s)

/-- A host write of CMD: accepted when nothing is pending (40_control R101), else dropped with OVR
(R102). -/
def writeCmd (w : Word) (s : State) : State :=
  if s.busy then { s with ovr := true }
  else
    { s with
      pending := some w, done := false, err := false, errCode := .none, errInfo := 0#32 }

/-- The host access is a REG access of the one kind there is: 32 bits, 4-byte aligned (R51). -/
def regAccessOk (addr : RegAddr) (width : Nat) : Bool :=
  width == 32 && addr.toNat % 4 == 0

/-- A host read of REG. -/
def hostRegRead (addr : RegAddr) (width : Nat) (s : State) : Host.Outcome State Fault Refusal :=
  if !regAccessOk addr width then .fault (.regAccess addr width)
  else if s.busy && (regAt addr).unspecifiedWhileBusy then
    .next (returnBusyDraw .reg addr.toNat (regAt addr).fieldMask s)
  else
    match regValue s (regAt addr) with
    | some v => .next (returnData v s)
    | none => .next (returnData (unspecified .reg addr.toNat (regAt addr).fieldMask s) s)

/-- A host write of a register (R53: every register not named here ignores it). -/
def writeReg (r : Reg) (data : Word) (s : State) : Host.Outcome State Fault Refusal :=
  match r with
  | .cmd => .next (writeCmd data s)
  | .status => .next (s.writeStatus data)
  | .ctrl => .next (s.writeCtrl data)
  | .inLen => if s.busy then .fault (.busyWrite .inLen) else .next { s with inLen := data }
  | .freq sym =>
    if s.busy then .fault (.busyWrite .freq)
    else .next { s with freq := freqSet s.freq sym ⟨data, true⟩ }
  | .id | .errInfo | .outLen | .payOff | .pad | .totalBits | .numCodes | .maxLen | .numNodes
  | .bufSize | .ct _ | .node0 _ | .node1 _ | .unmapped => .next s

/-- A host write of REG. -/
def hostRegWrite (addr : RegAddr) (width : Nat) (data : Word) (s : State) :
    Host.Outcome State Fault Refusal :=
  if !regAccessOk addr width then .fault (.regAccess addr width)
  else writeReg (regAt addr) data s

/-- `HostReadIBUF(a)` (R54). A byte not written since reset is unspecified (10_state R43). While a
command is pending: entry 10. -/
def hostIbufRead (a : Nat) (s : State) : Host.Outcome State Fault Refusal :=
  if a ≥ s.bufSize.toNat then .fault (.bufferRange .ibuf a)
  else if s.busy then .next (returnBusyDraw .ibuf a 0xFF#32 s)
  else
    match s.ibuf.read a with
    | some v => .next (returnData (v.setWidth 32) s)
    | none => .next (returnData (unspecified .ibuf a 0xFF#32 s) s)

/-- `HostWriteIBUF(a, v)` (R54). IN_LEN is not changed. -/
def hostIbufWrite (a : Nat) (v : Byte) (s : State) : Host.Outcome State Fault Refusal :=
  if a ≥ s.bufSize.toNat then .fault (.bufferRange .ibuf a)
  else if s.busy then .fault (.busyWrite .ibuf)
  else .next { s with ibuf := s.ibuf.write a v }

/-- `HostReadOBUF(a)` (R56). Bytes at or beyond OUT_LEN are unspecified. -/
def hostObufRead (a : Nat) (s : State) : Host.Outcome State Fault Refusal :=
  if a ≥ s.bufSize.toNat then .fault (.bufferRange .obuf a)
  else if s.busy then .next (returnBusyDraw .obuf a 0xFF#32 s)
  else
    match (if a < s.outLen.toNat then s.obuf.read a else none) with
    | some v => .next (returnData (v.setWidth 32) s)
    | none => .next (returnData (unspecified .obuf a 0xFF#32 s) s)

/-- A host write of OBUF is ignored (R56); its offset must still lie in the buffer (93 U9; entry 15). -/
def hostObufWrite (a : Nat) (_ : Byte) (s : State) : Host.Outcome State Fault Refusal :=
  if a ≥ s.bufSize.toNat then .fault (.bufferRange .obuf a) else .next s

/-- One access of the host. -/
def hostAccess (op : HostOp) (s : State) : Host.Outcome State Fault Refusal :=
  match op with
  | .regRead addr width => hostRegRead addr width s
  | .regWrite addr width data => hostRegWrite addr width data s
  | .ibufRead a => hostIbufRead a s
  | .ibufWrite a v => hostIbufWrite a v s
  | .obufRead a => hostObufRead a s
  | .obufWrite a v => hostObufWrite a v s

end Sys2Proof.Machine
end

