-- ==== Sys2Proof/Machine/Control.lean ====
section
/-!
DEFINITION. The control commands NOP and CLEAR (40_control R107, R108).
-/

namespace Sys2Proof.Machine

/-- NOP does nothing (R107); HENC_OK is not consumed (R104). -/
def execNop (s : State) : Host.Outcome State Fault Refusal := finish (.ok () s)

/-- The datapath state at its reset values (R108). -/
def clearDatapath (s : State) : State :=
  { clearTable s with
    treeOk := false, ctOk := false, hdrOk := false
    outLen := 0#32, payOff := 0#32, pad := 0#3, totalBits := 0#32
    numNodes := 0#9 }

/-- CLEAR (R108). -/
def execClear (s : State) : Host.Outcome State Fault Refusal :=
  finish (.ok () (clearDatapath (consumeHenc s)))

end Sys2Proof.Machine
end

