-- ==== Sys2Proof/Machine/TreeBuilder.lean ====
section
/-!
DEFINITION. The tree builder, the priority merge engine: BUILD (41_tree_builder R120 to R129).
-/

namespace Sys2Proof.Machine

/-- An element of the priority queue Q: a node's index with its weight, the two parts of its key
(R122, R128). -/
structure QEntry where
  weight : Word
  idx : Nat
  deriving DecidableEq, Repr

/-- The order of extraction: by weight, then by node index (R122). -/
def QEntry.before (x y : QEntry) : Bool :=
  decide (x.weight.toNat < y.weight.toNat) || (x.weight == y.weight && decide (x.idx < y.idx))

/-- `min_by` and removal in one (R120): the least element of Q, and Q without it. -/
def extractMin : List QEntry → Option (QEntry × List QEntry)
  | [] => none
  | e :: q =>
    match extractMin q with
    | none => some (e, [])
    | some (m, rest) => if e.before m then some (e, q) else some (m, e :: rest)

/-- The least symbol from `sym` on whose FREQ entry is not written since reset (R264). -/
def firstUnwritten : Nat → List FreqEntry → Option Nat
  | _, [] => none
  | sym, f :: fs => if f.written then firstUnwritten (sym + 1) fs else some sym

/-- Leaf loading: one leaf per present symbol, in ascending symbol order (R121). -/
def leavesFrom : Nat → List FreqEntry → List Node
  | _, [] => []
  | sym, f :: fs =>
    if f.count = 0#32 then leavesFrom (sym + 1) fs
    else .leaf f.count (BitVec.ofNat 8 sym) :: leavesFrom (sym + 1) fs

/-- Q at the start: every leaf, by its node index (R120). -/
def queueFrom : Nat → List Node → List QEntry
  | _, [] => []
  | i, n :: ns => ⟨n.weight, i⟩ :: queueFrom (i + 1) ns

/-- What merging ends with: the nodes of the finished tree, or the nodes there were at the first merge
whose weight passes 0xFFFFFFFF (R124). -/
inductive Merged where
  | tree (nodes : List Node)
  | overflow (nodes : List Node)
  deriving DecidableEq, Repr

/-- Nodes put before those of the result. -/
def Merged.prepend (nodes : List Node) : Merged → Merged
  | .tree more => .tree (nodes ++ more)
  | .overflow more => .overflow (nodes ++ more)

/-- The merge loop (R120, R122): while Q holds two elements, the two least become the left and the
right child of the new node `n`. The result lists the nodes made. Each pass takes one element off Q, so
`fuel` of its size is enough. -/
def mergeLoop : Nat → Nat → List QEntry → Merged
  | 0, _, _ => .tree []
  | fuel + 1, n, q =>
    match extractMin q with
    | none => .tree []
    | some (a, q₁) =>
      match extractMin q₁ with
      | none => .tree []
      | some (b, q₂) =>
        let t := a.weight.toNat + b.weight.toNat
        if t > Config.maxWeight then .overflow []
        else
          (mergeLoop fuel (n + 1) (⟨BitVec.ofNat 32 t, n⟩ :: q₂)).prepend
            [.internal (BitVec.ofNat 32 t) (BitVec.ofNat 9 a.idx) (BitVec.ofNat 9 b.idx)]

/-- The tree of a list of leaves. -/
def mergeLeaves (leaves : List Node) : Merged :=
  (mergeLoop leaves.length leaves.length (queueFrom 0 leaves)).prepend leaves

/-- A list of nodes laid over an older one from its start; the older one keeps its length, and what lies
beyond the new nodes. -/
def overlay : List Node → List Node → List Node
  | [], old => old
  | _ :: _, [] => []
  | n :: ns, _ :: old => n :: overlay ns old

theorem overlay_length (ns old : List Node) : (overlay ns old).length = old.length := by
  induction ns generalizing old with
  | nil => rfl
  | cons n ns ih => cases old <;> simp [overlay, ih]

/-- NODE[0], NODE[1], ... written (R120); the other entries keep what they hold. -/
def storeNodes (nodes : List Node) (node : Vector Node 511) : Vector Node 511 :=
  ⟨(overlay nodes node.toList).toArray, by simp [overlay_length]⟩

/-- BUILD's writes before its loop (R120). -/
def buildStart (s : State) : State :=
  { s with treeOk := false, ctOk := false, hdrOk := false, outLen := 0#32 }

/-- BUILD after leaf loading (R120): EMPTY_INPUT (R125), WEIGHT_OVERFLOW (R124) or the tree (R126). -/
def buildFrom (leaves : List Node) (s : State) : Exit Unit :=
  match leaves with
  | [] => .raise .emptyInput 0#32 { s with numNodes := 0#9 }
  | _ :: _ =>
    match mergeLeaves leaves with
    | .overflow nodes =>
      .raise .weightOverflow (BitVec.ofNat 32 nodes.length)
        { s with node := storeNodes nodes s.node, numNodes := 0#9 }
    | .tree nodes =>
      .ok ()
        { s with
          node := storeNodes nodes s.node, numNodes := BitVec.ofNat 9 nodes.length
          treeOk := true }

/-- The body of BUILD (R120). It reads all 256 FREQ entries, and faults on one that is not written since
reset (R264, 10_state R43). -/
def buildBody (s : State) : Exit Unit :=
  match firstUnwritten 0 s.freq.toList with
  | some sym => .fault (.unwrittenFreq sym)
  | none => buildFrom (leavesFrom 0 s.freq.toList) (buildStart s)

/-- BUILD (R120). -/
def execBuild (s : State) : Host.Outcome State Fault Refusal := finish (buildBody (consumeHenc s))

end Sys2Proof.Machine
end

