-- ==== Sys2Proof/Machine/Extractor.lean ====
section
/-!
DEFINITION. The code-table extractor: EXTRACT (42_code_table R140 to R147).
-/

namespace Sys2Proof.Machine

/-- What a walk of the tree ends with: the table so far, the first leaf deeper than 8 (R143), or the
finding that NODE holds no tree (entry 12). -/
inductive Walk where
  | table (ct : Vector CtEntry 256)
  | tooDeep (sym : Byte) (depth : Nat)
  | notATree

/-- `Visit(i, c)` (R140, R141): depth first, left before right, "0" for a left branch and "1" for a
right one. Children lie below their parent (R32), so `fuel` of 511 visits every tree. -/
def visit (node : Vector Node 511) : Nat → Nat → List Bool → Vector CtEntry 256 → Walk
  | 0, _, _, _ => .notATree
  | fuel + 1, i, c, ct =>
    match nodeAt node i with
    | .leaf _ sym =>
      if c.length > Config.maxCodeLen then .tooDeep sym c.length
      else .table (ctSet ct sym ⟨true, BitVec.ofNat 4 c.length, codeByte c⟩)
    | .internal _ left right =>
      match visit node fuel left.toNat (c ++ [false]) ct with
      | .table ct' => visit node fuel right.toNat (c ++ [true]) ct'
      | .tooDeep sym depth => .tooDeep sym depth
      | .notATree => .notATree

/-- The walk from the root, the single leaf's code "0" included (R140, R142). -/
def extractTable (node : Vector Node 511) (root : Nat) : Walk :=
  match nodeAt node root with
  | .leaf _ sym => .table (ctSet ctEmpty sym ⟨true, 1#4, 0x00#8⟩)
  | .internal _ _ _ => visit node Config.maxNodes root [] ctEmpty

/-- The summary registers of a finished table (R140, R145), and CT itself. -/
def installTable (ct : Vector CtEntry 256) (s : State) : State :=
  { s with
    ct := ct, numCodes := BitVec.ofNat 9 (countValid ct), maxLen := BitVec.ofNat 4 (maxValidLen ct) }

/-- EXTRACT's writes before its walk (R140). -/
def extractStart (s : State) : State := clearTable { s with ctOk := false, hdrOk := false }

/-- EXTRACT after its sequencing check (R140). -/
def extractBody (s : State) : Exit Unit :=
  match extractTable s.node (s.numNodes.toNat - 1) with
  | .table ct => .ok () { installTable ct (extractStart s) with ctOk := true }
  | .tooDeep sym depth =>
    .raise .unsupportedCodeLength (sym.setWidth 32 ||| (BitVec.ofNat 32 depth <<< 8)) (extractStart s)
  | .notATree => .fault .notATree

/-- EXTRACT (R140). -/
def execExtract (s : State) : Host.Outcome State Fault Refusal :=
  let s₁ := consumeHenc s
  finish (requireFlag s₁.treeOk .extract s₁ (extractBody s₁))

end Sys2Proof.Machine
end

