-- ==== Sys2Proof/Machine/HeaderCodec.lean ====
section
/-!
DEFINITION. The header encoder and decoder: HENC and HDEC (43_header_codec R160 to R169), over the
container layout of 30_encoding R85 to R92.
-/

namespace Sys2Proof.Machine

/-! ### HENC -/

/-- The entries whose code has length `len`, in ascending symbol order (R160, `S`). -/
def entriesOfLen (ct : Vector CtEntry 256) (len : Nat) : List (Byte × CtEntry) :=
  (validEntries ct).filter fun x => x.2.len.toNat == len

/-- The pairs of a group: symbol, packed code byte (30_encoding R89, R90). -/
def pairBytes (entries : List (Byte × CtEntry)) : List Byte :=
  entries.flatMap fun x => [x.1, x.2.code]

/-- One group: count, length, then a pair per code (30_encoding R88 to R90); nothing for a length that
no code has. -/
def groupBytes (ct : Vector CtEntry 256) (len : Nat) : List Byte :=
  if (entriesOfLen ct len).length > 0 then
    encodeCount (entriesOfLen ct len).length :: BitVec.ofNat 8 len :: pairBytes (entriesOfLen ct len)
  else []

/-- The code lengths in ascending order (R160). -/
def codeLengths : List Nat := [1, 2, 3, 4, 5, 6, 7, 8]

/-- The header from offset 1 on: total_code_count and the groups (R160, R161). -/
def headerBytes (numCodes : BitVec 9) (ct : Vector CtEntry 256) : List Byte :=
  encodeCount numCodes.toNat :: codeLengths.flatMap (groupBytes ct)

/-- HENC after its sequencing check (R160): the header from offset 1, then the placeholder at offset 0
(R162). -/
def hencBody (s : State) : Exit Unit :=
  (emitList 1 (headerBytes s.numCodes s.ct) s).bind fun q s =>
    (emitOut 0 0x00#8 s).bind fun _ s =>
      .ok () { s with outLen := BitVec.ofNat 32 q, hencOk := true }

/-- HENC (R160). -/
def execHenc (s : State) : Host.Outcome State Fault Refusal :=
  let s₁ := consumeHenc s
  finish (requireFlag s₁.ctOk .henc s₁ (hencBody s₁))

/-! ### HDEC -/

/-- `Fail(sub, off)` (R163, 60_exceptions R233): CT cleared, MALFORMED_HEADER. -/
def headerFail {α : Type} (sub off : Nat) (s : State) : Exit α :=
  .raise .malformedHeader (BitVec.ofNat 32 sub ||| (BitVec.ofNat 32 off <<< 8)) (clearTable s)

/-- The pairs of one group (R163): `count` pairs of codes of length `len` from offset p; `n` is IN_LEN.
The value is the offset after the last pair. -/
def hdecPairs (len n : Nat) : Nat → Nat → State → Exit Nat
  | 0, p, s => .ok p s
  | count + 1, p, s =>
    if p + 2 > n then headerFail 4 p s
    else
      (memRead p s).bind fun sym s =>
        (memRead (p + 1) s).bind fun b s =>
          if (ctAt s.ct sym).valid then headerFail 7 p s
          else
            hdecPairs len n count (p + 2)
              { s with ct := ctSet s.ct sym ⟨true, BitVec.ofNat 4 len, b &&& topMask len⟩ }

/-- The groups (R163, R164): `due` codes are still due at offset p. A group brings at least one code,
so `fuel` of at least `due` is enough. The value is the offset after the last pair. -/
def hdecGroups (n : Nat) : Nat → Nat → Nat → State → Exit Nat
  | 0, _, p, s => .ok p s
  | fuel + 1, due, p, s =>
    if due = 0 then .ok p s
    else if p + 2 > n then headerFail 3 p s
    else
      (memRead p s).bind fun kb s =>
        (memRead (p + 1) s).bind fun len s =>
          if len.toNat < 1 ∨ len.toNat > 8 then headerFail 5 (p + 1) s
          else if decodeCount kb > due then headerFail 6 p s
          else
            (hdecPairs len.toNat n (decodeCount kb) (p + 2) s).bind fun p s =>
              hdecGroups n fuel (due - decodeCount kb) p s

/-- Two distinct VALID symbols have codes of which the one is a prefix of the other, or equal to it
(R167, 00_scope R9). -/
def prefixClash (ct : Vector CtEntry 256) : Bool :=
  (validCodes ct).any fun x =>
    (validCodes ct).any fun y => x.1 != y.1 && x.2.isPrefixOf y.2

/-- HDEC's writes before its parse (R163). -/
def hdecStart (s : State) : State :=
  clearTable { s with ctOk := false, hdrOk := false, outLen := 0#32 }

/-- HDEC's results after a parse of `total` codes that ended at offset p (R163, R168). -/
def hdecResults (padByte : Byte) (total p : Nat) (s : State) : State :=
  { s with
    payOff := BitVec.ofNat 32 p, pad := padByte.setWidth 3, numCodes := BitVec.ofNat 9 total
    maxLen := BitVec.ofNat 4 (maxValidLen s.ct), ctOk := true, hdrOk := true }

/-- HDEC's parse of a container of n bytes (R163, subcodes of R165). -/
def hdecParse (n : Nat) (s : State) : Exit Unit :=
  if n < 2 then headerFail 1 n s
  else
    (memRead 0 s).bind fun padByte s =>
      if padByte.toNat > 7 then headerFail 2 0 s
      else
        (memRead 1 s).bind fun tb s =>
          (hdecGroups n (decodeCount tb) (decodeCount tb) 2 s).bind fun p s =>
            if prefixClash s.ct then headerFail 8 p s
            else .ok () (hdecResults padByte (decodeCount tb) p s)

/-- The body of HDEC after the length check (R163); an empty container is EMPTY_INPUT (R169). -/
def hdecBody (s : State) : Exit Unit :=
  if s.inLen.toNat = 0 then .raise .emptyInput 0#32 (hdecStart s)
  else hdecParse s.inLen.toNat (hdecStart s)

/-- HDEC (R163). -/
def execHdec (s : State) : Host.Outcome State Fault Refusal :=
  let s₁ := consumeHenc s
  finish (checkLength s₁ (hdecBody s₁))

end Sys2Proof.Machine
end

