-- ==== Sys2Proof/Machine/Packer.lean ====
section
/-!
DEFINITION. The bit packer: PACK (44_bit_packer R190 to R195), its barrel-shifter form (R191), and the
functions Pack and Unpack (R196, R197).
-/

namespace Sys2Proof.Machine

/-! ### PACK -/

/-- The transient datapath of PACK (R190): the next output offset, the shift register with the number
of bits in it, and the bit position. -/
structure Shifter where
  q : Nat
  acc : Byte
  k : Nat
  t : Nat
  deriving DecidableEq, Repr

/-- One code bit into the shift register; a full byte goes out (R190). -/
def packBit (b : Bool) (x : Shifter) (s : State) : Exit Shifter :=
  let acc := (x.acc <<< 1) ||| (BitVec.ofBool b).setWidth 8
  if x.k + 1 = 8 then
    (emitOut x.q acc s).bind fun _ s => .ok ⟨x.q + 1, 0#8, 0, x.t + 1⟩ s
  else .ok ⟨x.q, acc, x.k + 1, x.t + 1⟩ s

/-- The bits of one code, first bit first (R190). -/
def packCode : List Bool → Shifter → State → Exit Shifter
  | [], x, s => .ok x s
  | b :: c, x, s => (packBit b x s).bind fun x s => packCode c x s

/-- The input bytes from offset i, `n` of them still to encode (R190, R194). -/
def packLoop : Nat → Nat → Shifter → State → Exit Shifter
  | 0, _, x, s => .ok x s
  | n + 1, i, x, s =>
    (memRead i s).bind fun sym s =>
      if (ctAt s.ct sym).valid then
        (packCode (ctAt s.ct sym).bits x s).bind fun x s => packLoop n (i + 1) x s
      else .raise .symbolNotInTable (BitVec.ofNat 32 i) { s with outLen := 0#32 }

/-- The zero bits that fill the last byte (R192). -/
def padCount (k : Nat) : Nat := if k > 0 then 8 - k else 0

/-- The final partial byte (R192); the value is the container's end. -/
def packFlush (x : Shifter) (s : State) : Exit Nat :=
  if x.k > 0 then
    (emitOut x.q (x.acc <<< padCount x.k) s).bind fun _ s => .ok (x.q + 1) s
  else .ok x.q s

/-- PACK after its checks (R190). Byte 0 is written last (R193). -/
def packBody (s : State) : Exit Unit :=
  (packLoop s.inLen.toNat 0 ⟨s.outLen.toNat, 0#8, 0, 0⟩ s).bind fun x s =>
    (packFlush x s).bind fun q s =>
      .ok ()
        { s with
          obuf := s.obuf.write 0 (BitVec.ofNat 8 (padCount x.k))
          outLen := BitVec.ofNat 32 q, pad := BitVec.ofNat 3 (padCount x.k)
          totalBits := BitVec.ofNat 32 x.t }

/-- PACK (R190). It requires `henc_prev`, the HENC_OK that its own start consumed (R104). -/
def execPack (s : State) : Host.Outcome State Fault Refusal :=
  let s₁ := consumeHenc s
  finish (requireFlag s.hencOk .pack s₁ (checkLength s₁ (packBody s₁)))

/-! ### The barrel-shifter form -/

/-- A whole code of `len` bits and value `v` in one step (R191): at most one byte goes out. -/
def packCodeBarrel (len v : Nat) (x : Shifter) (s : State) : Exit Shifter :=
  let w := x.acc.toNat * 2 ^ len + v
  let k := x.k + len
  if k ≥ 8 then
    (emitOut x.q (BitVec.ofNat 8 (w / 2 ^ (k - 8))) s).bind fun _ s =>
      .ok ⟨x.q + 1, BitVec.ofNat 8 (w % 2 ^ (k - 8)), k - 8, x.t + len⟩ s
  else .ok ⟨x.q, BitVec.ofNat 8 (w % 2 ^ k), k, x.t + len⟩ s

/-! ### Pack and Unpack as functions -/

/-- The bytes of a bit string whose length is a multiple of 8, most significant bit first (R196). -/
def bytesOf : List Bool → List Byte
  | b₀ :: b₁ :: b₂ :: b₃ :: b₄ :: b₅ :: b₆ :: b₇ :: rest =>
    BitVec.ofNat 8 (bitsVal [b₀, b₁, b₂, b₃, b₄, b₅, b₆, b₇]) :: bytesOf rest
  | _ => []

/-- The padding count of a bit string of length t (R192, R196). -/
def padOf (t : Nat) : Nat := (8 - t % 8) % 8

/-- `Pack(b)` (R196). -/
def packBits (b : List Bool) : List Byte × Nat :=
  (bytesOf (b ++ List.replicate (padOf b.length) false), padOf b.length)

/-- `Unpack(y, pad)` (R197), defined only when the bytes hold at least `pad` bits. -/
def unpackBits (y : List Byte) (pad : Nat) : Option (List Bool) :=
  if pad ≤ 8 * y.length then some ((y.flatMap byteBits).take (8 * y.length - pad)) else none

/-- The concatenated codes of a list of symbols (R91, R196). -/
def codesOf (ct : Vector CtEntry 256) (syms : List Byte) : List Bool :=
  syms.flatMap fun sym => (ctAt ct sym).bits

end Sys2Proof.Machine
end

