-- ==== Sys2Proof/Machine/Decoder.lean ====
section
/-!
DEFINITION. The decoding FSM: DECODE (45_decoder R210 to R216), and its tree-walker form (R217).
-/

namespace Sys2Proof.Machine

/-! ### DECODE -/

/-- The symbol whose code is the candidate (R213). HDEC leaves a prefix-free table, so there is at most
one; in a state that no run reaches, the least (entry 13). -/
def matchCode (codes : List (Byte × List Bool)) (cand : List Bool) : Option Byte :=
  (codes.find? fun x => x.2 == cand).map (·.1)

/-- The candidate is a prefix of some VALID code (R214). -/
def canExtend (codes : List (Byte × List Bool)) (cand : List Bool) : Bool :=
  codes.any fun x => cand.isPrefixOf x.2

/-- The bit loop (R210): `n` bits still to read, k the index of the next one, q the next output offset,
cand the candidate. The value is the final q and candidate. -/
def decodeLoop (codes : List (Byte × List Bool)) :
    Nat → Nat → Nat → List Bool → State → Exit (Nat × List Bool)
  | 0, _, q, cand, s => .ok (q, cand) s
  | n + 1, k, q, cand, s =>
    (memRead (s.payOff.toNat + k / 8) s).bind fun y s =>
      let cand := cand ++ [y.getMsbD (k % 8)]
      match matchCode codes cand with
      | some sym => (emitOut q sym s).bind fun _ s => decodeLoop codes n (k + 1) (q + 1) [] s
      | none =>
        if canExtend codes cand then decodeLoop codes n (k + 1) q cand s
        else .raise .truncatedPayload (BitVec.ofNat 32 k) { s with outLen := 0#32 }

/-- The bits there are and the bits there must at least be: the payload bit count
`8 * (IN_LEN - PAY_OFF) - PAD` is their difference, negative when the first is the lesser (R211). -/
def payloadHave (s : State) : Nat := 8 * s.inLen.toNat

/-- See `payloadHave`. -/
def payloadNeed (s : State) : Nat := 8 * s.payOff.toNat + s.pad.toNat

/-- DECODE after its checks (R210, R211, R215). -/
def decodeBody (s : State) : Exit Unit :=
  if payloadHave s < payloadNeed s then
    .raise .truncatedPayload 0xFFFFFFFF#32 { s with outLen := 0#32 }
  else
    (decodeLoop (validCodes s.ct) (payloadHave s - payloadNeed s) 0 0 [] s).bind fun r s =>
      if r.2 = [] then .ok () { s with outLen := BitVec.ofNat 32 r.1 }
      else
        .raise .truncatedPayload (BitVec.ofNat 32 (payloadHave s - payloadNeed s))
          { s with outLen := 0#32 }

/-- DECODE (R210). -/
def execDecode (s : State) : Host.Outcome State Fault Refusal :=
  let s₁ := consumeHenc s
  finish (requireFlag s₁.hdrOk .decode s₁ (checkLength s₁ (decodeBody s₁)))

/-! ### Matching as a function on bit strings -/

/-- How a bit string decodes: the symbols, with the reason it stopped. -/
inductive Decoded where
  /-- Every bit belongs to a code. -/
  | all (syms : List Byte)
  /-- The bit of this index made the candidate unmatchable (R214). -/
  | stuckAt (syms : List Byte) (k : Nat)
  /-- Bits are left over at the end (R215). -/
  | leftover (syms : List Byte)
  deriving DecidableEq, Repr

/-- A symbol put before the rest of a result. -/
def Decoded.cons (sym : Byte) : Decoded → Decoded
  | .all syms => .all (sym :: syms)
  | .stuckAt syms k => .stuckAt (sym :: syms) k
  | .leftover syms => .leftover (sym :: syms)

/-- The symbols emitted. -/
def Decoded.syms : Decoded → List Byte
  | .all syms => syms
  | .stuckAt syms _ => syms
  | .leftover syms => syms

/-- Candidate matching over a bit string (R213 to R215), k the index of its first bit. -/
def matchBits (codes : List (Byte × List Bool)) : Nat → List Bool → List Bool → Decoded
  | _, cand, [] => if cand = [] then .all [] else .leftover []
  | k, cand, b :: bits =>
    match matchCode codes (cand ++ [b]) with
    | some sym => (matchBits codes (k + 1) [] bits).cons sym
    | none =>
      if canExtend codes (cand ++ [b]) then matchBits codes (k + 1) (cand ++ [b]) bits
      else .stuckAt [] k

/-! ### The tree-walker form -/

/-- The binary trie of R217. -/
inductive Trie where
  | missing
  | leaf (sym : Byte)
  | branch (zero one : Trie)
  deriving DecidableEq, Repr

/-- The trie with one more code. A code that runs into a leaf changes nothing; in a prefix-free table
none does. -/
def Trie.insert (sym : Byte) : List Bool → Trie → Trie
  | _, .leaf x => .leaf x
  | [], .missing => .leaf sym
  | [], .branch z o => .branch z o
  | false :: c, .missing => .branch (Trie.insert sym c .missing) .missing
  | true :: c, .missing => .branch .missing (Trie.insert sym c .missing)
  | false :: c, .branch z o => .branch (Trie.insert sym c z) o
  | true :: c, .branch z o => .branch z (Trie.insert sym c o)

/-- The trie of a code table (R217: rebuilt from CT by each DECODE). -/
def trieOf (codes : List (Byte × List Bool)) : Trie :=
  codes.foldr (fun x t => Trie.insert x.1 x.2 t) .missing

/-- The child that a bit selects. -/
def Trie.child : Trie → Bool → Trie
  | .branch z o, b => if b then o else z
  | .leaf _, _ => .missing
  | .missing, _ => .missing

/-- The walk (R217): `root` is where a leaf returns to, `atRoot` says that `here` is the root. -/
def walkBits (root : Trie) : Nat → Bool → Trie → List Bool → Decoded
  | _, atRoot, _, [] => if atRoot then .all [] else .leftover []
  | k, _, here, b :: bits =>
    match here.child b with
    | .missing => .stuckAt [] k
    | .leaf sym => (walkBits root (k + 1) true root bits).cons sym
    | .branch z o => walkBits root (k + 1) false (.branch z o) bits

end Sys2Proof.Machine
end

