-- ==== Sys2Proof/Machine/Dispatch.lean ====
section
/-!
DEFINITION. One arm per command.
-/

namespace Sys2Proof.Machine

/-- `Complete(w)` of a legal word, after the legality check (40_control R105). -/
def exec (i : Instr) (s : State) : Host.Outcome State Fault Refusal :=
  match i with
  | .nop => Sys2Proof.Machine.execNop s
  | .build => Sys2Proof.Machine.execBuild s
  | .extract => Sys2Proof.Machine.execExtract s
  | .henc => Sys2Proof.Machine.execHenc s
  | .pack => Sys2Proof.Machine.execPack s
  | .hdec => Sys2Proof.Machine.execHdec s
  | .decode => Sys2Proof.Machine.execDecode s
  | .clear => Sys2Proof.Machine.execClear s

end Sys2Proof.Machine
end

