-- ==== Sys2Proof/Machine/Step.lean ====
section
/-!
DEFINITION. The step: what is next on the agenda, or the engine when the host is silent (00_scope R11,
40_control R100; entry 1).
-/

namespace Sys2Proof.Machine

/-- The engine's step. It is enabled exactly when a command is pending (R100); with none the block is
idle and keeps all its state (60_exceptions R248). -/
def engineStep (s : State) : Host.Outcome State Fault Refusal :=
  match s.pending with
  | none => .next s
  | some w =>
    match decode w with
    | .ok i => exec i s
    | .error _ => illegalCommand w s

/-- What one entry of the agenda does. -/
def applyEvent (e : Event) (s : State) : Host.Outcome State Fault Refusal :=
  match e with
  | .engine => engineStep s
  | .host op => hostAccess op s
  | .reset => .next (resetBlock s)

/-- One step of the machine. -/
def step (s : State) : Host.Outcome State Fault Refusal :=
  match s.agenda with
  | [] => engineStep s
  | e :: rest => applyEvent e { s with agenda := rest }

/-- The state with a command word accepted and the engine to move next, so that the next step runs it
(entry 2). -/
def State.withFetchWord (s : State) (nbits w : Nat) : State :=
  { s with pending := some (tableWord nbits w), agenda := .engine :: s.agenda }

end Sys2Proof.Machine
end

