-- ==== Sys2Proof/Machine/HostProgram.lean ====
section
/-!
DEFINITION. The host's notation as agenda entries: the operations of 30_encoding R83 and the
pseudo-operations of R84. None is a hardware command. EXPECT is a test assertion and has no entry.
-/

namespace Sys2Proof.Machine

/-- `WR <reg>, <v32>` at a REG offset (R83). -/
def wr (addr : RegAddr) (v : Word) : Event := .host (.regWrite addr 32 v)

/-- `RD <reg>` at a REG offset (R83). -/
def rd (addr : RegAddr) : Event := .host (.regRead addr 32)

/-- `WRB IBUF[<a>], <v8>` (R83). -/
def wrb (a : Nat) (v : Byte) : Event := .host (.ibufWrite a v)

/-- `RDB OBUF[<a>]` (R83). -/
def rdb (a : Nat) : Event := .host (.obufRead a)

/-- `CMD <MNEMONIC>`: the command word to offset 0x0004 (R83). -/
def cmd (i : Instr) : Event := wr 0x0004#13 (encode i)

/-- `WAIT` (R83): STATUS read until BUSY = 0. In the transaction model it ends after the engine's one
completion step (95_test_vectors section 9). -/
def waitDone : List Event := [.engine, rd 0x0008#13]

/-- The offset of FREQ[sym] (30_encoding R71). -/
def freqAddr (sym : Byte) : RegAddr := BitVec.ofNat 13 (0x400 + 4 * sym.toNat)

/-- `WRB IBUF[a], b` for a list of bytes from offset a. -/
def wrbAll : Nat → List Byte → List Event
  | _, [] => []
  | a, b :: bs => wrb a b :: wrbAll (a + 1) bs

/-- `LOADIN` (R84). -/
def loadIn (bytes : List Byte) : List Event :=
  wrbAll 0 bytes ++ [wr 0x0010#13 (BitVec.ofNat 32 bytes.length)]

/-- `SETFREQ` (R84): the count of every symbol, the zero counts included. -/
def setFreq (bytes : List Byte) : List Event :=
  symbols.map fun sym => wr (freqAddr sym) (BitVec.ofNat 32 (bytes.count sym))

/-- A list of entries one after another, up to the first that stops the machine. -/
def play : List Event → State → Host.Outcome State Fault Refusal
  | [], s => .next s
  | e :: es, s =>
    match applyEvent e s with
    | .next t => play es t
    | .fault f => .fault f
    | .refused r => .refused r

/-- `CMD <op>`, `WAIT` for each command of a list in order, stopping after one that leaves
STATUS.ERR = 1 (R84). -/
def playCommands : List Instr → State → Host.Outcome State Fault Refusal
  | [], s => .next s
  | i :: is, s =>
    match play (cmd i :: waitDone) s with
    | .next t => if t.err then .next t else playCommands is t
    | .fault f => .fault f
    | .refused r => .refused r

/-- `COMPRESS` of the bytes that LOADIN put into IBUF (R84). -/
def compress (bytes : List Byte) (s : State) : Host.Outcome State Fault Refusal :=
  match play (setFreq bytes) s with
  | .next t => playCommands [.build, .extract, .henc, .pack] t
  | .fault f => .fault f
  | .refused r => .refused r

/-- `DECOMPRESS` of the container in IBUF (R84). -/
def decompress (s : State) : Host.Outcome State Fault Refusal := playCommands [.hdec, .decode] s

end Sys2Proof.Machine
end

