-- ==== Sys2Proof/Safety.lean ====
section
/-!
DEFINITION. What counts as a safe run, and the terms the statements are written in: which host accesses
keep the protocol, the invariants of the state, and the spec's own notions (tree, header, payload) said
apart from the functions that compute them.
-/

namespace Sys2Proof.Machine

/-! ### Safe runs -/

/-- The outcome is a next state. -/
def isNext : Host.Outcome State Fault Refusal → Bool
  | .next _ => true
  | .fault _ => false
  | .refused _ => false

/-- The first `n` steps all answer a next state. -/
def safeFor : Nat → State → Bool
  | 0, _ => true
  | n + 1, s =>
    match step s with
    | .next t => safeFor n t
    | .fault _ => false
    | .refused _ => false

/-- The REG offsets of the inputs that the host may not write while BUSY: IN_LEN and the FREQ window
(70 R270, 30_encoding R71). -/
def isInputAddr (addr : RegAddr) : Bool :=
  addr.toNat == 0x10 || (decide (0x400 ≤ addr.toNat) && decide (addr.toNat < 0x800))

/-- The access is within the host protocol: an aligned 32-bit REG access or an offset below BUF_BYTES
(20_memory R51, R54, R56), and no write of FREQ, IN_LEN or IBUF while BUSY (70 R270). -/
def conforms (op : HostOp) (s : State) : Bool :=
  match op with
  | .regRead addr width => width == 32 && addr.toNat % 4 == 0
  | .regWrite addr width _ =>
    width == 32 && addr.toNat % 4 == 0 && (s.pending.isNone || !isInputAddr addr)
  | .ibufRead a => decide (a < s.bufSize.toNat)
  | .ibufWrite a _ => decide (a < s.bufSize.toNat) && s.pending.isNone
  | .obufRead a => decide (a < s.bufSize.toNat)
  | .obufWrite a _ => decide (a < s.bufSize.toNat)

/-- It is the engine's turn: the agenda says so, or the host is silent. `rest` is what stays on the
agenda (40_control R100; entry 1). -/
def engineTurn (s : State) (rest : List Event) : Prop :=
  (s.agenda = [] ∧ rest = []) ∨ s.agenda = .engine :: rest

/-! ### Error codes -/

/-- The error codes and their numbers, as the table of 60_exceptions R230 lists them. -/
def errCodeTable : List (ErrCode × Nat) :=
  [(.none, 0), (.unsupportedCodeLength, 1), (.malformedHeader, 2), (.truncatedPayload, 3),
    (.emptyInput, 4), (.illegalCommand, 5), (.sequenceError, 6), (.symbolNotInTable, 7),
    (.outputOverflow, 8), (.weightOverflow, 9), (.badLength, 10)]

/-! ### Invariants -/

/-- BUF_BYTES is a legal value of the parameter (00_scope R7). -/
abbrev State.bufSizeOk (s : State) : Prop :=
  Config.minBufBytes ≤ s.bufSize.toNat ∧ s.bufSize.toNat ≤ Config.maxBufBytes

/-- Both buffers are in canonical form and lie below BUF_BYTES (20_memory R50, R55). -/
abbrev State.buffersInv (s : State) : Prop :=
  s.bufSizeOk ∧ s.ibuf.wf ∧ s.obuf.wf ∧
    (∀ c ∈ s.ibuf, c.1 < s.bufSize.toNat) ∧ ∀ c ∈ s.obuf, c.1 < s.bufSize.toNat

/-- OUT_LEN never passes BUF_BYTES, and every byte below it has been written (10_state R26, R34). -/
abbrev State.outputInv (s : State) : Prop :=
  s.outLen.toNat ≤ s.bufSize.toNat ∧ ∀ a, a < s.outLen.toNat → s.obuf.read a ≠ none

/-- ERR, ERRCODE and ERR_INFO agree, and all three are clear, with DONE, while a command is pending
(10_state R23, R24, 70 R270). -/
abbrev State.statusInv (s : State) : Prop :=
  (s.err = false ↔ s.errCode = .none) ∧ (s.err = false → s.errInfo = 0#32) ∧
    (s.pending.isSome = true → s.done = false ∧ s.err = false)

/-- A CT entry as R31 has it: VALID with a length of 1 to 8 and the low bits of CODE zero, or all
zero. -/
abbrev CtEntry.canonical (e : CtEntry) : Prop :=
  (e.valid = true ∧ 1 ≤ e.len.toNat ∧ e.len.toNat ≤ 8 ∧
      ∀ j, j < 8 → e.len.toNat ≤ j → e.code.getMsbD j = false) ∨
    (e.valid = false ∧ e.len = 0#4 ∧ e.code = 0#8)

/-- Every CT entry is canonical, and NUM_CODES and MAX_LEN summarize them (10_state R29, R31). -/
abbrev State.tableInv (s : State) : Prop :=
  (∀ e ∈ s.ct.toList, e.canonical) ∧
    s.numCodes.toNat = (s.ct.toList.filter (·.valid)).length ∧
    (∀ e ∈ s.ct.toList, e.valid = true → e.len.toNat ≤ s.maxLen.toNat) ∧
    (s.maxLen.toNat = 0 ∨ ∃ e ∈ s.ct.toList, e.valid = true ∧ e.len.toNat = s.maxLen.toNat)

/-- No VALID code is a prefix of the code of another symbol (00_scope R9, 43_header_codec R167). -/
abbrev prefixFree (ct : Vector CtEntry 256) : Prop :=
  ∀ x ∈ validCodes ct, ∀ y ∈ validCodes ct, x.1 ≠ y.1 → x.2.isPrefixOf y.2 = false

/-- With CT_OK, CT is prefix-free and has a code (10_state R23, R31, 42_code_table R145). -/
abbrev State.codesInv (s : State) : Prop :=
  s.ctOk = true → prefixFree s.ct ∧ 1 ≤ s.numCodes.toNat

/-- Node i is a leaf, or both its children lie below it (10_state R32). -/
def nodeBelow (node : Vector Node 511) (i : Nat) : Bool :=
  match nodeAt node i with
  | .leaf _ _ => true
  | .internal _ left right => decide (left.toNat < i) && decide (right.toNat < i)

/-- TREE_OK says that NODE holds a store a walk can end on: NUM_NODES is then 1 to 511, and 0 otherwise,
and children lie below their parents (10_state R23, R29, R32). -/
abbrev State.descendInv (s : State) : Prop :=
  (s.treeOk = true ↔ s.numNodes.toNat ≠ 0) ∧ s.numNodes.toNat ≤ 511 ∧
    ∀ i, i < s.numNodes.toNat → nodeBelow s.node i = true

/-- j is a child of the internal node i. -/
def isChild (node : Vector Node 511) (i j : Nat) : Bool :=
  match nodeAt node i with
  | .leaf _ _ => false
  | .internal _ left right => left.toNat == j || right.toNat == j

/-- The two sides of node i, if it has any, are two nodes. -/
def sidesDiffer (node : Vector Node 511) (i : Nat) : Bool :=
  match nodeAt node i with
  | .leaf _ _ => true
  | .internal _ left right => left != right

/-- The nodes below `n` that have j as a child. -/
def parentsOf (node : Vector Node 511) (n j : Nat) : List Nat :=
  (List.range n).filter fun i => isChild node i j

/-- TREE_OK says that NODE holds a tree: moreover each parent exclusively owns its children, and every
index below NUM_NODES-1 is the child of exactly one internal node (R32). The root, at NUM_NODES-1, is
then nobody's child, because children lie below their parents. -/
abbrev State.treeInv (s : State) : Prop :=
  s.descendInv ∧ (∀ i, i < s.numNodes.toNat → sidesDiffer s.node i = true) ∧
    ∀ j, j < s.numNodes.toNat - 1 → (parentsOf s.node s.numNodes.toNat j).length = 1

/-- The sequencing flags agree with each other: HENC_OK and HDR_OK only with CT_OK (40_control R109),
and after a HENC there is a header in OBUF. -/
abbrev State.flagsInv (s : State) : Prop :=
  (s.hencOk = true → s.ctOk = true ∧ 2 ≤ s.outLen.toNat) ∧ (s.hdrOk = true → s.ctOk = true)

/-! ### Memory contents -/

/-- The memory holds these bytes from an offset on. -/
abbrev holds (m : Memory) (off : Nat) (bytes : List Byte) : Prop :=
  ∀ i, i < bytes.length → m.read (off + i) = bytes[i]?

/-- Every byte outside `lo` to below `hi` reads as before. -/
def sameOutside (m m' : Memory) (lo hi : Nat) : Prop :=
  ∀ a, a < lo ∨ hi ≤ a → m'.read a = m.read a

/-! ### The tree, said apart from its builder and its walk -/

/-- The symbols present in FREQ, ascending (41_tree_builder R121). -/
def presentSymbols (freq : Vector FreqEntry 256) : List Byte :=
  symbols.filter fun sym => (freqAt freq sym).count != 0#32

/-- The sum of all FREQ entries (R124). -/
def totalWeight (freq : Vector FreqEntry 256) : Nat := (freq.toList.map (·.count.toNat)).sum

/-- Every FREQ entry has been written since reset (70 R264). -/
abbrev allWritten (freq : Vector FreqEntry 256) : Prop := ∀ f ∈ freq.toList, f.written = true

/-- The weight of node i (R32). -/
def weightAt (node : Vector Node 511) (i : Nat) : Nat := (nodeAt node i).weight.toNat

/-- The key order of the merge: by weight, then by index (R122). -/
def keyLt (node : Vector Node 511) (i j : Nat) : Prop :=
  weightAt node i < weightAt node j ∨ (weightAt node i = weightAt node j ∧ i < j)

/-- j is in the queue when node i is made: it exists, and no earlier node has taken it as a child. -/
def inQueue (node : Vector Node 511) (i j : Nat) : Prop :=
  j < i ∧ ∀ k, k < i → isChild node k j = false

/-- When node i is made, l and r are the two least of the queue, in this order (R122). -/
def twoLeast (node : Vector Node 511) (i l r : Nat) : Prop :=
  inQueue node i l ∧ inQueue node i r ∧ keyLt node l r ∧
    ∀ j, inQueue node i j → j ≠ l → j ≠ r → keyLt node r j

/-- The store begins with the leaves of the present symbols, in ascending order (R121). -/
def startsWithLeaves (freq : Vector FreqEntry 256) (node : Vector Node 511) : Prop :=
  ∀ k, k < (presentSymbols freq).length →
    ∃ sym, (presentSymbols freq)[k]? = some sym ∧ nodeAt node k = .leaf (freqAt freq sym).count sym

/-- The leaves below node i with their paths, in pre-order, left first (42_code_table R141). -/
def leafPathsFrom (node : Vector Node 511) : Nat → Nat → List Bool → List (List Bool × Byte)
  | 0, _, _ => []
  | fuel + 1, i, c =>
    match nodeAt node i with
    | .leaf _ sym => [(c, sym)]
    | .internal _ left right =>
      leafPathsFrom node fuel left.toNat (c ++ [false]) ++
        leafPathsFrom node fuel right.toNat (c ++ [true])

/-- The root index (10_state R29). -/
def State.root (s : State) : Nat := s.numNodes.toNat - 1

/-- The leaves of the tree with their paths from the root. -/
def State.leafPaths (s : State) : List (List Bool × Byte) := leafPathsFrom s.node 511 s.root []

/-- The sum of 2^(8 - LEN) over the VALID entries, which is 256 times the sum of 2^(-LEN)
(42_code_table R146). -/
def kraftSum (ct : Vector CtEntry 256) : Nat :=
  ((ct.toList.filter (·.valid)).map fun e => 2 ^ (8 - e.len.toNat)).sum

/-! ### The header, said apart from its encoder and its parser -/

/-- The symbols with a code of this length, ascending (43_header_codec R160). -/
def symbolsOfLen (ct : Vector CtEntry 256) (len : Nat) : List Byte :=
  symbols.filter fun sym => (ctAt ct sym).valid && (ctAt ct sym).len.toNat == len

/-- One group of the header as 30_encoding R88 to R90 lay it out, nothing for an absent length. -/
def groupSpec (ct : Vector CtEntry 256) (len : Nat) : List Byte :=
  match symbolsOfLen ct len with
  | [] => []
  | sym :: syms =>
    BitVec.ofNat 8 (syms.length + 1) :: BitVec.ofNat 8 len ::
      (sym :: syms).flatMap fun x => [x, (ctAt ct x).code]

/-- The header from offset 1: NUM_CODES modulo 256, then the groups by ascending length (R85, R87). -/
def headerSpec (s : State) : List Byte :=
  BitVec.ofNat 8 s.numCodes.toNat ::
    (groupSpec s.ct 1 ++ groupSpec s.ct 2 ++ groupSpec s.ct 3 ++ groupSpec s.ct 4 ++
      groupSpec s.ct 5 ++ groupSpec s.ct 6 ++ groupSpec s.ct 7 ++ groupSpec s.ct 8)

/-- `2 + sum over groups of (2 + 2 x count)` (30_encoding R92). -/
def headerSize (ct : Vector CtEntry 256) : Nat :=
  2 + (([1, 2, 3, 4, 5, 6, 7, 8].map fun len => (symbolsOfLen ct len).length).filter (0 < ·)
    |>.map fun count => 2 + 2 * count).sum

/-- A group of a header as a container may hold it: a length, and pairs of symbol and packed byte. -/
structure Group where
  len : Nat
  pairs : List (Byte × Byte)
  deriving DecidableEq, Repr

/-- The bytes of a pair list (30_encoding R89). -/
def pairsBytes (pairs : List (Byte × Byte)) : List Byte := pairs.flatMap fun x => [x.1, x.2]

/-- The bytes of one group (R88). -/
def Group.bytes (g : Group) : List Byte :=
  BitVec.ofNat 8 g.pairs.length :: BitVec.ofNat 8 g.len :: pairsBytes g.pairs

/-- The bytes of groups one after another. -/
def groupsBytes (gs : List Group) : List Byte := gs.flatMap Group.bytes

/-- The codes that groups bring, each symbol with its CT entry: the top `len` bits of the packed byte
(43_header_codec R166). -/
def Group.entries (g : Group) : List (Byte × CtEntry) :=
  g.pairs.map fun x =>
    (x.1, ⟨true, BitVec.ofNat 4 g.len, (x.2.ushiftRight (8 - g.len)).shiftLeft (8 - g.len)⟩)

/-- The codes of all groups. -/
def groupsEntries (gs : List Group) : List (Byte × CtEntry) := gs.flatMap Group.entries

/-- Each group has a length of 1 to 8 and 1 to 256 codes, and no symbol stands twice. -/
abbrev groupsOk (gs : List Group) : Prop :=
  (∀ g ∈ gs, 1 ≤ g.len ∧ g.len ≤ 8 ∧ 1 ≤ g.pairs.length ∧ g.pairs.length ≤ 256) ∧
    ((groupsEntries gs).map (·.1)).Nodup

/-- No code of the list is a prefix of the code of another symbol (R167). -/
abbrev entriesPrefixFree (es : List (Byte × CtEntry)) : Prop :=
  ∀ x ∈ es, ∀ y ∈ es, x.1 ≠ y.1 → x.2.bits.isPrefixOf y.2.bits = false

/-- The state after HDEC failed with a MALFORMED_HEADER subcode at an offset (43_header_codec R163,
60_exceptions R231, R233). -/
def headerFailed (sub off : Nat) (s : State) : State :=
  { s with
    pending := none, done := true, err := true, errCode := .malformedHeader
    errInfo := BitVec.ofNat 32 (sub + 256 * off)
    hencOk := false, ctOk := false, hdrOk := false, outLen := 0#32
    ct := Vector.replicate 256 ⟨false, 0#4, 0#8⟩, numCodes := 0#9, maxLen := 0#4
    draws := s.draws + 1 }

/-! ### The payload -/

/-- The number of bytes that t bits take (30_encoding R91). -/
def bytesFor (t : Nat) : Nat := (t + 7) / 8

/-- The payload bits of IBUF (45_decoder R212): bit k is bit 7 - (k mod 8) of byte PAY_OFF + k div 8. -/
def payloadBits (bytes : List Byte) (nbits : Nat) : List Bool := (bytes.flatMap byteBits).take nbits

end Sys2Proof.Machine
end

