-- ==== Sys2Proof/Certificates/Slice0/Obligations.lean ====
section
/-!
DEFINITION. The statements for the provers. Each docstring names the rule of spec/ it formalises.
Two kinds of clause are the model's own, not the spec's: one on the field `draws`, the counter of the
free values, which moves on at every completion (entry 8), and one on the field `agenda`, which holds the
host's accesses and the schedule (entry 1). No statement rests on the value of a free value.
-/

open Sys2Proof Sys2Proof.Machine

/-! ### Encoding -/

/-- 30_encoding R78, R79: the eight command words, written out, and every reserved opcode. -/
def Obligations.CommandWordsDecode : Prop :=
  decode 0x00000000#32 = .ok .nop ∧ decode 0x00000001#32 = .ok .build ∧
  decode 0x00000002#32 = .ok .extract ∧ decode 0x00000003#32 = .ok .henc ∧
  decode 0x00000004#32 = .ok .pack ∧ decode 0x00000005#32 = .ok .hdec ∧
  decode 0x00000006#32 = .ok .decode ∧ decode 0x00000007#32 = .ok .clear ∧
  decode 0x00000008#32 = .error .reservedOpcode ∧ decode 0x0000000F#32 = .error .reservedOpcode ∧
  decode 0x00000010#32 = .error .reservedBits ∧ decode 0x80000004#32 = .error .reservedBits

/-- 30_encoding R70: a word stands for a command exactly when it is that command's one encoding; so
decode of encode is the identity, and no bit of a word is dropped. -/
def Obligations.DecodeIsInverseOfEncode : Prop :=
  ∀ (w : Word) (i : Instr), decode w = .ok i ↔ w = encode i

/-! ### Reset, and the two agents -/

/-- 10_state R42: every piece of state right after reset, the unspecified arrays as unspecified. -/
def Obligations.ResetMatchesTheTable : Prop :=
  let s := State.reset
  regValue s .id = some 0x48554643#32 ∧ s.statusWord = 0#32 ∧
  s.errInfo = 0#32 ∧ s.inLen = 0#32 ∧ s.outLen = 0#32 ∧ s.payOff = 0#32 ∧ s.pad = 0#3 ∧
  s.totalBits = 0#32 ∧ s.numCodes = 0#9 ∧ s.maxLen = 0#4 ∧ s.numNodes = 0#9 ∧
  s.irqEn = false ∧ regValue s .bufSize = some s.bufSize ∧
  (∀ sym, regValue s (.freq sym) = none) ∧ (∀ sym, ctAt s.ct sym = ⟨false, 0#4, 0#8⟩) ∧
  (∀ i, regValue s (.node0 i) = none ∧ regValue s (.node1 i) = none) ∧
  (∀ a, s.ibuf.read a = none ∧ s.obuf.read a = none) ∧ s.pending = none ∧ s.irq = false

/-- All the invariants hold right after reset. -/
def Obligations.ResetSatisfiesInvariants : Prop :=
  let s := State.reset
  s.buffersInv ∧ s.outputInv ∧ s.statusInv ∧ s.tableInv ∧ s.codesInv ∧ s.treeInv ∧ s.flagsInv

/-- 40_control R100: the engine moves when it is its turn, that is, when the agenda says so or the host
is silent. When the pending word is a command, the step is that command's meaning; with nothing pending
the engine has no step, and the idle block keeps all its state (60_exceptions R248). -/
def Obligations.StepRunsThePendingCommand : Prop :=
  ∀ (s : State) (rest : List Event),
    (∀ w i, s.pending = some w → decode w = .ok i →
      (s.agenda = [] → step s = exec i s) ∧
      (s.agenda = .engine :: rest → step s = exec i { s with agenda := rest })) ∧
    (s.pending = none →
      (s.agenda = [] → step s = .next s) ∧
      (s.agenda = .engine :: rest → step s = .next { s with agenda := rest }))

/-- 40_control R103: an illegal word completes with ILLEGAL_COMMAND and changes nothing else, HENC_OK
included, whenever it is the engine's turn. -/
def Obligations.IllegalWordChangesNothingElse : Prop :=
  ∀ (s : State) (w : Word) (rest : List Event), s.pending = some w → engineTurn s rest →
    (w.extractLsb' 4 28 ≠ 0#28 ∨ 8 ≤ (w.extractLsb' 0 4).toNat) →
    step s = .next
      { s with
        agenda := rest
        pending := none, done := true, err := true, errCode := .illegalCommand, errInfo := w
        draws := s.draws + 1 }

/-- 40_control R101, R102: a CMD write is accepted while nothing is pending; while a command is pending
it is dropped and sets OVR. -/
def Obligations.CmdWriteIsAcceptedOrDropped : Prop :=
  ∀ (s : State) (w : Word) (rest : List Event),
    s.agenda = .host (.regWrite 0x0004#13 32 w) :: rest →
    (s.pending = none →
      step s = .next
        { s with
          agenda := rest, pending := some w, done := false, err := false, errCode := .none
          errInfo := 0#32 }) ∧
    (∀ v, s.pending = some v → step s = .next { s with agenda := rest, ovr := true })

/-- 70 R260, R261: the Reset transition, from any state, discards the pending command. What it does to
the model's own fields is entry 19. -/
def Obligations.ResetTransitionClearsTheBlock : Prop :=
  ∀ (s : State) (rest : List Event), s.agenda = .reset :: rest →
    ∃ t, step s = .next t ∧ t.pending = none ∧ t.statusWord = 0#32 ∧ t.errInfo = 0#32 ∧
      t.inLen = 0#32 ∧ t.outLen = 0#32 ∧ t.payOff = 0#32 ∧ t.pad = 0#3 ∧ t.totalBits = 0#32 ∧
      t.numCodes = 0#9 ∧ t.maxLen = 0#4 ∧ t.numNodes = 0#9 ∧ t.irqEn = false ∧ t.irq = false ∧
      t.bufSize = s.bufSize ∧ (∀ sym, ctAt t.ct sym = ⟨false, 0#4, 0#8⟩) ∧
      (∀ sym, regValue t (.freq sym) = none) ∧
      (∀ i, regValue t (.node0 i) = none ∧ regValue t (.node1 i) = none) ∧
      (∀ a, t.ibuf.read a = none ∧ t.obuf.read a = none) ∧ t.agenda = rest

/-- 40_control R106, 60_exceptions R237: every completion, of a legal or an illegal word, leaves the
engine idle with DONE, and ERR, ERRCODE and ERR_INFO agree. irq is IRQ_EN AND DONE in every state. -/
def Obligations.CompletionReportsItsOutcome : Prop :=
  (∀ s : State, s.irq = true ↔ s.irqEn = true ∧ s.done = true) ∧
  ∀ (s t : State) (w : Word) (rest : List Event), s.pending = some w → engineTurn s rest →
    step s = .next t →
    t.pending = none ∧ t.done = true ∧ t.irq = s.irqEn ∧ t.agenda = rest ∧
      ((t.err = false ∧ t.errCode = .none ∧ t.errInfo = 0#32) ∨ (t.err = true ∧ t.errCode ≠ .none))

/-- 40_control R111: the engine's step always answers, but for the inputs nobody wrote: BUILD stops
only on an unwritten FREQ entry, and another command only on an unwritten IBUF byte below IN_LEN. -/
def Obligations.EngineStopsOnlyOnUnwrittenInput : Prop :=
  ∀ (s : State) (w : Word) (rest : List Event), s.descendInv → s.pending = some w →
    engineTurn s rest →
    (∃ t, step s = .next t) ∨
    (w = 0x00000001#32 ∧ ∃ sym, sym < 256 ∧ step s = .fault (.unwrittenFreq sym) ∧
      (freqAt s.freq (BitVec.ofNat 8 sym)).written = false) ∨
    ((w = 0x00000004#32 ∨ w = 0x00000005#32 ∨ w = 0x00000006#32) ∧
      ∃ a, a < s.inLen.toNat ∧ s.ibuf.read a = none ∧ step s = .fault (.unwrittenIbuf a))

/-! ### Control commands, sequencing and checks -/

/-- 40_control R107: NOP completes and changes nothing else; HENC_OK is not cleared. (`d` is the model's
own counter, entry 8.) -/
def Obligations.NopCompletes : Prop :=
  ∀ s : State, ∃ d, exec .nop s = .next
    { s with
      pending := none, done := true, err := false, errCode := .none, errInfo := 0#32, draws := d }

/-- 40_control R108: CLEAR returns the datapath state to its reset values and changes nothing else. (`d`:
entry 8.) -/
def Obligations.ClearCompletes : Prop :=
  ∀ s : State, ∃ d, exec .clear s = .next
    { s with
      treeOk := false, ctOk := false, hencOk := false, hdrOk := false
      ct := Vector.replicate 256 ⟨false, 0#4, 0#8⟩
      outLen := 0#32, payOff := 0#32, pad := 0#3, totalBits := 0#32
      numCodes := 0#9, maxLen := 0#4, numNodes := 0#9
      pending := none, done := true, err := false, errCode := .none, errInfo := 0#32
      draws := d }

/-- 40_control R105 steps 3 and 4, R109, R110: a failed sequencing requirement is SEQUENCE_ERROR with
the OP; then IN_LEN above BUF_BYTES is BAD_LENGTH for PACK, HDEC and DECODE. Neither writes anything but
the HENC_OK clear and the completion. -/
def Obligations.ChecksComeBeforeTheBody : Prop :=
  ∀ (s : State) (i : Instr),
    (∀ op : Word,
      ((i = .extract ∧ op = 2#32 ∧ s.treeOk = false) ∨ (i = .henc ∧ op = 3#32 ∧ s.ctOk = false) ∨
        (i = .pack ∧ op = 4#32 ∧ s.hencOk = false) ∨
        (i = .decode ∧ op = 6#32 ∧ s.hdrOk = false)) →
      exec i s = .next
        { s with
          hencOk := false
          pending := none, done := true, err := true, errCode := .sequenceError, errInfo := op
          draws := s.draws + 1 }) ∧
    (s.bufSize.toNat < s.inLen.toNat →
      ((i = .pack ∧ s.hencOk = true) ∨ i = .hdec ∨ (i = .decode ∧ s.hdrOk = true)) →
      exec i s = .next
        { s with
          hencOk := false
          pending := none, done := true, err := true, errCode := .badLength, errInfo := s.inLen
          draws := s.draws + 1 })

/-- 40_control R104, R109: every legal command but NOP clears HENC_OK, and only a HENC that succeeds sets
it again; TREE_OK, CT_OK and HDR_OK follow the table of R109. -/
def Obligations.SequencingFlagsFollowTheTable : Prop :=
  ∀ (s t : State) (i : Instr), exec i s = .next t →
    (i = .nop → t.hencOk = s.hencOk ∧ t.treeOk = s.treeOk ∧ t.ctOk = s.ctOk ∧ t.hdrOk = s.hdrOk) ∧
    (i ≠ .nop → (t.hencOk = true ↔ i = .henc ∧ t.err = false)) ∧
    (i = .build → t.treeOk = !t.err ∧ t.ctOk = false ∧ t.hdrOk = false) ∧
    (i = .extract → s.treeOk = true → t.treeOk = true ∧ t.ctOk = !t.err ∧ t.hdrOk = false) ∧
    (i = .henc ∨ i = .pack ∨ i = .decode →
      t.treeOk = s.treeOk ∧ t.ctOk = s.ctOk ∧ t.hdrOk = s.hdrOk) ∧
    (i = .hdec → s.inLen.toNat ≤ s.bufSize.toNat →
      t.treeOk = s.treeOk ∧ t.ctOk = !t.err ∧ t.hdrOk = !t.err) ∧
    (i = .clear → t.treeOk = false ∧ t.ctOk = false ∧ t.hdrOk = false)

/-! ### Frames -/

/-- What no command changes, and what the commands that store no byte leave as it was: NOP, BUILD,
EXTRACT, HDEC and CLEAR (20_memory R50, R55; the "Writes" lines of their rules). An HDEC that fails
keeps PAY_OFF and PAD (10_state R27). -/
def Obligations.FrameOfNonStoringCommands : Prop :=
  ∀ (s t : State) (i : Instr),
    (i = .nop ∨ i = .build ∨ i = .extract ∨ i = .hdec ∨ i = .clear) → exec i s = .next t →
    (t.freq = s.freq ∧ t.inLen = s.inLen ∧ t.irqEn = s.irqEn ∧ t.ovr = s.ovr ∧
      t.bufSize = s.bufSize ∧ t.agenda = s.agenda ∧ t.hostRead = s.hostRead) ∧
    (∀ a, t.ibuf.read a = s.ibuf.read a) ∧ (∀ a, t.obuf.read a = s.obuf.read a) ∧
    (i ≠ .build → t.node = s.node) ∧
    (i ≠ .build → i ≠ .clear → t.numNodes = s.numNodes ∧ t.treeOk = s.treeOk) ∧
    (i = .nop ∨ i = .build → t.ct = s.ct ∧ t.numCodes = s.numCodes ∧ t.maxLen = s.maxLen) ∧
    (i ≠ .hdec ∨ t.err = true → i ≠ .clear → t.payOff = s.payOff ∧ t.pad = s.pad) ∧
    (i ≠ .clear → t.totalBits = s.totalBits) ∧
    (i = .nop ∨ i = .extract → t.outLen = s.outLen) ∧
    (i = .nop → t.ctOk = s.ctOk ∧ t.hencOk = s.hencOk ∧ t.hdrOk = s.hdrOk)

/-- What the commands that store bytes leave as it was: HENC, PACK and DECODE. HENC stores to the
header's offsets; PACK to offset 0 and from OUT_LEN on, as many bytes as its bits take, or within one
byte per input byte when it fails; DECODE from 0 to its new OUT_LEN, or within one byte per payload bit
when it fails. A PACK that fails keeps PAD and TOTAL_BITS (10_state R27, R28). -/
def Obligations.FrameOfStoringCommands : Prop :=
  ∀ (s t : State) (i : Instr), (i = .henc ∨ i = .pack ∨ i = .decode) → exec i s = .next t →
    (t.freq = s.freq ∧ t.inLen = s.inLen ∧ t.irqEn = s.irqEn ∧ t.ovr = s.ovr ∧
      t.bufSize = s.bufSize ∧ t.agenda = s.agenda ∧ t.hostRead = s.hostRead) ∧
    (t.node = s.node ∧ t.numNodes = s.numNodes ∧ t.ct = s.ct ∧ t.numCodes = s.numCodes ∧
      t.maxLen = s.maxLen ∧ t.payOff = s.payOff ∧ t.treeOk = s.treeOk ∧ t.ctOk = s.ctOk ∧
      t.hdrOk = s.hdrOk) ∧
    (i ≠ .pack ∨ t.err = true → t.pad = s.pad ∧ t.totalBits = s.totalBits) ∧
    (∀ a, t.ibuf.read a = s.ibuf.read a) ∧
    (i = .henc → sameOutside s.obuf t.obuf 0 (1 + (headerSpec s).length)) ∧
    (i = .pack → t.err = false → s.bufSizeOk →
      ∀ a, a ≠ 0 → (a < s.outLen.toNat ∨ s.outLen.toNat + bytesFor t.totalBits.toNat ≤ a) →
        t.obuf.read a = s.obuf.read a) ∧
    (i = .pack → t.err = true → s.tableInv →
      sameOutside s.obuf t.obuf s.outLen.toNat (s.outLen.toNat + s.inLen.toNat)) ∧
    (i = .decode → t.err = false → sameOutside s.obuf t.obuf 0 t.outLen.toNat) ∧
    (i = .decode → t.err = true →
      sameOutside s.obuf t.obuf 0 (8 * s.inLen.toNat - (8 * s.payOff.toNat + s.pad.toNat)))

/-! ### BUILD -/

/-- 41_tree_builder R125: an empty frequency table is EMPTY_INPUT with OUT_LEN = 0, and no node is
written. -/
def Obligations.EmptyFrequencyTableIsEmptyInput : Prop :=
  ∀ s : State, allWritten s.freq → presentSymbols s.freq = [] →
    exec .build s = .next
      { s with
        treeOk := false, ctOk := false, hencOk := false, hdrOk := false
        numNodes := 0#9, outLen := 0#32
        pending := none, done := true, err := true, errCode := .emptyInput, errInfo := 0#32
        draws := s.draws + 1 }

/-- 41_tree_builder R120, R121, R126: BUILD completes on every written, non-empty FREQ whose counts sum
to at most 0xFFFFFFFF: the leaves in ascending symbol order, then one internal node per merge whose
weight is the sum of its children's, the root last. -/
def Obligations.BuildCompletes : Prop :=
  ∀ s : State, allWritten s.freq → presentSymbols s.freq ≠ [] →
    totalWeight s.freq ≤ 0xFFFFFFFF →
    ∃ t, exec .build s = .next t ∧ t.err = false ∧ t.treeOk = true ∧ t.ctOk = false ∧
      t.hencOk = false ∧ t.hdrOk = false ∧ t.outLen = 0#32 ∧
      t.numNodes.toNat = 2 * (presentSymbols s.freq).length - 1 ∧
      startsWithLeaves s.freq t.node ∧
      (∀ i, (presentSymbols s.freq).length ≤ i → i < t.numNodes.toNat →
        ∃ w l r, nodeAt t.node i = .internal w l r ∧ l.toNat < i ∧ r.toNat < i ∧
          w.toNat = weightAt t.node l.toNat + weightAt t.node r.toNat) ∧
      weightAt t.node t.root = totalWeight s.freq

/-- 41_tree_builder R122: each merge takes the node with the least (weight, index) pair as its left
child and the least of the remainder as its right child. -/
def Obligations.EachMergeTakesTheTwoLeast : Prop :=
  ∀ (s t : State), exec .build s = .next t → t.err = false →
    ∀ (i : Nat) (w : Word) (l r : BitVec 9), i < t.numNodes.toNat →
      nodeAt t.node i = .internal w l r →
      twoLeast t.node i l.toNat r.toNat

/-- 41_tree_builder R127, which the spec marks as derived: the invariants of a successful BUILD, items 1
to 4, and item 3's "the next extracted pair c <= d satisfies c >= a and d >= b". -/
def Obligations.SuccessfulBuildIsATree : Prop :=
  ∀ (s t : State), exec .build s = .next t → t.err = false →
    (∀ j, j < t.numNodes.toNat - 1 → ∃ i, i < t.numNodes.toNat ∧ isChild t.node i j = true ∧
      ∀ k, k < t.numNodes.toNat → isChild t.node k j = true → k = i) ∧
    (∀ i, i < t.numNodes.toNat → isChild t.node i t.root = false) ∧
    (∀ i w l r, i < t.numNodes.toNat → nodeAt t.node i = .internal w l r →
      l ≠ r ∧ w.toNat = weightAt t.node l.toNat + weightAt t.node r.toNat) ∧
    weightAt t.node t.root = totalWeight s.freq ∧
    (∀ i k w l r w' l' r', i < k → k < t.numNodes.toNat → nodeAt t.node i = .internal w l r →
      nodeAt t.node k = .internal w' l' r' → w.toNat ≤ w'.toNat ∧
        weightAt t.node l.toNat ≤ weightAt t.node l'.toNat ∧
        weightAt t.node r.toNat ≤ weightAt t.node r'.toNat) ∧
    (∀ sym, (freqAt s.freq sym).count ≠ 0#32 ↔
      ∃ i w, i < t.numNodes.toNat ∧ nodeAt t.node i = .leaf w sym) ∧
    (∀ sym i k w w', i < t.numNodes.toNat → k < t.numNodes.toNat →
      nodeAt t.node i = .leaf w sym → nodeAt t.node k = .leaf w' sym → i = k)

/-- 41_tree_builder R124: with at least two present symbols, counts that sum above 0xFFFFFFFF are
WEIGHT_OVERFLOW with the index the new node would have taken: a store of the leaves and of one merge of
the two least after another exists up to that index, where the two least weigh too much together. -/
def Obligations.HeavyFrequencyTableIsWeightOverflow : Prop :=
  ∀ s : State, allWritten s.freq → 2 ≤ (presentSymbols s.freq).length →
    0xFFFFFFFF < totalWeight s.freq →
    ∃ t, exec .build s = .next t ∧ t.err = true ∧ t.errCode = .weightOverflow ∧
      t.numNodes = 0#9 ∧ t.treeOk = false ∧ t.ctOk = false ∧ t.hdrOk = false ∧ t.hencOk = false ∧
      t.outLen = 0#32 ∧ (presentSymbols s.freq).length ≤ t.errInfo.toNat ∧ t.errInfo.toNat ≤ 510 ∧
      ∃ node, startsWithLeaves s.freq node ∧
        (∀ i, (presentSymbols s.freq).length ≤ i → i < t.errInfo.toNat →
          ∃ w l r, nodeAt node i = .internal w l r ∧ twoLeast node i l.toNat r.toNat ∧
            w.toNat = weightAt node l.toNat + weightAt node r.toNat) ∧
        ∃ l r, twoLeast node t.errInfo.toNat l r ∧ 0xFFFFFFFF < weightAt node l + weightAt node r

/-- 70 R264, 10_state R43: BUILD faults on the first FREQ entry that the host has not written since
reset. -/
def Obligations.BuildFaultsOnUnwrittenFreq : Prop :=
  ∀ (s : State) (sym : Byte), (freqAt s.freq sym).written = false →
    (∀ x : Byte, x.toNat < sym.toNat → (freqAt s.freq x).written = true) →
    exec .build s = .fault (.unwrittenFreq sym.toNat)

/-! ### EXTRACT -/

/-- 42_code_table R140, R141: EXTRACT completes on every tree whose leaves lie at depth 1 to 8 and whose
symbols are distinct: each leaf's symbol gets the branch bits of its path as its code, and no other
symbol gets one. -/
def Obligations.ExtractAssignsPathCodes : Prop :=
  ∀ s : State, s.descendInv → s.treeOk = true → (∀ x ∈ s.leafPaths, 1 ≤ x.1.length ∧ x.1.length ≤ 8) →
    (s.leafPaths.map (·.2)).Nodup →
    ∃ t, exec .extract s = .next t ∧ t.err = false ∧ t.ctOk = true ∧ t.hdrOk = false ∧
      t.hencOk = false ∧ t.treeOk = true ∧ t.numCodes.toNat = s.leafPaths.length ∧ t.tableInv ∧
      (∀ x ∈ s.leafPaths, (ctAt t.ct x.2).valid = true ∧ (ctAt t.ct x.2).bits = x.1) ∧
      (∀ sym, sym ∉ s.leafPaths.map (·.2) → ctAt t.ct sym = ⟨false, 0#4, 0#8⟩)

/-- 42_code_table R142: a single-leaf tree gives its symbol the code "0". -/
def Obligations.SingleLeafGetsCodeZero : Prop :=
  ∀ (s : State) (w : Word) (sym : Byte), s.treeOk = true → nodeAt s.node s.root = .leaf w sym →
    ∃ t d, exec .extract s = .next
        { s with
          ct := t, numCodes := 1#9, maxLen := 1#4, ctOk := true, hencOk := false, hdrOk := false
          pending := none, done := true, err := false, errCode := .none, errInfo := 0#32
          draws := d } ∧
      ctAt t sym = ⟨true, 1#4, 0x00#8⟩ ∧ ∀ x, x ≠ sym → ctAt t x = ⟨false, 0#4, 0#8⟩

/-- 42_code_table R143: the first leaf deeper than 8 in pre-order is UNSUPPORTED_CODE_LENGTH with its
symbol and depth; CT is cleared and the tree survives. -/
def Obligations.DeepLeafIsUnsupportedCodeLength : Prop :=
  ∀ (s : State) (c : List Bool) (sym : Byte), s.descendInv → s.treeOk = true →
    s.leafPaths.find? (fun x => decide (8 < x.1.length)) = some (c, sym) →
    exec .extract s = .next
      { s with
        ct := Vector.replicate 256 ⟨false, 0#4, 0#8⟩, numCodes := 0#9, maxLen := 0#4
        ctOk := false, hencOk := false, hdrOk := false
        pending := none, done := true, err := true, errCode := .unsupportedCodeLength
        errInfo := BitVec.ofNat 32 (sym.toNat + 256 * c.length)
        draws := s.draws + 1 }

/-- 42_code_table R146, which the spec marks as derived: the CT of a BUILD and an EXTRACT that succeed is prefix-free and complete, has
exactly the symbols of FREQ, and with all 256 symbols every length is 8. -/
def Obligations.BuiltTableIsPrefixFreeAndComplete : Prop :=
  ∀ s t u : State, exec .build s = .next t → t.err = false → exec .extract t = .next u →
    u.err = false →
    prefixFree u.ct ∧
    (2 ≤ (presentSymbols s.freq).length → kraftSum u.ct = 256) ∧
    ((presentSymbols s.freq).length = 1 → kraftSum u.ct = 128) ∧
    (∀ sym, (ctAt u.ct sym).valid = true ↔ (freqAt s.freq sym).count ≠ 0#32) ∧
    ((presentSymbols s.freq).length = 256 → ∀ sym, (ctAt u.ct sym).len = 8#4)

/-! ### HENC -/

/-- 43_header_codec R160 to R162: HENC writes the placeholder, the total count and the groups, by
ascending length and symbol. -/
def Obligations.HencWritesTheHeader : Prop :=
  ∀ s : State, s.ctOk = true → s.bufSizeOk → s.tableInv →
    ∃ m, exec .henc s = .next
        { s with
          obuf := m, outLen := BitVec.ofNat 32 (1 + (headerSpec s).length), hencOk := true
          pending := none, done := true, err := false, errCode := .none, errInfo := 0#32
          draws := s.draws + 1 } ∧
      holds m 0 (0x00#8 :: headerSpec s) ∧ sameOutside s.obuf m 0 (1 + (headerSpec s).length)

/-- 30_encoding R92, R93: the header HENC writes ends at `2 + sum over groups of (2 + 2 x count)`, from
6 to 530. -/
def Obligations.HeaderSizeIsAccountedFor : Prop :=
  ∀ s t : State, s.ctOk = true → s.bufSizeOk → s.tableInv → s.codesInv → exec .henc s = .next t →
    t.outLen.toNat = headerSize s.ct ∧ 6 ≤ t.outLen.toNat ∧ t.outLen.toNat ≤ 530

/-! ### PACK -/

/-- 44_bit_packer R190, R193, R196: when every input byte has a code and the container fits, PACK
appends `Pack` of the concatenated codes to the header and writes the padding count to byte 0. -/
def Obligations.PackAppendsThePackedCodes : Prop :=
  ∀ (s : State) (xs : List Byte), s.hencOk = true → s.bufSizeOk → 0 < s.outLen.toNat →
    s.inLen.toNat = xs.length → xs.length ≤ s.bufSize.toNat → holds s.ibuf 0 xs →
    (∀ x ∈ xs, (ctAt s.ct x).valid = true) →
    s.outLen.toNat + bytesFor (codesOf s.ct xs).length ≤ s.bufSize.toNat →
    ∃ m, exec .pack s = .next
        { s with
          obuf := m
          outLen := BitVec.ofNat 32 (s.outLen.toNat + bytesFor (codesOf s.ct xs).length)
          pad := BitVec.ofNat 3 (packBits (codesOf s.ct xs)).2
          totalBits := BitVec.ofNat 32 (codesOf s.ct xs).length
          hencOk := false
          pending := none, done := true, err := false, errCode := .none, errInfo := 0#32
          draws := s.draws + 1 } ∧
      (packBits (codesOf s.ct xs)).1.length = bytesFor (codesOf s.ct xs).length ∧
      holds m s.outLen.toNat (packBits (codesOf s.ct xs)).1 ∧
      m.read 0 = some (BitVec.ofNat 8 (packBits (codesOf s.ct xs)).2) ∧
      ∀ a, a ≠ 0 →
        (a < s.outLen.toNat ∨ s.outLen.toNat + bytesFor (codesOf s.ct xs).length ≤ a) →
        m.read a = s.obuf.read a

/-- 44_bit_packer R194, R195, in the order of 60_exceptions R234: the first input byte with no code is
SYMBOL_NOT_IN_TABLE with its offset, unless the bytes before it already overflow the output; and with a
code for every byte, a container that would pass BUF_BYTES is OUTPUT_OVERFLOW. OUT_LEN = 0 either way. -/
def Obligations.PackReportsItsFirstError : Prop :=
  ∀ (s : State) (xs : List Byte), s.hencOk = true → s.inLen.toNat ≤ s.bufSize.toNat →
    holds s.ibuf 0 xs → (∀ y ∈ xs, (ctAt s.ct y).valid = true) →
    (∀ x, xs.length < s.inLen.toNat → s.ibuf.read xs.length = some x →
      (ctAt s.ct x).valid = false →
      s.outLen.toNat + (codesOf s.ct xs).length / 8 ≤ s.bufSize.toNat →
      ∃ m, exec .pack s = .next
        { s with
          obuf := m, outLen := 0#32, hencOk := false
          pending := none, done := true, err := true, errCode := .symbolNotInTable
          errInfo := BitVec.ofNat 32 xs.length, draws := s.draws + 1 }) ∧
    (s.inLen.toNat = xs.length →
      s.bufSize.toNat < s.outLen.toNat + bytesFor (codesOf s.ct xs).length →
      s.outLen.toNat ≤ s.bufSize.toNat →
      ∃ m, exec .pack s = .next
        { s with
          obuf := m, outLen := 0#32, hencOk := false
          pending := none, done := true, err := true, errCode := .outputOverflow
          errInfo := s.bufSize, draws := s.draws + 1 })

/-- 44_bit_packer R192: after every successful PACK, `pad = (8 - (T mod 8)) mod 8`. -/
def Obligations.PaddingFollowsTotalBits : Prop :=
  ∀ s t : State, exec .pack s = .next t → t.err = false →
    t.pad.toNat = (8 - t.totalBits.toNat % 8) % 8

/-- 44_bit_packer R191, which the spec marks as derived from R190: appending a whole code by barrel shift is the bit-serial loop, the bytes that go
out, the overflow and the final shift register included. -/
def Obligations.BarrelShifterEqualsBitSerial : Prop :=
  ∀ (c : List Bool) (x : Shifter) (s : State), c.length ≤ 8 → x.k < 8 → x.acc.toNat < 2 ^ x.k →
    packCodeBarrel c.length (bitsVal c) x s = packCode c x s

/-- 44_bit_packer R198, which the spec marks as derived from R196 and R197: Unpack inverts Pack. -/
def Obligations.UnpackInvertsPack : Prop :=
  ∀ b : List Bool, unpackBits (packBits b).1 (packBits b).2 = some b

/-! ### HDEC -/

/-- 43_header_codec R169, and R165 subcodes 1 and 2: the empty container is EMPTY_INPUT with CT cleared
and OUT_LEN = 0; a one-byte container and a padding count above 7 are MALFORMED_HEADER. -/
def Obligations.BadContainerStartIsReported : Prop :=
  ∀ s : State, s.inLen.toNat ≤ s.bufSize.toNat →
    (s.inLen = 0#32 →
      exec .hdec s = .next
        { s with
          ct := Vector.replicate 256 ⟨false, 0#4, 0#8⟩, numCodes := 0#9, maxLen := 0#4
          outLen := 0#32, ctOk := false, hencOk := false, hdrOk := false
          pending := none, done := true, err := true, errCode := .emptyInput, errInfo := 0#32
          draws := s.draws + 1 }) ∧
    (s.inLen = 1#32 → exec .hdec s = .next (headerFailed 1 1 s)) ∧
    (∀ b : Byte, 2 ≤ s.inLen.toNat → s.ibuf.read 0 = some b → 7 < b.toNat →
      exec .hdec s = .next (headerFailed 2 0 s))

/-- 43_header_codec R163, R166, R168: HDEC completes on every header whose groups fit, whose symbols are
distinct and whose codes are prefix-free: CT, PAY_OFF, PAD and the summary registers. -/
def Obligations.HdecParsesEveryGoodHeader : Prop :=
  ∀ (s : State) (padByte : Byte) (gs : List Group), groupsOk gs → gs ≠ [] →
    (groupsEntries gs).length ≤ 256 → entriesPrefixFree (groupsEntries gs) → padByte.toNat ≤ 7 →
    holds s.ibuf 0 (padByte :: BitVec.ofNat 8 (groupsEntries gs).length :: groupsBytes gs) →
    2 + (groupsBytes gs).length ≤ s.inLen.toNat → s.inLen.toNat ≤ s.bufSize.toNat →
    ∃ (ct : Vector CtEntry 256) (ml : BitVec 4), exec .hdec s = .next
        { s with
          ct := ct, maxLen := ml, numCodes := BitVec.ofNat 9 (groupsEntries gs).length
          payOff := BitVec.ofNat 32 (2 + (gs.map fun g => 2 + 2 * g.pairs.length).sum)
          pad := padByte.setWidth 3, outLen := 0#32, ctOk := true, hencOk := false, hdrOk := true
          pending := none, done := true, err := false, errCode := .none, errInfo := 0#32
          draws := s.draws + 1 } ∧
      (∀ x ∈ groupsEntries gs, ctAt ct x.1 = x.2) ∧
      (∀ sym, sym ∉ (groupsEntries gs).map (·.1) → ctAt ct sym = ⟨false, 0#4, 0#8⟩) ∧
      (∀ x ∈ groupsEntries gs, x.2.len.toNat ≤ ml.toNat) ∧
      ∃ x ∈ groupsEntries gs, x.2.len.toNat = ml.toNat

/-- 43_header_codec R165, subcodes 3, 5 and 6: after any good groups with codes still due, the next
group header is missing, has a bad length, or counts more codes than are due. -/
def Obligations.BadGroupHeaderIsMalformed : Prop :=
  ∀ (s : State) (padByte tb : Byte) (gs : List Group) (p total : Nat), groupsOk gs →
    padByte.toNat ≤ 7 → holds s.ibuf 0 (padByte :: tb :: groupsBytes gs) →
    p = 2 + (groupsBytes gs).length → p ≤ s.inLen.toNat → s.inLen.toNat ≤ s.bufSize.toNat →
    total = (if tb = 0#8 then 256 else tb.toNat) → (groupsEntries gs).length < total →
    (s.inLen.toNat < p + 2 → exec .hdec s = .next (headerFailed 3 p s)) ∧
    (∀ kb len : Byte, p + 2 ≤ s.inLen.toNat → holds s.ibuf p [kb, len] →
      (len = 0#8 ∨ 8 < len.toNat → exec .hdec s = .next (headerFailed 5 (p + 1) s)) ∧
      (1 ≤ len.toNat → len.toNat ≤ 8 →
        total - (groupsEntries gs).length < (if kb = 0#8 then 256 else kb.toNat) →
        exec .hdec s = .next (headerFailed 6 p s)))

/-- 43_header_codec R165, subcodes 4 and 7: after any good groups and any good pairs of the next one,
the next pair is missing, or names a symbol that came before. -/
def Obligations.BadPairIsMalformed : Prop :=
  ∀ (s : State) (padByte tb kb : Byte) (gs : List Group) (g : Group) (q total count : Nat),
    groupsOk gs → 1 ≤ g.len → g.len ≤ 8 →
    ((groupsEntries gs ++ g.entries).map (·.1)).Nodup → padByte.toNat ≤ 7 →
    holds s.ibuf 0
      (padByte :: tb :: groupsBytes gs ++ kb :: BitVec.ofNat 8 g.len :: pairsBytes g.pairs) →
    q = 4 + (groupsBytes gs).length + 2 * g.pairs.length → q ≤ s.inLen.toNat →
    s.inLen.toNat ≤ s.bufSize.toNat → total = (if tb = 0#8 then 256 else tb.toNat) →
    count = (if kb = 0#8 then 256 else kb.toNat) → g.pairs.length < count →
    (groupsEntries gs).length + count ≤ total →
    (s.inLen.toNat < q + 2 → exec .hdec s = .next (headerFailed 4 q s)) ∧
    (∀ sym b : Byte, q + 2 ≤ s.inLen.toNat → holds s.ibuf q [sym, b] →
      sym ∈ (groupsEntries gs ++ g.entries).map (·.1) →
      exec .hdec s = .next (headerFailed 7 q s))

/-- 43_header_codec R165, subcode 8, and R167: a complete header whose codes are not prefix-free. -/
def Obligations.PrefixClashIsMalformed : Prop :=
  ∀ (s : State) (padByte : Byte) (gs : List Group), groupsOk gs → gs ≠ [] →
    (groupsEntries gs).length ≤ 256 → ¬ entriesPrefixFree (groupsEntries gs) →
    padByte.toNat ≤ 7 →
    holds s.ibuf 0 (padByte :: BitVec.ofNat 8 (groupsEntries gs).length :: groupsBytes gs) →
    2 + (groupsBytes gs).length ≤ s.inLen.toNat → s.inLen.toNat ≤ s.bufSize.toNat →
    exec .hdec s = .next (headerFailed 8 (2 + (groupsBytes gs).length) s)

/-- 43_header_codec R168: HDEC recovers the CT that HENC serialized, entry for entry. -/
def Obligations.HdecRecoversTheEncodedTable : Prop :=
  ∀ (s u : State) (padByte : Byte), u.ctOk = true → u.tableInv → u.codesInv →
    padByte.toNat ≤ 7 → holds s.ibuf 0 (padByte :: headerSpec u) →
    1 + (headerSpec u).length ≤ s.inLen.toNat → s.inLen.toNat ≤ s.bufSize.toNat →
    ∃ t, exec .hdec s = .next t ∧ t.err = false ∧ t.ct = u.ct ∧ t.numCodes = u.numCodes ∧
      t.maxLen = u.maxLen ∧ t.payOff.toNat = headerSize u.ct ∧ t.pad.toNat = padByte.toNat ∧
      t.ctOk = true ∧ t.hdrOk = true

/-! ### DECODE -/

/-- 45_decoder R211: a negative payload bit count is TRUNCATED_PAYLOAD with ERR_INFO 0xFFFFFFFF. -/
def Obligations.NegativeBitCountIsTruncated : Prop :=
  ∀ s : State, s.hdrOk = true → s.inLen.toNat ≤ s.bufSize.toNat →
    8 * s.inLen.toNat < 8 * s.payOff.toNat + s.pad.toNat →
    ∃ d, exec .decode s = .next
      { s with
        outLen := 0#32, hencOk := false
        pending := none, done := true, err := true, errCode := .truncatedPayload
        errInfo := 0xFFFFFFFF#32, draws := d }

/-- 45_decoder R210, R212 to R216: DECODE is candidate matching over the payload bits: the symbols go to
OBUF, and an unmatchable candidate, a leftover candidate or a full OBUF is the error each rule names. -/
def Obligations.DecodeMatchesThePayloadBits : Prop :=
  ∀ (s : State) (bytes : List Byte) (nbits : Nat), s.hdrOk = true → s.bufSizeOk →
    s.inLen.toNat ≤ s.bufSize.toNat → s.payOff.toNat + bytes.length = s.inLen.toNat →
    s.pad.toNat ≤ 8 * bytes.length → nbits = 8 * bytes.length - s.pad.toNat →
    holds s.ibuf s.payOff.toNat bytes →
    ∃ m, holds m 0 ((matchBits (validCodes s.ct) 0 [] (payloadBits bytes nbits)).syms.take
        s.bufSize.toNat) ∧
      if s.bufSize.toNat < (matchBits (validCodes s.ct) 0 [] (payloadBits bytes nbits)).syms.length
      then
        exec .decode s = .next
          { s with
            obuf := m, outLen := 0#32, hencOk := false
            pending := none, done := true, err := true, errCode := .outputOverflow
            errInfo := s.bufSize, draws := s.draws + 1 }
      else
        match matchBits (validCodes s.ct) 0 [] (payloadBits bytes nbits) with
        | .all syms =>
          exec .decode s = .next
            { s with
              obuf := m, outLen := BitVec.ofNat 32 syms.length, hencOk := false
              pending := none, done := true, err := false, errCode := .none, errInfo := 0#32
              draws := s.draws + 1 }
        | .stuckAt _ k =>
          exec .decode s = .next
            { s with
              obuf := m, outLen := 0#32, hencOk := false
              pending := none, done := true, err := true, errCode := .truncatedPayload
              errInfo := BitVec.ofNat 32 k, draws := s.draws + 1 }
        | .leftover _ =>
          exec .decode s = .next
            { s with
              obuf := m, outLen := 0#32, hencOk := false
              pending := none, done := true, err := true, errCode := .truncatedPayload
              errInfo := BitVec.ofNat 32 nbits, draws := s.draws + 1 }

/-- 45_decoder R213, 44_bit_packer R196: DECODE completes on the packed codes of any symbols that fit in
OBUF, under a prefix-free table, and gives those symbols back. -/
def Obligations.DecodeInvertsPack : Prop :=
  ∀ (s : State) (xs : List Byte), s.hdrOk = true → s.bufSizeOk → s.tableInv → prefixFree s.ct →
    (∀ x ∈ xs, (ctAt s.ct x).valid = true) → xs.length ≤ s.bufSize.toNat →
    s.inLen.toNat ≤ s.bufSize.toNat →
    s.inLen.toNat = s.payOff.toNat + (packBits (codesOf s.ct xs)).1.length →
    s.pad.toNat = (packBits (codesOf s.ct xs)).2 →
    holds s.ibuf s.payOff.toNat (packBits (codesOf s.ct xs)).1 →
    ∃ m, exec .decode s = .next
        { s with
          obuf := m, outLen := BitVec.ofNat 32 xs.length, hencOk := false
          pending := none, done := true, err := false, errCode := .none, errInfo := 0#32
          draws := s.draws + 1 } ∧
      holds m 0 xs ∧ sameOutside s.obuf m 0 xs.length

/-- 45_decoder R217: walking the binary trie of a prefix-free table gives what candidate matching gives:
the same symbols, the same error and the same bit index. -/
def Obligations.TrieWalkEqualsMatching : Prop :=
  ∀ (codes : List (Byte × List Bool)) (bits : List Bool),
    (codes.map (·.1)).Nodup → (∀ x ∈ codes, x.2 ≠ []) →
    (∀ x ∈ codes, ∀ y ∈ codes, x.1 ≠ y.1 → x.2.isPrefixOf y.2 = false) →
    walkBits (trieOf codes) 0 true (trieOf codes) bits = matchBits codes 0 [] bits

/-- 45_decoder R218: what HENC and PACK wrote, HDEC and DECODE take back: the container of an input,
copied into IBUF with its length, decodes to that input. -/
def Obligations.ContainerRoundTrips : Prop :=
  ∀ (s s₁ s₂ u : State) (xs : List Byte), s.ctOk = true → s.bufSizeOk → s.tableInv → s.codesInv →
    holds s.ibuf 0 xs → s.inLen.toNat = xs.length → xs.length ≤ s.bufSize.toNat →
    exec .henc s = .next s₁ → exec .pack s₁ = .next s₂ → s₂.err = false →
    u.bufSize = s.bufSize → u.inLen = s₂.outLen →
    (∀ a, a < s₂.outLen.toNat → u.ibuf.read a = s₂.obuf.read a) →
    ∃ v w, exec .hdec u = .next v ∧ v.err = false ∧ exec .decode v = .next w ∧ w.err = false ∧
      w.outLen.toNat = xs.length ∧ holds w.obuf 0 xs

/-! ### The host bus -/

/-- 20_memory R51, R54, R56, 93 U8, U9, 60_exceptions R243: a host access answers exactly when it keeps
the host protocol. A REG access that is not an aligned 32-bit access faults, and so does a buffer access
at or beyond BUF_BYTES: it does not wrap. -/
def Obligations.HostAccessAnswersIffItConforms : Prop :=
  ∀ (s : State) (addr : RegAddr) (width a : Nat) (data : Word) (v : Byte),
    (∀ op, isNext (hostAccess op s) = conforms op s) ∧
    (width ≠ 32 ∨ addr.toNat % 4 ≠ 0 →
      hostAccess (.regRead addr width) s = .fault (.regAccess addr width) ∧
      hostAccess (.regWrite addr width data) s = .fault (.regAccess addr width)) ∧
    (s.bufSize.toNat ≤ a →
      hostAccess (.ibufRead a) s = .fault (.bufferRange .ibuf a) ∧
      hostAccess (.ibufWrite a v) s = .fault (.bufferRange .ibuf a) ∧
      hostAccess (.obufRead a) s = .fault (.bufferRange .obuf a) ∧
      hostAccess (.obufWrite a v) s = .fault (.bufferRange .obuf a)) ∧
    (∀ op rest, s.agenda = .host op :: rest →
      step s = hostAccess op { s with agenda := rest })

/-- 20_memory R52, R53, 30_encoding R71: an unmapped word reads 0; a write to it, or to a read-only word,
does nothing; CMD reads 0; a write of STATUS clears DONE and OVR where it has a 1 and changes nothing
else, so that irq falls with DONE (60_exceptions R237, R238). All of it busy or idle. -/
def Obligations.UnmappedAndReadOnlyWords : Prop :=
  ∀ (s : State) (addr : RegAddr) (data : Word) (rest : List Event), addr.toNat % 4 = 0 →
    (s.agenda = .host (.regRead addr 32) :: rest →
      (addr.toNat = 0x4 ∨ (0x38 ≤ addr.toNat ∧ addr.toNat < 0x400) ∨
        (0xC00 ≤ addr.toNat ∧ addr.toNat < 0x1000) ∨ 0x1FF8 ≤ addr.toNat) →
      step s = .next { s with agenda := rest, hostRead := some 0#32 }) ∧
    (s.agenda = .host (.regWrite addr 32 data) :: rest →
      (addr.toNat = 0 ∨ addr.toNat = 0xC ∨ (0x14 ≤ addr.toNat ∧ addr.toNat ≤ 0x2C) ∨
        (0x34 ≤ addr.toNat ∧ addr.toNat < 0x400) ∨ 0x800 ≤ addr.toNat) →
      step s = .next { s with agenda := rest }) ∧
    (s.agenda = .host (.regWrite addr 32 data) :: rest → addr.toNat = 0x8 →
      step s = .next
        { s with
          agenda := rest, done := s.done && !data.getLsbD 1, ovr := s.ovr && !data.getLsbD 3 } ∧
      ∀ t, step s = .next t → (t.irq = true ↔ s.irq = true ∧ data.getLsbD 1 = false))

/-- 30_encoding R71, R73, R74: what each register's word reads as while the block is idle, STATUS with the
numbers of 60_exceptions R230 in ERRCODE. -/
def Obligations.RegisterWordsReadTheirRegister : Prop :=
  ∀ (s : State) (addr : RegAddr) (rest : List Event), s.pending = none →
    s.agenda = .host (.regRead addr 32) :: rest →
    ∀ (v : Word) (code : Nat),
      ((addr = 0x0000#13 ∧ v = 0x48554643#32) ∨ (addr = 0x0004#13 ∧ v = 0#32) ∨
        (addr = 0x000C#13 ∧ v = s.errInfo) ∨ (addr = 0x0010#13 ∧ v = s.inLen) ∨
        (addr = 0x0014#13 ∧ v = s.outLen) ∨ (addr = 0x0018#13 ∧ v = s.payOff) ∨
        (addr = 0x001C#13 ∧ v.toNat = s.pad.toNat) ∨ (addr = 0x0020#13 ∧ v = s.totalBits) ∨
        (addr = 0x0024#13 ∧ v.toNat = s.numCodes.toNat) ∨
        (addr = 0x0028#13 ∧ v.toNat = s.maxLen.toNat) ∨
        (addr = 0x002C#13 ∧ v.toNat = s.numNodes.toNat) ∨
        (addr = 0x0030#13 ∧ v.toNat = s.irqEn.toNat) ∨ (addr = 0x0034#13 ∧ v = s.bufSize) ∨
        (addr = 0x0008#13 ∧ (s.errCode, code) ∈ errCodeTable ∧
          v.toNat = 2 * s.done.toNat + 4 * s.err.toNat + 8 * s.ovr.toNat +
            256 * code + 65536 * s.treeOk.toNat + 131072 * s.ctOk.toNat +
            262144 * s.hencOk.toNat + 524288 * s.hdrOk.toNat)) →
      step s = .next { s with agenda := rest, hostRead := some v }

/-- 30_encoding R75 to R77: what the array windows read as while the block is idle. -/
def Obligations.ArrayWindowsReadTheirEntry : Prop :=
  ∀ (s : State) (addr : RegAddr) (rest : List Event), s.pending = none →
    s.agenda = .host (.regRead addr 32) :: rest →
    (∀ sym : Byte, addr.toNat = 0x400 + 4 * sym.toNat → (freqAt s.freq sym).written = true →
      step s = .next { s with agenda := rest, hostRead := some (freqAt s.freq sym).count }) ∧
    (∀ sym : Byte, addr.toNat = 0x800 + 4 * sym.toNat →
      ∃ v : Word, step s = .next { s with agenda := rest, hostRead := some v } ∧
        v.toNat = 2147483648 * (ctAt s.ct sym).valid.toNat + 256 * (ctAt s.ct sym).len.toNat +
          (ctAt s.ct sym).code.toNat) ∧
    (∀ i : Nat, addr.toNat = 0x1000 + 8 * i → i < s.numNodes.toNat → i ≤ 510 →
      step s = .next { s with agenda := rest, hostRead := some (nodeAt s.node i).weight }) ∧
    (∀ i : Nat, addr.toNat = 0x1004 + 8 * i → i < s.numNodes.toNat → i ≤ 510 →
      ∃ v : Word, step s = .next { s with agenda := rest, hostRead := some v } ∧
        (∀ w sym, nodeAt s.node i = .leaf w sym → v.toNat = sym.toNat) ∧
        (∀ w l r, nodeAt s.node i = .internal w l r →
          v.toNat = 2147483648 + 512 * r.toNat + l.toNat))

/-- 10_state R25, R30, R35: the writable registers take what is written while the block is idle, CTRL
only its bit 0, and nothing else changes. irq follows IRQ_EN (60_exceptions R237). -/
def Obligations.WritableRegistersTakeTheWord : Prop :=
  ∀ (s : State) (addr : RegAddr) (data : Word) (rest : List Event), s.pending = none →
    s.agenda = .host (.regWrite addr 32 data) :: rest →
    (addr = 0x0010#13 → step s = .next { s with agenda := rest, inLen := data }) ∧
    (addr = 0x0030#13 → step s = .next { s with agenda := rest, irqEn := data.getLsbD 0 } ∧
      ∀ t, step s = .next t → (t.irq = true ↔ data.getLsbD 0 = true ∧ s.done = true)) ∧
    (∀ sym : Byte, addr.toNat = 0x400 + 4 * sym.toNat →
      ∃ f, step s = .next { s with agenda := rest, freq := f } ∧
        freqAt f sym = ⟨data, true⟩ ∧ ∀ x, x ≠ sym → freqAt f x = freqAt s.freq x)

/-- 20_memory R54, R56: host byte accesses inside the buffers while the block is idle. -/
def Obligations.BufferBytesReadAndWrite : Prop :=
  ∀ (s : State) (a : Nat) (v : Byte) (rest : List Event), s.pending = none →
    a < s.bufSize.toNat →
    (s.agenda = .host (.ibufWrite a v) :: rest →
      ∃ m, step s = .next { s with agenda := rest, ibuf := m } ∧ m.read a = some v ∧
        ∀ b, b ≠ a → m.read b = s.ibuf.read b) ∧
    (s.agenda = .host (.ibufRead a) :: rest → s.ibuf.read a = some v →
      step s = .next { s with agenda := rest, hostRead := some (v.setWidth 32) }) ∧
    (s.agenda = .host (.obufRead a) :: rest → a < s.outLen.toNat → s.obuf.read a = some v →
      step s = .next { s with agenda := rest, hostRead := some (v.setWidth 32) }) ∧
    (s.agenda = .host (.obufWrite a v) :: rest → step s = .next { s with agenda := rest })

/-- 20_memory R62: a host read that answers changes nothing of the block, busy or idle: only the host's own
read data, the agenda and, while a command is pending, the counter of the free values (entry 8). While the
block is idle the same read again returns the same data, an unspecified value included (entry 8). -/
def Obligations.ReadsHaveNoSideEffect : Prop :=
  ∀ (s t : State) (op : HostOp) (rest : List Event),
    ((∃ addr width, op = .regRead addr width) ∨ (∃ a, op = .ibufRead a) ∨ ∃ a, op = .obufRead a) →
    s.agenda = .host op :: rest → step s = .next t →
    t = { s with agenda := rest, hostRead := t.hostRead, draws := t.draws } ∧
      (s.pending = none → t.draws = s.draws ∧
        ∀ more, rest = .host op :: more → step t = .next { t with agenda := more })

/-- 70 R270: while a command is pending, STATUS reads BUSY = 1 with DONE, ERR and ERRCODE 0, ERR_INFO
reads 0, ID, CTRL and BUF_SIZE read as ever, a write of CTRL has its effect, and a write of FREQ, IN_LEN
or IBUF faults. -/
def Obligations.BusyAccessesFollowTheHazardRules : Prop :=
  ∀ (s : State) (w : Word) (rest : List Event), s.statusInv → s.pending = some w →
    (s.agenda = .host (.regRead 0x0008#13 32) :: rest →
      ∃ v : Word, step s = .next { s with agenda := rest, hostRead := some v } ∧
        v.getLsbD 0 = true ∧ v.getLsbD 1 = false ∧ v.getLsbD 2 = false ∧
        v.extractLsb' 8 4 = 0#4 ∧ v.getLsbD 3 = s.ovr ∧ v.getLsbD 16 = s.treeOk ∧
        v.getLsbD 17 = s.ctOk ∧ v.getLsbD 18 = s.hencOk ∧ v.getLsbD 19 = s.hdrOk) ∧
    (s.agenda = .host (.regRead 0x000C#13 32) :: rest →
      step s = .next { s with agenda := rest, hostRead := some 0#32 }) ∧
    (s.agenda = .host (.regRead 0x0000#13 32) :: rest →
      step s = .next { s with agenda := rest, hostRead := some 0x48554643#32 }) ∧
    (s.agenda = .host (.regRead 0x0030#13 32) :: rest →
      ∃ v : Word, step s = .next { s with agenda := rest, hostRead := some v } ∧
        v.toNat = s.irqEn.toNat) ∧
    (s.agenda = .host (.regRead 0x0034#13 32) :: rest →
      step s = .next { s with agenda := rest, hostRead := some s.bufSize }) ∧
    (∀ data, s.agenda = .host (.regWrite 0x0030#13 32 data) :: rest →
      step s = .next { s with agenda := rest, irqEn := data.getLsbD 0 }) ∧
    (∀ data, s.agenda = .host (.regWrite 0x0010#13 32 data) :: rest →
      step s = .fault (.busyWrite .inLen)) ∧
    (∀ (addr : RegAddr) (data : Word), addr.toNat % 4 = 0 → 0x400 ≤ addr.toNat →
      addr.toNat < 0x800 → s.agenda = .host (.regWrite addr 32 data) :: rest →
      step s = .fault (.busyWrite .freq)) ∧
    (∀ (a : Nat) (v : Byte), a < s.bufSize.toNat → s.agenda = .host (.ibufWrite a v) :: rest →
      step s = .fault (.busyWrite .ibuf))

/-- 70 R270: while a command is pending, a read of a result register, of the CT or NODE window or of OBUF
returns an arbitrary value in the bits the location has (entry 9): the free value of a counter that has
just moved, so one that no read before it has shown (entry 8). -/
def Obligations.BusyReadsOfResultsAreDraws : Prop :=
  ∀ (s : State) (rest : List Event), s.pending.isSome = true →
    (∀ (addr : RegAddr) (mask : Word), s.agenda = .host (.regRead addr 32) :: rest →
      (((addr = 0x0014#13 ∨ addr = 0x0018#13 ∨ addr = 0x0020#13) ∧ mask = 0xFFFFFFFF#32) ∨
        (addr = 0x001C#13 ∧ mask = 0x00000007#32) ∨
        ((addr = 0x0024#13 ∨ addr = 0x002C#13) ∧ mask = 0x000001FF#32) ∨
        (addr = 0x0028#13 ∧ mask = 0x0000000F#32) ∨
        (∃ sym : Byte, addr.toNat = 0x800 + 4 * sym.toNat ∧ mask = 0x80000FFF#32) ∨
        (∃ i, i ≤ 510 ∧ addr.toNat = 0x1000 + 8 * i ∧ mask = 0xFFFFFFFF#32) ∨
        (∃ i, i ≤ 510 ∧ addr.toNat = 0x1004 + 8 * i ∧ mask = 0x8003FFFF#32)) →
      step s = .next
        { s with
          agenda := rest, draws := s.draws + 1
          hostRead := some (Config.freeWord (s.draws + 1) .reg addr.toNat &&& mask) }) ∧
    (∀ a, s.agenda = .host (.obufRead a) :: rest → a < s.bufSize.toNat →
      step s = .next
        { s with
          agenda := rest, draws := s.draws + 1
          hostRead := some (Config.freeWord (s.draws + 1) .obuf a &&& 0x000000FF#32) })

/-! ### Whole-machine rules and invariants -/

/-- 60_exceptions R239: OVR is cleared only by a host W1C write of bit 3, or by reset. -/
def Obligations.OvrIsSticky : Prop :=
  ∀ s t : State, step s = .next t → s.ovr = true → t.ovr = false →
    (∃ rest, s.agenda = .reset :: rest) ∨
    ∃ data rest, s.agenda = .host (.regWrite 0x0008#13 32 data) :: rest ∧ data.getLsbD 3 = true

/-- 42_code_table R144: only EXTRACT, HDEC, CLEAR and reset write CT. -/
def Obligations.OnlyThreeCommandsWriteTheTable : Prop :=
  ∀ s t : State, step s = .next t → t.ct ≠ s.ct →
    (∃ rest, s.agenda = .reset :: rest) ∨
    ((s.agenda = [] ∨ ∃ rest, s.agenda = .engine :: rest) ∧
      (s.pending = some 0x00000002#32 ∨ s.pending = some 0x00000005#32 ∨
        s.pending = some 0x00000007#32))

/-- 20_memory R50, R55, 10_state R26: every step keeps both buffers in canonical form and below
BUF_BYTES, and OUT_LEN at or below BUF_BYTES over written bytes. -/
def Obligations.StepKeepsBuffers : Prop :=
  ∀ s t : State, s.buffersInv → step s = .next t →
    t.buffersInv ∧ (s.outputInv → t.outputInv)

/-- 10_state R23, R24, 70 R270, 40_control R104, R109: ERR, ERRCODE, ERR_INFO and DONE stay consistent,
and HENC_OK and HDR_OK keep implying CT_OK, HENC_OK a header in OBUF. -/
def Obligations.StepKeepsStatusAndFlags : Prop :=
  ∀ s t : State, step s = .next t →
    (s.statusInv → t.statusInv) ∧ (s.bufSizeOk → s.flagsInv → t.flagsInv)

/-- 10_state R29, R31: CT stays canonical and its summary registers true. -/
def Obligations.StepKeepsTable : Prop :=
  ∀ s t : State, s.tableInv → step s = .next t → t.tableInv

/-- 10_state R23, R31: CT_OK keeps meaning a prefix-free, non-empty code table. -/
def Obligations.StepKeepsPrefixFree : Prop :=
  ∀ s t : State, s.codesInv → step s = .next t → t.codesInv

/-- 10_state R23, R29, R32: TREE_OK keeps meaning a tree in NODE, every child with one parent; and it keeps
meaning that children lie below their parents, even where they have two. -/
def Obligations.StepKeepsTree : Prop :=
  ∀ s t : State, step s = .next t → (s.treeInv → t.treeInv) ∧ (s.descendInv → t.descendInv)
end

