-- ==== Sys2Proof/Laws/State.lean ====
section
/-!
SUPPORT. One lemma per field and per named update of the state, each true by definition.
-/

namespace Sys2Proof.Machine

/-! ### complete -/

@[simp] theorem complete_pending (s : State) : (complete s).pending = none := rfl
@[simp] theorem complete_done (s : State) : (complete s).done = true := rfl
@[simp] theorem complete_err (s : State) : (complete s).err = false := rfl
@[simp] theorem complete_ovr (s : State) : (complete s).ovr = s.ovr := rfl
@[simp] theorem complete_errCode (s : State) : (complete s).errCode = .none := rfl
@[simp] theorem complete_treeOk (s : State) : (complete s).treeOk = s.treeOk := rfl
@[simp] theorem complete_ctOk (s : State) : (complete s).ctOk = s.ctOk := rfl
@[simp] theorem complete_hencOk (s : State) : (complete s).hencOk = s.hencOk := rfl
@[simp] theorem complete_hdrOk (s : State) : (complete s).hdrOk = s.hdrOk := rfl
@[simp] theorem complete_errInfo (s : State) : (complete s).errInfo = 0#32 := rfl
@[simp] theorem complete_inLen (s : State) : (complete s).inLen = s.inLen := rfl
@[simp] theorem complete_outLen (s : State) : (complete s).outLen = s.outLen := rfl
@[simp] theorem complete_payOff (s : State) : (complete s).payOff = s.payOff := rfl
@[simp] theorem complete_pad (s : State) : (complete s).pad = s.pad := rfl
@[simp] theorem complete_totalBits (s : State) : (complete s).totalBits = s.totalBits := rfl
@[simp] theorem complete_numCodes (s : State) : (complete s).numCodes = s.numCodes := rfl
@[simp] theorem complete_maxLen (s : State) : (complete s).maxLen = s.maxLen := rfl
@[simp] theorem complete_numNodes (s : State) : (complete s).numNodes = s.numNodes := rfl
@[simp] theorem complete_irqEn (s : State) : (complete s).irqEn = s.irqEn := rfl
@[simp] theorem complete_bufSize (s : State) : (complete s).bufSize = s.bufSize := rfl
@[simp] theorem complete_freq (s : State) : (complete s).freq = s.freq := rfl
@[simp] theorem complete_ct (s : State) : (complete s).ct = s.ct := rfl
@[simp] theorem complete_node (s : State) : (complete s).node = s.node := rfl
@[simp] theorem complete_ibuf (s : State) : (complete s).ibuf = s.ibuf := rfl
@[simp] theorem complete_obuf (s : State) : (complete s).obuf = s.obuf := rfl
@[simp] theorem complete_agenda (s : State) : (complete s).agenda = s.agenda := rfl
@[simp] theorem complete_draws (s : State) : (complete s).draws = s.draws + 1 := rfl
@[simp] theorem complete_hostRead (s : State) : (complete s).hostRead = s.hostRead := rfl

/-! ### raiseError -/

@[simp] theorem raiseError_pending (e : ErrCode) (w : Word) (s : State) :
    (raiseError e w s).pending = none := rfl
@[simp] theorem raiseError_done (e : ErrCode) (w : Word) (s : State) :
    (raiseError e w s).done = true := rfl
@[simp] theorem raiseError_err (e : ErrCode) (w : Word) (s : State) :
    (raiseError e w s).err = true := rfl
@[simp] theorem raiseError_ovr (e : ErrCode) (w : Word) (s : State) :
    (raiseError e w s).ovr = s.ovr := rfl
@[simp] theorem raiseError_errCode (e : ErrCode) (w : Word) (s : State) :
    (raiseError e w s).errCode = e := rfl
@[simp] theorem raiseError_treeOk (e : ErrCode) (w : Word) (s : State) :
    (raiseError e w s).treeOk = s.treeOk := rfl
@[simp] theorem raiseError_ctOk (e : ErrCode) (w : Word) (s : State) :
    (raiseError e w s).ctOk = s.ctOk := rfl
@[simp] theorem raiseError_hencOk (e : ErrCode) (w : Word) (s : State) :
    (raiseError e w s).hencOk = s.hencOk := rfl
@[simp] theorem raiseError_hdrOk (e : ErrCode) (w : Word) (s : State) :
    (raiseError e w s).hdrOk = s.hdrOk := rfl
@[simp] theorem raiseError_errInfo (e : ErrCode) (w : Word) (s : State) :
    (raiseError e w s).errInfo = w := rfl
@[simp] theorem raiseError_inLen (e : ErrCode) (w : Word) (s : State) :
    (raiseError e w s).inLen = s.inLen := rfl
@[simp] theorem raiseError_outLen (e : ErrCode) (w : Word) (s : State) :
    (raiseError e w s).outLen = s.outLen := rfl
@[simp] theorem raiseError_payOff (e : ErrCode) (w : Word) (s : State) :
    (raiseError e w s).payOff = s.payOff := rfl
@[simp] theorem raiseError_pad (e : ErrCode) (w : Word) (s : State) :
    (raiseError e w s).pad = s.pad := rfl
@[simp] theorem raiseError_totalBits (e : ErrCode) (w : Word) (s : State) :
    (raiseError e w s).totalBits = s.totalBits := rfl
@[simp] theorem raiseError_numCodes (e : ErrCode) (w : Word) (s : State) :
    (raiseError e w s).numCodes = s.numCodes := rfl
@[simp] theorem raiseError_maxLen (e : ErrCode) (w : Word) (s : State) :
    (raiseError e w s).maxLen = s.maxLen := rfl
@[simp] theorem raiseError_numNodes (e : ErrCode) (w : Word) (s : State) :
    (raiseError e w s).numNodes = s.numNodes := rfl
@[simp] theorem raiseError_irqEn (e : ErrCode) (w : Word) (s : State) :
    (raiseError e w s).irqEn = s.irqEn := rfl
@[simp] theorem raiseError_bufSize (e : ErrCode) (w : Word) (s : State) :
    (raiseError e w s).bufSize = s.bufSize := rfl
@[simp] theorem raiseError_freq (e : ErrCode) (w : Word) (s : State) :
    (raiseError e w s).freq = s.freq := rfl
@[simp] theorem raiseError_ct (e : ErrCode) (w : Word) (s : State) :
    (raiseError e w s).ct = s.ct := rfl
@[simp] theorem raiseError_node (e : ErrCode) (w : Word) (s : State) :
    (raiseError e w s).node = s.node := rfl
@[simp] theorem raiseError_ibuf (e : ErrCode) (w : Word) (s : State) :
    (raiseError e w s).ibuf = s.ibuf := rfl
@[simp] theorem raiseError_obuf (e : ErrCode) (w : Word) (s : State) :
    (raiseError e w s).obuf = s.obuf := rfl
@[simp] theorem raiseError_agenda (e : ErrCode) (w : Word) (s : State) :
    (raiseError e w s).agenda = s.agenda := rfl
@[simp] theorem raiseError_draws (e : ErrCode) (w : Word) (s : State) :
    (raiseError e w s).draws = s.draws + 1 := rfl
@[simp] theorem raiseError_hostRead (e : ErrCode) (w : Word) (s : State) :
    (raiseError e w s).hostRead = s.hostRead := rfl

/-! ### consumeHenc -/

@[simp] theorem consumeHenc_pending (s : State) : (consumeHenc s).pending = s.pending := rfl
@[simp] theorem consumeHenc_done (s : State) : (consumeHenc s).done = s.done := rfl
@[simp] theorem consumeHenc_err (s : State) : (consumeHenc s).err = s.err := rfl
@[simp] theorem consumeHenc_ovr (s : State) : (consumeHenc s).ovr = s.ovr := rfl
@[simp] theorem consumeHenc_errCode (s : State) : (consumeHenc s).errCode = s.errCode := rfl
@[simp] theorem consumeHenc_treeOk (s : State) : (consumeHenc s).treeOk = s.treeOk := rfl
@[simp] theorem consumeHenc_ctOk (s : State) : (consumeHenc s).ctOk = s.ctOk := rfl
@[simp] theorem consumeHenc_hencOk (s : State) : (consumeHenc s).hencOk = false := rfl
@[simp] theorem consumeHenc_hdrOk (s : State) : (consumeHenc s).hdrOk = s.hdrOk := rfl
@[simp] theorem consumeHenc_errInfo (s : State) : (consumeHenc s).errInfo = s.errInfo := rfl
@[simp] theorem consumeHenc_inLen (s : State) : (consumeHenc s).inLen = s.inLen := rfl
@[simp] theorem consumeHenc_outLen (s : State) : (consumeHenc s).outLen = s.outLen := rfl
@[simp] theorem consumeHenc_payOff (s : State) : (consumeHenc s).payOff = s.payOff := rfl
@[simp] theorem consumeHenc_pad (s : State) : (consumeHenc s).pad = s.pad := rfl
@[simp] theorem consumeHenc_totalBits (s : State) : (consumeHenc s).totalBits = s.totalBits := rfl
@[simp] theorem consumeHenc_numCodes (s : State) : (consumeHenc s).numCodes = s.numCodes := rfl
@[simp] theorem consumeHenc_maxLen (s : State) : (consumeHenc s).maxLen = s.maxLen := rfl
@[simp] theorem consumeHenc_numNodes (s : State) : (consumeHenc s).numNodes = s.numNodes := rfl
@[simp] theorem consumeHenc_irqEn (s : State) : (consumeHenc s).irqEn = s.irqEn := rfl
@[simp] theorem consumeHenc_bufSize (s : State) : (consumeHenc s).bufSize = s.bufSize := rfl
@[simp] theorem consumeHenc_freq (s : State) : (consumeHenc s).freq = s.freq := rfl
@[simp] theorem consumeHenc_ct (s : State) : (consumeHenc s).ct = s.ct := rfl
@[simp] theorem consumeHenc_node (s : State) : (consumeHenc s).node = s.node := rfl
@[simp] theorem consumeHenc_ibuf (s : State) : (consumeHenc s).ibuf = s.ibuf := rfl
@[simp] theorem consumeHenc_obuf (s : State) : (consumeHenc s).obuf = s.obuf := rfl
@[simp] theorem consumeHenc_agenda (s : State) : (consumeHenc s).agenda = s.agenda := rfl
@[simp] theorem consumeHenc_draws (s : State) : (consumeHenc s).draws = s.draws := rfl
@[simp] theorem consumeHenc_hostRead (s : State) : (consumeHenc s).hostRead = s.hostRead := rfl

/-! ### clearTable -/

@[simp] theorem clearTable_pending (s : State) : (clearTable s).pending = s.pending := rfl
@[simp] theorem clearTable_done (s : State) : (clearTable s).done = s.done := rfl
@[simp] theorem clearTable_err (s : State) : (clearTable s).err = s.err := rfl
@[simp] theorem clearTable_ovr (s : State) : (clearTable s).ovr = s.ovr := rfl
@[simp] theorem clearTable_errCode (s : State) : (clearTable s).errCode = s.errCode := rfl
@[simp] theorem clearTable_treeOk (s : State) : (clearTable s).treeOk = s.treeOk := rfl
@[simp] theorem clearTable_ctOk (s : State) : (clearTable s).ctOk = s.ctOk := rfl
@[simp] theorem clearTable_hencOk (s : State) : (clearTable s).hencOk = s.hencOk := rfl
@[simp] theorem clearTable_hdrOk (s : State) : (clearTable s).hdrOk = s.hdrOk := rfl
@[simp] theorem clearTable_errInfo (s : State) : (clearTable s).errInfo = s.errInfo := rfl
@[simp] theorem clearTable_inLen (s : State) : (clearTable s).inLen = s.inLen := rfl
@[simp] theorem clearTable_outLen (s : State) : (clearTable s).outLen = s.outLen := rfl
@[simp] theorem clearTable_payOff (s : State) : (clearTable s).payOff = s.payOff := rfl
@[simp] theorem clearTable_pad (s : State) : (clearTable s).pad = s.pad := rfl
@[simp] theorem clearTable_totalBits (s : State) : (clearTable s).totalBits = s.totalBits := rfl
@[simp] theorem clearTable_numCodes (s : State) : (clearTable s).numCodes = 0#9 := rfl
@[simp] theorem clearTable_maxLen (s : State) : (clearTable s).maxLen = 0#4 := rfl
@[simp] theorem clearTable_numNodes (s : State) : (clearTable s).numNodes = s.numNodes := rfl
@[simp] theorem clearTable_irqEn (s : State) : (clearTable s).irqEn = s.irqEn := rfl
@[simp] theorem clearTable_bufSize (s : State) : (clearTable s).bufSize = s.bufSize := rfl
@[simp] theorem clearTable_freq (s : State) : (clearTable s).freq = s.freq := rfl
@[simp] theorem clearTable_ct (s : State) : (clearTable s).ct = ctEmpty := rfl
@[simp] theorem clearTable_node (s : State) : (clearTable s).node = s.node := rfl
@[simp] theorem clearTable_ibuf (s : State) : (clearTable s).ibuf = s.ibuf := rfl
@[simp] theorem clearTable_obuf (s : State) : (clearTable s).obuf = s.obuf := rfl
@[simp] theorem clearTable_agenda (s : State) : (clearTable s).agenda = s.agenda := rfl
@[simp] theorem clearTable_draws (s : State) : (clearTable s).draws = s.draws := rfl
@[simp] theorem clearTable_hostRead (s : State) : (clearTable s).hostRead = s.hostRead := rfl

/-! ### buildStart -/

@[simp] theorem buildStart_pending (s : State) : (buildStart s).pending = s.pending := rfl
@[simp] theorem buildStart_done (s : State) : (buildStart s).done = s.done := rfl
@[simp] theorem buildStart_err (s : State) : (buildStart s).err = s.err := rfl
@[simp] theorem buildStart_ovr (s : State) : (buildStart s).ovr = s.ovr := rfl
@[simp] theorem buildStart_errCode (s : State) : (buildStart s).errCode = s.errCode := rfl
@[simp] theorem buildStart_treeOk (s : State) : (buildStart s).treeOk = false := rfl
@[simp] theorem buildStart_ctOk (s : State) : (buildStart s).ctOk = false := rfl
@[simp] theorem buildStart_hencOk (s : State) : (buildStart s).hencOk = s.hencOk := rfl
@[simp] theorem buildStart_hdrOk (s : State) : (buildStart s).hdrOk = false := rfl
@[simp] theorem buildStart_errInfo (s : State) : (buildStart s).errInfo = s.errInfo := rfl
@[simp] theorem buildStart_inLen (s : State) : (buildStart s).inLen = s.inLen := rfl
@[simp] theorem buildStart_outLen (s : State) : (buildStart s).outLen = 0#32 := rfl
@[simp] theorem buildStart_payOff (s : State) : (buildStart s).payOff = s.payOff := rfl
@[simp] theorem buildStart_pad (s : State) : (buildStart s).pad = s.pad := rfl
@[simp] theorem buildStart_totalBits (s : State) : (buildStart s).totalBits = s.totalBits := rfl
@[simp] theorem buildStart_numCodes (s : State) : (buildStart s).numCodes = s.numCodes := rfl
@[simp] theorem buildStart_maxLen (s : State) : (buildStart s).maxLen = s.maxLen := rfl
@[simp] theorem buildStart_numNodes (s : State) : (buildStart s).numNodes = s.numNodes := rfl
@[simp] theorem buildStart_irqEn (s : State) : (buildStart s).irqEn = s.irqEn := rfl
@[simp] theorem buildStart_bufSize (s : State) : (buildStart s).bufSize = s.bufSize := rfl
@[simp] theorem buildStart_freq (s : State) : (buildStart s).freq = s.freq := rfl
@[simp] theorem buildStart_ct (s : State) : (buildStart s).ct = s.ct := rfl
@[simp] theorem buildStart_node (s : State) : (buildStart s).node = s.node := rfl
@[simp] theorem buildStart_ibuf (s : State) : (buildStart s).ibuf = s.ibuf := rfl
@[simp] theorem buildStart_obuf (s : State) : (buildStart s).obuf = s.obuf := rfl
@[simp] theorem buildStart_agenda (s : State) : (buildStart s).agenda = s.agenda := rfl
@[simp] theorem buildStart_draws (s : State) : (buildStart s).draws = s.draws := rfl
@[simp] theorem buildStart_hostRead (s : State) : (buildStart s).hostRead = s.hostRead := rfl

/-! ### extractStart -/

@[simp] theorem extractStart_pending (s : State) : (extractStart s).pending = s.pending := rfl
@[simp] theorem extractStart_done (s : State) : (extractStart s).done = s.done := rfl
@[simp] theorem extractStart_err (s : State) : (extractStart s).err = s.err := rfl
@[simp] theorem extractStart_ovr (s : State) : (extractStart s).ovr = s.ovr := rfl
@[simp] theorem extractStart_errCode (s : State) : (extractStart s).errCode = s.errCode := rfl
@[simp] theorem extractStart_treeOk (s : State) : (extractStart s).treeOk = s.treeOk := rfl
@[simp] theorem extractStart_ctOk (s : State) : (extractStart s).ctOk = false := rfl
@[simp] theorem extractStart_hencOk (s : State) : (extractStart s).hencOk = s.hencOk := rfl
@[simp] theorem extractStart_hdrOk (s : State) : (extractStart s).hdrOk = false := rfl
@[simp] theorem extractStart_errInfo (s : State) : (extractStart s).errInfo = s.errInfo := rfl
@[simp] theorem extractStart_inLen (s : State) : (extractStart s).inLen = s.inLen := rfl
@[simp] theorem extractStart_outLen (s : State) : (extractStart s).outLen = s.outLen := rfl
@[simp] theorem extractStart_payOff (s : State) : (extractStart s).payOff = s.payOff := rfl
@[simp] theorem extractStart_pad (s : State) : (extractStart s).pad = s.pad := rfl
@[simp] theorem extractStart_totalBits (s : State) :
    (extractStart s).totalBits = s.totalBits := rfl
@[simp] theorem extractStart_numCodes (s : State) : (extractStart s).numCodes = 0#9 := rfl
@[simp] theorem extractStart_maxLen (s : State) : (extractStart s).maxLen = 0#4 := rfl
@[simp] theorem extractStart_numNodes (s : State) : (extractStart s).numNodes = s.numNodes := rfl
@[simp] theorem extractStart_irqEn (s : State) : (extractStart s).irqEn = s.irqEn := rfl
@[simp] theorem extractStart_bufSize (s : State) : (extractStart s).bufSize = s.bufSize := rfl
@[simp] theorem extractStart_freq (s : State) : (extractStart s).freq = s.freq := rfl
@[simp] theorem extractStart_ct (s : State) : (extractStart s).ct = ctEmpty := rfl
@[simp] theorem extractStart_node (s : State) : (extractStart s).node = s.node := rfl
@[simp] theorem extractStart_ibuf (s : State) : (extractStart s).ibuf = s.ibuf := rfl
@[simp] theorem extractStart_obuf (s : State) : (extractStart s).obuf = s.obuf := rfl
@[simp] theorem extractStart_agenda (s : State) : (extractStart s).agenda = s.agenda := rfl
@[simp] theorem extractStart_draws (s : State) : (extractStart s).draws = s.draws := rfl
@[simp] theorem extractStart_hostRead (s : State) : (extractStart s).hostRead = s.hostRead := rfl

/-! ### hdecStart -/

@[simp] theorem hdecStart_pending (s : State) : (hdecStart s).pending = s.pending := rfl
@[simp] theorem hdecStart_done (s : State) : (hdecStart s).done = s.done := rfl
@[simp] theorem hdecStart_err (s : State) : (hdecStart s).err = s.err := rfl
@[simp] theorem hdecStart_ovr (s : State) : (hdecStart s).ovr = s.ovr := rfl
@[simp] theorem hdecStart_errCode (s : State) : (hdecStart s).errCode = s.errCode := rfl
@[simp] theorem hdecStart_treeOk (s : State) : (hdecStart s).treeOk = s.treeOk := rfl
@[simp] theorem hdecStart_ctOk (s : State) : (hdecStart s).ctOk = false := rfl
@[simp] theorem hdecStart_hencOk (s : State) : (hdecStart s).hencOk = s.hencOk := rfl
@[simp] theorem hdecStart_hdrOk (s : State) : (hdecStart s).hdrOk = false := rfl
@[simp] theorem hdecStart_errInfo (s : State) : (hdecStart s).errInfo = s.errInfo := rfl
@[simp] theorem hdecStart_inLen (s : State) : (hdecStart s).inLen = s.inLen := rfl
@[simp] theorem hdecStart_outLen (s : State) : (hdecStart s).outLen = 0#32 := rfl
@[simp] theorem hdecStart_payOff (s : State) : (hdecStart s).payOff = s.payOff := rfl
@[simp] theorem hdecStart_pad (s : State) : (hdecStart s).pad = s.pad := rfl
@[simp] theorem hdecStart_totalBits (s : State) : (hdecStart s).totalBits = s.totalBits := rfl
@[simp] theorem hdecStart_numCodes (s : State) : (hdecStart s).numCodes = 0#9 := rfl
@[simp] theorem hdecStart_maxLen (s : State) : (hdecStart s).maxLen = 0#4 := rfl
@[simp] theorem hdecStart_numNodes (s : State) : (hdecStart s).numNodes = s.numNodes := rfl
@[simp] theorem hdecStart_irqEn (s : State) : (hdecStart s).irqEn = s.irqEn := rfl
@[simp] theorem hdecStart_bufSize (s : State) : (hdecStart s).bufSize = s.bufSize := rfl
@[simp] theorem hdecStart_freq (s : State) : (hdecStart s).freq = s.freq := rfl
@[simp] theorem hdecStart_ct (s : State) : (hdecStart s).ct = ctEmpty := rfl
@[simp] theorem hdecStart_node (s : State) : (hdecStart s).node = s.node := rfl
@[simp] theorem hdecStart_ibuf (s : State) : (hdecStart s).ibuf = s.ibuf := rfl
@[simp] theorem hdecStart_obuf (s : State) : (hdecStart s).obuf = s.obuf := rfl
@[simp] theorem hdecStart_agenda (s : State) : (hdecStart s).agenda = s.agenda := rfl
@[simp] theorem hdecStart_draws (s : State) : (hdecStart s).draws = s.draws := rfl
@[simp] theorem hdecStart_hostRead (s : State) : (hdecStart s).hostRead = s.hostRead := rfl

/-! ### returnData -/

@[simp] theorem returnData_pending (v : Word) (s : State) :
    (returnData v s).pending = s.pending := rfl
@[simp] theorem returnData_done (v : Word) (s : State) : (returnData v s).done = s.done := rfl
@[simp] theorem returnData_err (v : Word) (s : State) : (returnData v s).err = s.err := rfl
@[simp] theorem returnData_ovr (v : Word) (s : State) : (returnData v s).ovr = s.ovr := rfl
@[simp] theorem returnData_errCode (v : Word) (s : State) :
    (returnData v s).errCode = s.errCode := rfl
@[simp] theorem returnData_treeOk (v : Word) (s : State) :
    (returnData v s).treeOk = s.treeOk := rfl
@[simp] theorem returnData_ctOk (v : Word) (s : State) : (returnData v s).ctOk = s.ctOk := rfl
@[simp] theorem returnData_hencOk (v : Word) (s : State) :
    (returnData v s).hencOk = s.hencOk := rfl
@[simp] theorem returnData_hdrOk (v : Word) (s : State) : (returnData v s).hdrOk = s.hdrOk := rfl
@[simp] theorem returnData_errInfo (v : Word) (s : State) :
    (returnData v s).errInfo = s.errInfo := rfl
@[simp] theorem returnData_inLen (v : Word) (s : State) : (returnData v s).inLen = s.inLen := rfl
@[simp] theorem returnData_outLen (v : Word) (s : State) :
    (returnData v s).outLen = s.outLen := rfl
@[simp] theorem returnData_payOff (v : Word) (s : State) :
    (returnData v s).payOff = s.payOff := rfl
@[simp] theorem returnData_pad (v : Word) (s : State) : (returnData v s).pad = s.pad := rfl
@[simp] theorem returnData_totalBits (v : Word) (s : State) :
    (returnData v s).totalBits = s.totalBits := rfl
@[simp] theorem returnData_numCodes (v : Word) (s : State) :
    (returnData v s).numCodes = s.numCodes := rfl
@[simp] theorem returnData_maxLen (v : Word) (s : State) :
    (returnData v s).maxLen = s.maxLen := rfl
@[simp] theorem returnData_numNodes (v : Word) (s : State) :
    (returnData v s).numNodes = s.numNodes := rfl
@[simp] theorem returnData_irqEn (v : Word) (s : State) : (returnData v s).irqEn = s.irqEn := rfl
@[simp] theorem returnData_bufSize (v : Word) (s : State) :
    (returnData v s).bufSize = s.bufSize := rfl
@[simp] theorem returnData_freq (v : Word) (s : State) : (returnData v s).freq = s.freq := rfl
@[simp] theorem returnData_ct (v : Word) (s : State) : (returnData v s).ct = s.ct := rfl
@[simp] theorem returnData_node (v : Word) (s : State) : (returnData v s).node = s.node := rfl
@[simp] theorem returnData_ibuf (v : Word) (s : State) : (returnData v s).ibuf = s.ibuf := rfl
@[simp] theorem returnData_obuf (v : Word) (s : State) : (returnData v s).obuf = s.obuf := rfl
@[simp] theorem returnData_agenda (v : Word) (s : State) :
    (returnData v s).agenda = s.agenda := rfl
@[simp] theorem returnData_draws (v : Word) (s : State) : (returnData v s).draws = s.draws := rfl
@[simp] theorem returnData_hostRead (v : Word) (s : State) :
    (returnData v s).hostRead = some v := rfl

/-! ### nextDraw -/

@[simp] theorem nextDraw_pending (s : State) : (nextDraw s).pending = s.pending := rfl
@[simp] theorem nextDraw_done (s : State) : (nextDraw s).done = s.done := rfl
@[simp] theorem nextDraw_err (s : State) : (nextDraw s).err = s.err := rfl
@[simp] theorem nextDraw_ovr (s : State) : (nextDraw s).ovr = s.ovr := rfl
@[simp] theorem nextDraw_errCode (s : State) : (nextDraw s).errCode = s.errCode := rfl
@[simp] theorem nextDraw_treeOk (s : State) : (nextDraw s).treeOk = s.treeOk := rfl
@[simp] theorem nextDraw_ctOk (s : State) : (nextDraw s).ctOk = s.ctOk := rfl
@[simp] theorem nextDraw_hencOk (s : State) : (nextDraw s).hencOk = s.hencOk := rfl
@[simp] theorem nextDraw_hdrOk (s : State) : (nextDraw s).hdrOk = s.hdrOk := rfl
@[simp] theorem nextDraw_errInfo (s : State) : (nextDraw s).errInfo = s.errInfo := rfl
@[simp] theorem nextDraw_inLen (s : State) : (nextDraw s).inLen = s.inLen := rfl
@[simp] theorem nextDraw_outLen (s : State) : (nextDraw s).outLen = s.outLen := rfl
@[simp] theorem nextDraw_payOff (s : State) : (nextDraw s).payOff = s.payOff := rfl
@[simp] theorem nextDraw_pad (s : State) : (nextDraw s).pad = s.pad := rfl
@[simp] theorem nextDraw_totalBits (s : State) : (nextDraw s).totalBits = s.totalBits := rfl
@[simp] theorem nextDraw_numCodes (s : State) : (nextDraw s).numCodes = s.numCodes := rfl
@[simp] theorem nextDraw_maxLen (s : State) : (nextDraw s).maxLen = s.maxLen := rfl
@[simp] theorem nextDraw_numNodes (s : State) : (nextDraw s).numNodes = s.numNodes := rfl
@[simp] theorem nextDraw_irqEn (s : State) : (nextDraw s).irqEn = s.irqEn := rfl
@[simp] theorem nextDraw_bufSize (s : State) : (nextDraw s).bufSize = s.bufSize := rfl
@[simp] theorem nextDraw_freq (s : State) : (nextDraw s).freq = s.freq := rfl
@[simp] theorem nextDraw_ct (s : State) : (nextDraw s).ct = s.ct := rfl
@[simp] theorem nextDraw_node (s : State) : (nextDraw s).node = s.node := rfl
@[simp] theorem nextDraw_ibuf (s : State) : (nextDraw s).ibuf = s.ibuf := rfl
@[simp] theorem nextDraw_obuf (s : State) : (nextDraw s).obuf = s.obuf := rfl
@[simp] theorem nextDraw_agenda (s : State) : (nextDraw s).agenda = s.agenda := rfl
@[simp] theorem nextDraw_draws (s : State) : (nextDraw s).draws = s.draws + 1 := rfl
@[simp] theorem nextDraw_hostRead (s : State) : (nextDraw s).hostRead = s.hostRead := rfl

/-- A busy read of an unspecified location: the counter moves, and the host gets the draw (R270). -/
theorem returnBusyDraw_eq (space : Space) (address : Nat) (mask : Word) (s : State) :
    returnBusyDraw space address mask s =
      { s with
        draws := s.draws + 1
        hostRead := some (Config.freeWord (s.draws + 1) space address &&& mask) } := rfl

end Sys2Proof.Machine
end

