-- ==== Sys2Proof/Laws/Memory.lean ====
section
/-!
SUPPORT. The laws of the byte memories: a read after a write, the canonical form kept by every write,
and what the buffers' operations do, each said once.
-/

namespace Sys2Proof.Machine

@[simp] theorem Memory.read_nil (a : Nat) : Memory.read [] a = none := rfl

theorem Memory.read_cons (b : Nat) (v : Byte) (m : Memory) (a : Nat) :
    Memory.read ((b, v) :: m) a = if b = a then some v else Memory.read m a := rfl

/-- A read of the offset just written gives the byte written. -/
@[simp] theorem Memory.read_write_same (m : Memory) (a : Nat) (v : Byte) :
    (m.write a v).read a = some v := by
  induction m with
  | nil => simp [Memory.write, Memory.read_cons]
  | cons c m ih =>
    obtain ⟨b, w⟩ := c
    simp only [Memory.write]
    split
    · simp [Memory.read_cons]
    · split
      · simp [Memory.read_cons]
      · rename_i h₁ h₂
        simp [Memory.read_cons, ih, Ne.symm h₂]

/-- A write leaves every other offset as it was. -/
theorem Memory.read_write_other (m : Memory) {a b : Nat} (v : Byte) (h : b ≠ a) :
    (m.write a v).read b = m.read b := by
  induction m with
  | nil => simp [Memory.write, Memory.read_cons, Ne.symm h]
  | cons c m ih =>
    obtain ⟨d, w⟩ := c
    simp only [Memory.write]
    split
    · simp [Memory.read_cons, Ne.symm h]
    · split
      · rename_i h₁ h₂
        subst h₂
        simp [Memory.read_cons, Ne.symm h]
      · simp [Memory.read_cons, ih]

theorem Memory.read_write (m : Memory) (a b : Nat) (v : Byte) :
    (m.write a v).read b = if b = a then some v else m.read b := by
  by_cases h : b = a
  · subst h; simp
  · simp [h, Memory.read_write_other m v h]

/-- The offsets a write lists: the one written, and those listed before. -/
theorem Memory.mem_write {m : Memory} {a : Nat} {v : Byte} {c : Host.Cell}
    (h : c ∈ m.write a v) : c = (a, v) ∨ c ∈ m := by
  induction m with
  | nil => simpa [Memory.write] using h
  | cons d m ih =>
    obtain ⟨b, w⟩ := d
    simp only [Memory.write] at h
    split at h
    · simpa using h
    · split at h
      · simp only [List.mem_cons] at h ⊢
        tauto
      · simp only [List.mem_cons] at h ⊢
        rcases h with h | h
        · exact .inr (.inl h)
        · exact (ih h).imp id .inr

/-- Every memory operation keeps the canonical form: there is one that writes. -/
theorem Memory.write_wf {m : Memory} (a : Nat) (v : Byte) (h : m.wf) : (m.write a v).wf := by
  refine ⟨?_, fun c _ => by simp [Memory.unlisted]⟩
  obtain ⟨h, -⟩ := h
  induction m with
  | nil => simp [Memory.write]
  | cons d m ih =>
    obtain ⟨b, w⟩ := d
    obtain ⟨hb, hm⟩ := List.pairwise_cons.mp h
    simp only [Memory.write]
    split
    · rename_i hab
      refine List.pairwise_cons.mpr ⟨fun c hc => ?_, h⟩
      rcases List.mem_cons.mp hc with rfl | hc
      · exact hab
      · exact Nat.lt_trans hab (hb c hc)
    · split
      · rename_i h₁ h₂
        subst h₂
        exact List.pairwise_cons.mpr ⟨hb, hm⟩
      · rename_i h₁ h₂
        refine List.pairwise_cons.mpr ⟨fun c hc => ?_, ih hm⟩
        rcases Memory.mem_write hc with rfl | hc
        · show b < a
          omega
        · exact hb c hc

/-- The empty memory is in canonical form. -/
theorem Memory.nil_wf : Memory.wf [] := ⟨List.Pairwise.nil, fun _ h => by cases h⟩

/-- The buffers are in canonical form right after reset. -/
theorem State.reset_buffers_wf : State.reset.ibuf.wf ∧ State.reset.obuf.wf :=
  ⟨Memory.nil_wf, Memory.nil_wf⟩

/-- A write below a bound keeps every listed offset below it. -/
theorem Memory.write_below {m : Memory} {a n : Nat} {v : Byte} (ha : a < n)
    (h : ∀ c ∈ m, c.1 < n) : ∀ c ∈ m.write a v, c.1 < n := by
  intro c hc
  rcases Memory.mem_write hc with rfl | hc
  · exact ha
  · exact h c hc

/-- A write never unlists an offset. -/
theorem Memory.read_write_isSome {m : Memory} {a b : Nat} {v : Byte} (h : m.read b ≠ none) :
    (m.write a v).read b ≠ none := by
  rw [Memory.read_write]
  split <;> simp_all

/-! ### The engine's accesses -/

/-- What `memRead` can do: the byte that is listed, the state unchanged, or the fault. -/
theorem memRead_eq_ok {a : Nat} {s t : State} {v : Byte} :
    memRead a s = .ok v t ↔ s.ibuf.read a = some v ∧ t = s := by
  unfold memRead
  cases h : s.ibuf.read a <;> simp [eq_comm]

theorem memRead_of_read {a : Nat} {s : State} {v : Byte} (h : s.ibuf.read a = some v) :
    memRead a s = .ok v s := by simp [memRead, h]

theorem memRead_ne_raise {a : Nat} {s t : State} {e : ErrCode} {w : Word} :
    memRead a s ≠ .raise e w t := by
  unfold memRead
  cases s.ibuf.read a <;> simp

/-- What `emitOut` can do: one byte stored below BUF_BYTES, or OUTPUT_OVERFLOW with OUT_LEN = 0
(40_control R112). -/
theorem emitOut_cases (q : Nat) (v : Byte) (s : State) :
    (q < s.bufSize.toNat ∧ emitOut q v s = .ok () { s with obuf := s.obuf.write q v }) ∨
      (s.bufSize.toNat ≤ q ∧
        emitOut q v s = .raise .outputOverflow s.bufSize { s with outLen := 0#32 }) := by
  unfold emitOut
  by_cases h : q ≥ s.bufSize.toNat
  · exact .inr ⟨h, by simp [h]⟩
  · exact .inl ⟨by omega, by simp [h]⟩

theorem emitOut_of_lt {q : Nat} {v : Byte} {s : State} (h : q < s.bufSize.toNat) :
    emitOut q v s = .ok () { s with obuf := s.obuf.write q v } := by
  simp [emitOut, Nat.not_le.mpr h]

theorem emitOut_of_ge {q : Nat} {v : Byte} {s : State} (h : s.bufSize.toNat ≤ q) :
    emitOut q v s = .raise .outputOverflow s.bufSize { s with outLen := 0#32 } := by
  simp [emitOut, h]

/-! ### How parts of a body are put together -/

@[simp] theorem Exit.bind_ok {α β : Type} (a : α) (s : State) (k : α → State → Exit β) :
    (Exit.ok a s).bind k = k a s := rfl

@[simp] theorem Exit.bind_raise {α β : Type} (e : ErrCode) (w : Word) (s : State)
    (k : α → State → Exit β) : (Exit.raise e w s).bind k = .raise e w s := rfl

@[simp] theorem Exit.bind_fault {α β : Type} (f : Fault) (k : α → State → Exit β) :
    (Exit.fault f : Exit α).bind k = .fault f := rfl

/-- A sequence ends normally exactly when both parts do. -/
theorem Exit.bind_eq_ok {α β : Type} {x : Exit α} {k : α → State → Exit β} {b : β} {t : State} :
    x.bind k = .ok b t ↔ ∃ a s, x = .ok a s ∧ k a s = .ok b t := by
  cases x <;> simp [Exit.bind]

/-- A sequence raises exactly when its first part does, or its second part after it. -/
theorem Exit.bind_eq_raise {α β : Type} {x : Exit α} {k : α → State → Exit β} {e : ErrCode}
    {w : Word} {t : State} :
    x.bind k = .raise e w t ↔
      x = .raise e w t ∨ ∃ a s, x = .ok a s ∧ k a s = .raise e w t := by
  cases x <;> simp [Exit.bind]

/-- A sequence faults exactly when its first part does, or its second part after it. -/
theorem Exit.bind_eq_fault {α β : Type} {x : Exit α} {k : α → State → Exit β} {f : Fault} :
    x.bind k = .fault f ↔ x = .fault f ∨ ∃ a s, x = .ok a s ∧ k a s = .fault f := by
  cases x <;> simp [Exit.bind]

@[simp] theorem finish_ok (u : Unit) (s : State) : finish (.ok u s) = .next (complete s) := rfl

@[simp] theorem finish_raise (e : ErrCode) (w : Word) (s : State) :
    finish (.raise e w s) = .next (raiseError e w s) := rfl

@[simp] theorem finish_fault (f : Fault) : finish (.fault f) = .fault f := rfl

/-- `Complete(w)` answers a next state exactly when its body does not fault (40_control R106). -/
theorem finish_eq_next {x : Exit Unit} {t : State} :
    finish x = .next t ↔
      (∃ s, x = .ok () s ∧ t = complete s) ∨ ∃ e w s, x = .raise e w s ∧ t = raiseError e w s := by
  cases x <;> simp [eq_comm]

/-- What the sequencing check can do (40_control R109). -/
theorem requireFlag_true (i : Instr) (s : State) (body : Exit Unit) :
    requireFlag true i s body = body := rfl

theorem requireFlag_false (i : Instr) (s : State) (body : Exit Unit) :
    requireFlag false i s body = .raise .sequenceError ((opOf i).setWidth 32) s := rfl

/-- What the length check can do (40_control R110). -/
theorem checkLength_of_le {s : State} (body : Exit Unit) (h : s.inLen.toNat ≤ s.bufSize.toNat) :
    checkLength s body = body := by simp [checkLength, Nat.not_lt.mpr h]

theorem checkLength_of_gt {s : State} (body : Exit Unit) (h : s.bufSize.toNat < s.inLen.toNat) :
    checkLength s body = .raise .badLength s.inLen s := by simp [checkLength, h]

/-- `emitList` within the buffer: the bytes at ascending offsets, and nothing else changed. -/
theorem emitList_of_le {vs : List Byte} {q : Nat} {s : State}
    (h : q + vs.length ≤ s.bufSize.toNat) :
    ∃ m, emitList q vs s = .ok (q + vs.length) { s with obuf := m } ∧ holds m q vs ∧
      sameOutside s.obuf m q (q + vs.length) := by
  induction vs generalizing q s with
  | nil => exact ⟨s.obuf, by simp [emitList], by intro i hi; simp at hi, fun a _ => rfl⟩
  | cons v vs ih =>
    simp only [List.length_cons] at h
    have hq : q < s.bufSize.toNat := by omega
    obtain ⟨m, h₁, h₂, h₃⟩ :=
      ih (q := q + 1) (s := { s with obuf := s.obuf.write q v }) (by simpa using by omega)
    refine ⟨m, ?_, ?_, ?_⟩
    · simp only [emitList, emitOut_of_lt hq, Exit.bind_ok, h₁, List.length_cons]
      congr 1; omega
    · intro i hi
      cases i with
      | zero =>
        have := h₃ q (by omega)
        simpa using this
      | succ i =>
        have := h₂ i (by simpa using hi)
        simpa [Nat.add_assoc, Nat.add_comm 1 i] using this
    · intro a ha
      simp only [List.length_cons] at ha
      rw [h₃ a (by omega)]
      exact Memory.read_write_other _ _ (by omega)

end Sys2Proof.Machine
end

