-- ==== Sys2Proof/Laws/Arrays.lean ====
section
/-!
SUPPORT. The laws of the arrays CT, FREQ and NODE (a read after a write), of BUILD's list of nodes, and
what the engine's turn is.
-/

namespace Sys2Proof.Machine

/-! ### CT and FREQ -/

theorem ctAt_ctSet (ct : Vector CtEntry 256) (x y : Byte) (e : CtEntry) :
    ctAt (ctSet ct x e) y = if y = x then e else ctAt ct y := by
  simp only [ctAt, ctSet, Vector.getElem_set]
  by_cases h : y = x
  · simp [h]
  · rw [if_neg fun h' => h (BitVec.eq_of_toNat_eq h'.symm), if_neg h]

@[simp] theorem ctAt_ctEmpty (sym : Byte) : ctAt ctEmpty sym = CtEntry.empty := by
  simp [ctAt, ctEmpty]

theorem freqAt_freqSet (freq : Vector FreqEntry 256) (x y : Byte) (e : FreqEntry) :
    freqAt (freqSet freq x e) y = if y = x then e else freqAt freq y := by
  simp only [freqAt, freqSet, Vector.getElem_set]
  by_cases h : y = x
  · simp [h]
  · rw [if_neg fun h' => h (BitVec.eq_of_toNat_eq h'.symm), if_neg h]

/-! ### NODE -/

theorem overlay_getElem? (ns old : List Node) (i : Nat) (h : i < old.length) :
    (overlay ns old)[i]? = if i < ns.length then ns[i]? else old[i]? := by
  induction ns generalizing old i with
  | nil => simp [overlay]
  | cons n ns ih =>
    cases old with
    | nil => simp at h
    | cons o old =>
      cases i with
      | zero => simp [overlay]
      | succ i => simp [overlay, ih old i (by simpa using h)]

/-- A node of the store after a list of nodes was written: the list's, or the old one beyond it. -/
theorem nodeAt_storeNodes (nodes : List Node) (node : Vector Node 511) {i : Nat} (h : i < 511) :
    nodeAt (storeNodes nodes node) i =
      if i < nodes.length then nodes[i]?.getD (.leaf 0#32 0#8) else nodeAt node i := by
  have hl : i < node.toList.length := by simpa using h
  have := overlay_getElem? nodes node.toList i hl
  simp only [nodeAt, storeNodes]
  rw [show (⟨(overlay nodes node.toList).toArray, by simp [overlay_length]⟩ : Vector Node 511)[i]? =
    (overlay nodes node.toList)[i]? by simp, this]
  split <;> simp

/-! ### Merging -/

@[simp] theorem Merged.prepend_tree (nodes more : List Node) :
    (Merged.tree more).prepend nodes = .tree (nodes ++ more) := rfl

@[simp] theorem Merged.prepend_overflow (nodes more : List Node) :
    (Merged.overflow more).prepend nodes = .overflow (nodes ++ more) := rfl

theorem QEntry.before_iff (x y : QEntry) :
    x.before y = true ↔
      x.weight.toNat < y.weight.toNat ∨ (x.weight.toNat = y.weight.toNat ∧ x.idx < y.idx) := by
  simp [QEntry.before, BitVec.toNat_eq]

@[simp] theorem extractMin_eq_none {q : List QEntry} : extractMin q = none ↔ q = [] := by
  cases q with
  | nil => simp [extractMin]
  | cons e q =>
    simp only [extractMin]
    split
    · simp
    · split <;> simp

/-- An extraction takes one element off Q: Q is that element and the rest, none of which comes before
it (R122). -/
theorem extractMin_spec {q rest : List QEntry} {m : QEntry} (h : extractMin q = some (m, rest)) :
    q.Perm (m :: rest) ∧ ∀ x ∈ rest, x.before m = false := by
  induction q generalizing m rest with
  | nil => cases h
  | cons e q ih =>
    simp only [extractMin] at h
    split at h
    · rename_i hq
      cases h
      exact ⟨by simp [extractMin_eq_none.mp hq], fun x hx => by cases hx⟩
    · rename_i m' rest' hq
      obtain ⟨hp, hl⟩ := ih hq
      split at h <;> rename_i he <;> cases h
      · refine ⟨.refl _, fun x hx => ?_⟩
        rw [Bool.eq_false_iff, Ne, QEntry.before_iff]
        rw [QEntry.before_iff] at he
        rcases List.mem_cons.mp (hp.mem_iff.mp hx) with rfl | hx
        · omega
        · have := hl x hx
          rw [Bool.eq_false_iff, Ne, QEntry.before_iff] at this
          omega
      · refine ⟨(hp.cons e).trans (.swap _ _ _), fun x hx => ?_⟩
        rcases List.mem_cons.mp hx with rfl | hx
        · simpa using he
        · exact hl x hx

/-! ### The engine's turn -/

/-- On the engine's turn the step is the engine's, with its entry taken off the agenda. -/
theorem step_of_engineTurn {s : State} {rest : List Event} (h : engineTurn s rest) :
    step s = engineStep { s with agenda := rest } := by
  rcases h with ⟨h, rfl⟩ | h
  · simp only [step, h]
    exact congrArg engineStep (by rw [← h])
  · simp [step, h, applyEvent]

end Sys2Proof.Machine
end

