-- ==== Sys2Proof/Laws/PerInstr.lean ====
section
/-!
SUPPORT. Statements made per command. `EncodedForm`: the word of a command is legal, its reserved bits
31:4 are clear, and its OP is the command's own (30_encoding R70, R78).
-/

namespace Sys2Proof.Laws.EncodedForm

/-- What R70 and R78 ask of a command's word. -/
def Statement (i : Instr) : Prop :=
  i.wellFormed = true ∧ wellFormedWord (encode i) = true ∧ rsvField (encode i) = 0#28 ∧
    opField (encode i) = opOf i

theorem nop : Statement .nop := by unfold Statement; decide

theorem build : Statement .build := by unfold Statement; decide

theorem extract : Statement .extract := by unfold Statement; decide

theorem henc : Statement .henc := by unfold Statement; decide

theorem pack : Statement .pack := by unfold Statement; decide

theorem hdec : Statement .hdec := by unfold Statement; decide

theorem decode : Statement .decode := by unfold Statement; decide

theorem clear : Statement .clear := by unfold Statement; decide

end Sys2Proof.Laws.EncodedForm
end

