-- ==== Sys2Proof/Tests/Slice0.lean ====
section
/-!
SUPPORT. The model's own tests. Expected values come from spec/95_test_vectors.md, whose row each test
names, or are computed by hand from the rule it names. After them, one witness per statement that has
hypotheses: concrete states and operands that meet all of them together.
-/

namespace Sys2Proof.Tests

set_option Elab.async false

open Sys2Proof Sys2Proof.Machine

/-! ### Words -/

/-- 30_encoding R70: bit 4 set is a reserved bit set, whatever OP is. -/
theorem test_wellFormed_refuses_reserved_bit :
    reservedBitsClear 0x00000010#32 = false ∧ wellFormedWord 0x00000010#32 = false ∧
      reservedBitsClear 0x80000007#32 = false ∧ wellFormedWord 0x80000007#32 = false := by decide

/-- R78: OP 0x8 and OP 0xF are reserved; OP 0x7 is the last command. -/
theorem test_wellFormed_refuses_reserved_opcode :
    opcodeAssigned 0x00000008#32 = false ∧ wellFormedWord 0x00000008#32 = false ∧
      opcodeAssigned 0x0000000F#32 = false ∧ wellFormedWord 0x0000000F#32 = false ∧
      wellFormedWord 0x00000007#32 = true := by decide

/-- R70, R78: `RSV = 0` above, OP in bits 3:0. -/
theorem test_decode_nop : decode 0b00000000000000000000000000000000#32 = .ok .nop := rfl
theorem test_decode_build : decode 0b00000000000000000000000000000001#32 = .ok .build := rfl
theorem test_decode_extract : decode 0b00000000000000000000000000000010#32 = .ok .extract := rfl
theorem test_decode_henc : decode 0b00000000000000000000000000000011#32 = .ok .henc := rfl
theorem test_decode_pack : decode 0b00000000000000000000000000000100#32 = .ok .pack := rfl
theorem test_decode_hdec : decode 0b00000000000000000000000000000101#32 = .ok .hdec := rfl
theorem test_decode_decode : decode 0b00000000000000000000000000000110#32 = .ok .decode := rfl
theorem test_decode_clear : decode 0b00000000000000000000000000000111#32 = .ok .clear := rfl

theorem test_decodeTableWord : decodeTableWord 32 5 = some .hdec ∧ decodeTableWord 32 9 = none := by
  decide

/-! ### Small states -/

/-- The state a next outcome carries. -/
def stateOf : Host.Outcome State Fault Refusal → State
  | .next s => s
  | .fault _ => .reset
  | .refused _ => .reset

/-- The fault an outcome stops with. -/
def faultOf : Host.Outcome State Fault Refusal → Option Fault
  | .next _ => none
  | .fault f => some f
  | .refused _ => none

theorem fault_of {o : Host.Outcome State Fault Refusal} {f : Fault} (h : faultOf o = some f) :
    o = .fault f := by
  cases o <;> simp_all [faultOf]

theorem next_of {o : Host.Outcome State Fault Refusal} (h : isNext o = true) :
    o = .next (stateOf o) := by
  cases o <;> simp_all [isNext, stateOf]

/-- FREQ with these counts, every entry written. -/
def freqOf (counts : List (Byte × Word)) : Vector FreqEntry 256 :=
  counts.foldl (fun f x => freqSet f x.1 ⟨x.2, true⟩) (Vector.replicate 256 ⟨0#32, true⟩)

/-- A memory of these bytes from an offset on. -/
def bytesFrom : Nat → List Byte → Memory
  | _, [] => []
  | a, b :: bs => (a, b) :: bytesFrom (a + 1) bs

/-- T1's counts. -/
def sFreq : State :=
  { State.reset with freq := freqOf [(0x41#8, 2#32), (0x42#8, 1#32), (0x43#8, 1#32)] }

/-- V-B1's tree. -/
def sTree : State :=
  { sFreq with
    node := storeNodes
      [.leaf 2#32 0x41#8, .leaf 1#32 0x42#8, .leaf 1#32 0x43#8, .internal 2#32 1#9 2#9,
        .internal 4#32 0#9 3#9] State.reset.node
    numNodes := 5#9, treeOk := true }

/-- V-X1's table. -/
def tableT1 : Vector CtEntry 256 :=
  ctSet (ctSet (ctSet ctEmpty 0x41#8 ⟨true, 1#4, 0x00#8⟩) 0x42#8 ⟨true, 2#4, 0x80#8⟩) 0x43#8
    ⟨true, 2#4, 0xC0#8⟩

/-- After V-X1, with T1's input in IBUF. -/
def sTable : State :=
  { sTree with
    ct := tableT1, numCodes := 3#9, maxLen := 2#4, ctOk := true
    ibuf := bytesFrom 0 [0x41#8, 0x41#8, 0x42#8, 0x43#8], inLen := 4#32 }

/-- V-H1's header. -/
def headerT1 : List Byte :=
  [0x00#8, 0x03#8, 0x01#8, 0x01#8, 0x41#8, 0x00#8, 0x02#8, 0x02#8, 0x42#8, 0x80#8, 0x43#8, 0xC0#8]

/-- After V-H1. -/
def sHenc : State := { sTable with obuf := bytesFrom 0 headerT1, outLen := 12#32, hencOk := true }

/-- A container in IBUF, nothing else. -/
def sContainer (bytes : List Byte) : State :=
  { State.reset with ibuf := bytesFrom 0 bytes, inLen := BitVec.ofNat 32 bytes.length }

/-- T1's container. -/
def containerT1 : List Byte :=
  [0x02#8, 0x03#8, 0x01#8, 0x01#8, 0x41#8, 0x00#8, 0x02#8, 0x02#8, 0x42#8, 0x80#8, 0x43#8, 0xC0#8,
    0x2C#8]

/-- After V-HD1. -/
def sHdec : State :=
  { sContainer containerT1 with
    ct := tableT1, numCodes := 3#9, maxLen := 2#4, payOff := 12#32, pad := 2#3
    ctOk := true, hdrOk := true, done := true }

/-- A one-code table: 0x41 is "0" (T3). -/
def tableA : Vector CtEntry 256 := ctSet ctEmpty 0x41#8 ⟨true, 1#4, 0x00#8⟩

/-- After HDEC of `<pad> 01 01 01 41 00` and these payload bytes. -/
def sOneCode (pad : BitVec 3) (payload : List Byte) : State :=
  { State.reset with
    ibuf := bytesFrom 6 payload, inLen := BitVec.ofNat 32 (6 + payload.length)
    ct := tableA, numCodes := 1#9, maxLen := 1#4, payOff := 6#32, pad := pad
    ctOk := true, hdrOk := true }

/-- The state with this on the agenda. -/
def todo (events : List Event) (s : State) : State := { s with agenda := events }

/-! ### Commands -/

/-- V-C1, after V-H1: NOP keeps HENC_OK. -/
theorem test_nop_keeps_henc_ok : (stateOf (exec .nop sHenc)).statusWord = 0x00070002#32 := by
  decide +kernel

/-- V-B1. -/
theorem test_build_t1 :
    let t := stateOf (exec .build sFreq)
    t.statusWord = 0x00010002#32 ∧ t.numNodes = 5#9 ∧
      (List.range 5).map (nodeAt t.node) = (List.range 5).map (nodeAt sTree.node) := by
  refine ⟨?_, ?_, ?_⟩ <;> decide +kernel

/-- V-B7: the index breaks the tie at weight 3. -/
theorem test_build_tie :
    let t := stateOf (exec .build
      { sFreq with freq := freqOf [(0x10#8, 3#32), (0x20#8, 3#32), (0x30#8, 1#32), (0x40#8, 1#32)] })
    (nodeAt t.node 4, nodeAt t.node 5, nodeAt t.node 6) =
      (.internal 2#32 2#9 3#9, .internal 5#32 4#9 0#9, .internal 8#32 1#9 5#9) := by
  decide +kernel

/-- V-X1. -/
theorem test_extract_t1 :
    let t := stateOf (exec .extract sTree)
    t.statusWord = 0x00030002#32 ∧ t.numCodes = 3#9 ∧ t.maxLen = 2#4 ∧
      (ctAt t.ct 0x41#8).word = 0x80000100#32 ∧ (ctAt t.ct 0x42#8).word = 0x80000280#32 ∧
      (ctAt t.ct 0x43#8).word = 0x800002C0#32 ∧ (ctAt t.ct 0x44#8).word = 0#32 := by
  refine ⟨?_, ?_, ?_, ?_, ?_, ?_, ?_⟩ <;> decide +kernel

/-- V-X2's counts. -/
def sFib : State :=
  { sFreq with
    freq := freqOf [(0#8, 1#32), (1#8, 1#32), (2#8, 2#32), (3#8, 3#32), (4#8, 5#32), (5#8, 8#32),
      (6#8, 13#32), (7#8, 21#32), (8#8, 34#32), (9#8, 55#32)] }

/-- V-X2: the deepest leaf is at depth 9. -/
theorem test_extract_too_deep :
    let t := stateOf (exec .extract (stateOf (exec .build sFib)))
    t.statusWord = 0x00010106#32 ∧ t.errInfo = 0x00000900#32 ∧ t.numCodes = 0#9 := by
  refine ⟨?_, ?_, ?_⟩ <;> decide +kernel

/-- V-H1. -/
theorem test_henc_t1 :
    let t := stateOf (exec .henc sTable)
    t.statusWord = 0x00070002#32 ∧ t.outLen = 12#32 ∧ t.obuf = bytesFrom 0 headerT1 := by
  refine ⟨?_, ?_, ?_⟩ <;> decide +kernel

/-- V-H2. -/
theorem test_henc_without_table :
    let t := stateOf (exec .henc State.reset)
    t.statusWord = 0x00000606#32 ∧ t.errInfo = 3#32 ∧ t.outLen = 0#32 := by
  refine ⟨?_, ?_, ?_⟩ <;> decide +kernel

/-- V-P1. -/
theorem test_pack_t1 :
    let t := stateOf (exec .pack sHenc)
    t.statusWord = 0x00030002#32 ∧ t.outLen = 13#32 ∧ t.pad = 2#3 ∧ t.totalBits = 6#32 ∧
      t.obuf = bytesFrom 0 containerT1 := by
  refine ⟨?_, ?_, ?_, ?_, ?_⟩ <;> decide +kernel

/-- V-P3. -/
theorem test_pack_symbol_not_in_table :
    let t := stateOf (exec .pack
      { sHenc with ibuf := bytesFrom 0 [0x41#8, 0x41#8, 0x42#8, 0x44#8], pad := 5#3 })
    t.statusWord = 0x00030706#32 ∧ t.errInfo = 3#32 ∧ t.outLen = 0#32 ∧ t.pad = 5#3 := by
  refine ⟨?_, ?_, ?_, ?_⟩ <;> decide +kernel

/-- V-HD1. -/
theorem test_hdec_t1 :
    let t := stateOf (exec .hdec (sContainer containerT1))
    t.statusWord = 0x000A0002#32 ∧ validCodes t.ct = validCodes tableT1 ∧ t.numCodes = 3#9 ∧ t.maxLen = 2#4 ∧
      t.payOff = 12#32 ∧ t.pad = 2#3 := by
  refine ⟨?_, ?_, ?_, ?_, ?_, ?_⟩ <;> decide +kernel

/-- V-HD12: "0" is a prefix of "00". -/
theorem test_hdec_prefix_clash :
    let t := stateOf (exec .hdec
      (sContainer [0x00#8, 0x02#8, 0x01#8, 0x01#8, 0x41#8, 0x00#8, 0x01#8, 0x02#8, 0x42#8, 0x00#8]))
    t.statusWord = 0x00000206#32 ∧ t.errInfo = 0x00000A08#32 ∧ validCodes t.ct = [] := by
  refine ⟨?_, ?_, ?_⟩ <;> decide +kernel

/-- V-D1. -/
theorem test_decode_t1 :
    let t := stateOf (exec .decode sHdec)
    t.statusWord = 0x000A0002#32 ∧ t.outLen = 4#32 ∧
      t.obuf = bytesFrom 0 [0x41#8, 0x41#8, 0x42#8, 0x43#8] := by
  refine ⟨?_, ?_, ?_⟩ <;> decide +kernel

/-- V-D6: "1" is no prefix of "0", at bit 4. -/
theorem test_decode_early_stop :
    let t := stateOf (exec .decode (sOneCode 0#3 [0x0F#8]))
    t.statusWord = 0x000A0306#32 ∧ t.errInfo = 4#32 ∧ t.outLen = 0#32 := by
  refine ⟨?_, ?_, ?_⟩ <;> decide +kernel

/-- V-C6. -/
theorem test_clear :
    let t := stateOf (exec .clear sHenc)
    t.statusWord = 0x00000002#32 ∧ t.outLen = 0#32 ∧ t.numNodes = 0#9 ∧ validCodes t.ct = [] ∧
      t.inLen = 4#32 := by
  refine ⟨?_, ?_, ?_, ?_, ?_⟩ <;> decide +kernel

/-! ### The machine around them -/

/-- V-C3: OP 4 with bit 4 set is not PACK. -/
theorem test_illegal_word :
    let t := stateOf (step (State.reset.withFetchWord 32 0x14))
    t.statusWord = 0x00000506#32 ∧ t.errInfo = 0x00000014#32 := by
  refine ⟨?_, ?_⟩ <;> decide +kernel

/-- V-B10: the model faults. -/
theorem test_build_after_reset :
    step (State.reset.withFetchWord 32 1) = .fault (.unwrittenFreq 0) :=
  fault_of (by decide +kernel)

/-- P4, the first schedule: the engine completes NOP before the second write. -/
theorem test_two_commands_engine_first :
    let t := stateOf (play [cmd .nop, .engine, wr 0x0004#13 8#32, .engine] State.reset)
    t.statusWord = 0x00000506#32 ∧ t.errInfo = 8#32 := by
  refine ⟨?_, ?_⟩ <;> decide +kernel

/-- P4, the second schedule: the second write is dropped. -/
theorem test_two_commands_host_first :
    let t := stateOf (play [cmd .nop, wr 0x0004#13 8#32, .engine] State.reset)
    t.statusWord = 0x0000000A#32 ∧ t.errInfo = 0#32 := by
  refine ⟨?_, ?_⟩ <;> decide +kernel

/-- P3: EXTRACT without a tree, irq, and the W1C write of DONE. -/
theorem test_irq_and_write_one_to_clear :
    let s := stateOf (play ([wr 0x0030#13 1#32, cmd .extract] ++ waitDone) State.reset)
    let t := stateOf (play [wr 0x0008#13 2#32] s)
    s.hostRead = some 0x00000606#32 ∧ s.irq = true ∧ s.errInfo = 2#32 ∧
      t.statusWord = 0x00000604#32 ∧ t.irq = false := by
  refine ⟨?_, ?_, ?_, ?_, ?_⟩ <;> decide +kernel

/-- R270, R62: an unspecified OBUF byte repeats while idle, and is drawn anew while busy, twice over. -/
theorem test_busy_reads_draw_anew :
    (stateOf (play [rdb 3] State.reset)).hostRead = some (Config.freeWord 0 .obuf 3 &&& 0xFF#32) ∧
      (stateOf (play [rdb 3, rdb 3] State.reset)).hostRead =
        some (Config.freeWord 0 .obuf 3 &&& 0xFF#32) ∧
      (stateOf (play [rdb 3, cmd .nop, rdb 3] State.reset)).hostRead =
        some (Config.freeWord 1 .obuf 3 &&& 0xFF#32) ∧
      (stateOf (play [rdb 3, cmd .nop, rdb 3, rdb 3] State.reset)).hostRead =
        some (Config.freeWord 2 .obuf 3 &&& 0xFF#32) :=
  ⟨rfl, rfl, rfl, rfl⟩

/-- 60_exceptions R230: every code of its table has in STATUS the number that the table gives it. -/
theorem test_error_code_numbers :
    ∀ x ∈ errCodeTable, x.1.toBits.toNat = x.2 := by decide

/-- P1's end state: the CT and NODE windows. -/
theorem test_windows :
    (stateOf (play [rd 0x0908#13] sTable)).hostRead = some 0x80000280#32 ∧
      (stateOf (play [rd 0x101C#13] sTable)).hostRead = some 0x80000401#32 ∧
      (stateOf (play [rd 0x1020#13] sTable)).hostRead = some 0x00000004#32 ∧
      (stateOf (play [rd 0x1000#13] sTable)).hostRead = some 0x00000002#32 ∧
      (stateOf (play [rd 0x0504#13] sTable)).hostRead = some 0x00000002#32 := by
  refine ⟨?_, ?_, ?_, ?_, ?_⟩ <;> decide +kernel

/-- 44_bit_packer's table of Pack and Unpack: nine 1 bits, and padding values ignored. -/
theorem test_pack_unpack :
    packBits (List.replicate 9 true) = ([0xFF#8, 0x80#8], 7) ∧
      packBits [false, false, true, false, true, true] = ([0x2C#8], 2) ∧
      unpackBits [0x2F#8] 2 = some [false, false, true, false, true, true] ∧
      unpackBits [] 3 = none := by
  decide

/-! ### Witnesses: encoding, reset and the two agents -/

/-- A command word that nothing else on the agenda delays. -/
def sPending (w : Word) (s : State) : State := { s with pending := some w }

theorem sPending_pending (w : Word) (s : State) : (sPending w s).pending = some w := rfl

theorem sPending_agenda (w : Word) (s : State) : (sPending w s).agenda = s.agenda := rfl

theorem todo_agenda (events : List Event) (s : State) : (todo events s).agenda = events := rfl

theorem todo_pending (events : List Event) (s : State) : (todo events s).pending = s.pending := rfl

theorem sHenc_agenda : sHenc.agenda = [] := by decide +kernel

theorem sHenc_pending : sHenc.pending = none := by decide +kernel

theorem witness_StepRunsThePendingCommand :
    (sPending 1#32 State.reset).pending = some 1#32 ∧ decode 1#32 = .ok .build ∧
      (sPending 1#32 State.reset).agenda = [] ∧
      (todo [.engine] (sPending 1#32 State.reset)).agenda = .engine :: [] ∧
      State.reset.pending = none ∧ State.reset.agenda = [] ∧
      (todo [.engine, .reset] State.reset).agenda = .engine :: [.reset] :=
  ⟨rfl, rfl, rfl, rfl, rfl, rfl, rfl⟩

/-- The least word with a reserved bit, and both ends of the reserved opcodes. -/
theorem witness_IllegalWordChangesNothingElse :
    (∀ w, (sPending w sHenc).pending = some w ∧ engineTurn (sPending w sHenc) [] ∧
      engineTurn (todo [.engine, .reset] (sPending w sHenc)) [.reset]) ∧
      (0x00000010#32).extractLsb' 4 28 ≠ 0#28 ∧ (0xFFFFFFFF#32).extractLsb' 4 28 ≠ 0#28 ∧
      8 ≤ ((0x00000008#32).extractLsb' 0 4).toNat ∧ 8 ≤ ((0x0000000F#32).extractLsb' 0 4).toNat := by
  refine ⟨fun w => ⟨sPending_pending w _, .inl ⟨(sPending_agenda w _).trans sHenc_agenda, rfl⟩,
    .inr (todo_agenda _ _)⟩, ?_, ?_, ?_, ?_⟩ <;> simp

theorem witness_CmdWriteIsAcceptedOrDropped :
    (todo [cmd .build] State.reset).agenda = .host (.regWrite 0x0004#13 32 1#32) :: [] ∧
      (todo [cmd .build] State.reset).pending = none ∧
      (todo [cmd .build] (sPending 0#32 State.reset)).agenda =
        .host (.regWrite 0x0004#13 32 1#32) :: [] ∧
      (todo [cmd .build] (sPending 0#32 State.reset)).pending = some 0#32 := by
  refine ⟨?_, ?_, ?_, ?_⟩ <;> rfl

theorem witness_ResetTransitionClearsTheBlock :
    (todo [.reset, .engine] (sPending 4#32 sHenc)).agenda = .reset :: [.engine] := todo_agenda _ _

/-- A legal and an illegal word. -/
theorem witness_CompletionReportsItsOutcome :
    (sPending 4#32 sHenc).pending = some 4#32 ∧ engineTurn (sPending 4#32 sHenc) [] ∧
      step (sPending 4#32 sHenc) = .next (stateOf (step (sPending 4#32 sHenc))) ∧
      engineTurn (todo [.engine, .reset] (sPending 9#32 sHenc)) [.reset] ∧
      step (todo [.engine, .reset] (sPending 9#32 sHenc)) =
        .next (stateOf (step (todo [.engine, .reset] (sPending 9#32 sHenc)))) :=
  ⟨sPending_pending _ _, .inl ⟨(sPending_agenda _ _).trans sHenc_agenda, rfl⟩,
    next_of (by decide +kernel), .inr (todo_agenda _ _), next_of (by decide +kernel)⟩

/-- One state for each way the engine's step can end. -/
theorem witness_EngineStopsOnlyOnUnwrittenInput :
    (∀ w s, (sPending w s).pending = some w) ∧ (sPending 2#32 sTree).descendInv ∧
      engineTurn (todo [.engine] (sPending 2#32 sTree)) [] ∧
      isNext (step (todo [.engine] (sPending 2#32 sTree))) = true ∧
      State.reset.descendInv ∧ engineTurn State.reset [] ∧
      step (sPending 1#32 State.reset) = .fault (.unwrittenFreq 0) ∧
      step (sPending 5#32 { State.reset with inLen := 2#32 }) = .fault (.unwrittenIbuf 0) := by
  refine ⟨fun _ _ => rfl, ?_, .inr (todo_agenda _ _), ?_, ?_, .inl ⟨rfl, rfl⟩, fault_of ?_,
    fault_of ?_⟩ <;> decide +kernel

/-! ### Witnesses: sequencing and frames -/

/-- A length above BUF_BYTES. -/
def tooLong (s : State) : State := { s with inLen := 70000#32 }

theorem witness_ChecksComeBeforeTheBody :
    State.reset.treeOk = false ∧ State.reset.ctOk = false ∧ State.reset.hencOk = false ∧
      State.reset.hdrOk = false ∧
      (tooLong sHenc).bufSize.toNat < (tooLong sHenc).inLen.toNat ∧
      (tooLong sHenc).hencOk = true ∧
      (tooLong sHdec).bufSize.toNat < (tooLong sHdec).inLen.toNat ∧
      (tooLong sHdec).hdrOk = true := by
  decide +kernel

/-- Every command completes on one of these, and HDEC's length is in range. -/
theorem witness_SequencingFlagsFollowTheTable :
    exec .nop sHenc = .next (stateOf (exec .nop sHenc)) ∧
      exec .build sFreq = .next (stateOf (exec .build sFreq)) ∧
      exec .extract sTree = .next (stateOf (exec .extract sTree)) ∧ sTree.treeOk = true ∧
      exec .henc sTable = .next (stateOf (exec .henc sTable)) ∧
      exec .pack sHenc = .next (stateOf (exec .pack sHenc)) ∧
      exec .hdec sHdec = .next (stateOf (exec .hdec sHdec)) ∧
      sHdec.inLen.toNat ≤ sHdec.bufSize.toNat ∧
      exec .decode sHdec = .next (stateOf (exec .decode sHdec)) ∧
      exec .clear sHenc = .next (stateOf (exec .clear sHenc)) := by
  refine ⟨next_of ?_, next_of ?_, next_of ?_, ?_, next_of ?_, next_of ?_, next_of ?_, ?_,
    next_of ?_, next_of ?_⟩ <;> decide +kernel

/-- A container that HDEC rejects. -/
def sBadContainer : State := { sHdec with ibuf := bytesFrom 0 [0x08#8, 0x01#8], inLen := 2#32 }

theorem witness_FrameOfNonStoringCommands :
    exec .nop sHenc = .next (stateOf (exec .nop sHenc)) ∧
      exec .build sFreq = .next (stateOf (exec .build sFreq)) ∧
      exec .extract sTree = .next (stateOf (exec .extract sTree)) ∧
      exec .hdec sHdec = .next (stateOf (exec .hdec sHdec)) ∧
      exec .hdec sBadContainer = .next (stateOf (exec .hdec sBadContainer)) ∧
      (stateOf (exec .hdec sBadContainer)).err = true ∧
      exec .clear sHenc = .next (stateOf (exec .clear sHenc)) := by
  refine ⟨next_of ?_, next_of ?_, next_of ?_, next_of ?_, next_of ?_, ?_, next_of ?_⟩ <;>
    decide +kernel

/-- V-P3's state: the last input byte has no code. -/
def sBadInput : State :=
  { sHenc with ibuf := bytesFrom 0 [0x41#8, 0x41#8, 0x42#8, 0x44#8], pad := 5#3 }

theorem witness_FrameOfStoringCommands :
    exec .henc sTable = .next (stateOf (exec .henc sTable)) ∧
      exec .pack sHenc = .next (stateOf (exec .pack sHenc)) ∧
      (stateOf (exec .pack sHenc)).err = false ∧ sHenc.bufSizeOk ∧
      exec .pack sBadInput = .next (stateOf (exec .pack sBadInput)) ∧
      (stateOf (exec .pack sBadInput)).err = true ∧ sBadInput.tableInv ∧
      exec .decode sHdec = .next (stateOf (exec .decode sHdec)) ∧
      (stateOf (exec .decode sHdec)).err = false ∧
      exec .decode (sOneCode 0#3 [0x0F#8]) = .next (stateOf (exec .decode (sOneCode 0#3 [0x0F#8]))) ∧
      (stateOf (exec .decode (sOneCode 0#3 [0x0F#8]))).err = true := by
  refine ⟨next_of ?_, next_of ?_, ?_, ?_, next_of ?_, ?_, ?_, next_of ?_, ?_, next_of ?_, ?_⟩ <;>
    decide +kernel

/-! ### Witnesses: BUILD and EXTRACT -/

/-- V-B2. -/
theorem witness_EmptyFrequencyTableIsEmptyInput :
    allWritten (freqOf []) ∧ presentSymbols (freqOf []) = [] := by
  refine ⟨?_, ?_⟩ <;> decide +kernel

/-- V-B1, and the greatest single weight (V-B3). -/
theorem witness_BuildCompletes :
    allWritten sFreq.freq ∧ presentSymbols sFreq.freq ≠ [] ∧ totalWeight sFreq.freq ≤ 0xFFFFFFFF ∧
      allWritten (freqOf [(0x7F#8, 0xFFFFFFFF#32)]) ∧
      presentSymbols (freqOf [(0x7F#8, 0xFFFFFFFF#32)]) ≠ [] ∧
      totalWeight (freqOf [(0x7F#8, 0xFFFFFFFF#32)]) ≤ 0xFFFFFFFF := by
  refine ⟨?_, ?_, ?_, ?_, ?_, ?_⟩ <;> decide +kernel

theorem witness_EachMergeTakesTheTwoLeast :
    exec .build sFreq = .next (stateOf (exec .build sFreq)) ∧
      (stateOf (exec .build sFreq)).err = false ∧
      4 < (stateOf (exec .build sFreq)).numNodes.toNat ∧
      nodeAt (stateOf (exec .build sFreq)).node 4 = .internal 4#32 0#9 3#9 := by
  refine ⟨next_of ?_, ?_, ?_, ?_⟩ <;> decide +kernel

theorem witness_SuccessfulBuildIsATree :
    exec .build sFreq = .next (stateOf (exec .build sFreq)) ∧
      (stateOf (exec .build sFreq)).err = false ∧
      3 < (stateOf (exec .build sFreq)).numNodes.toNat - 0 ∧
      nodeAt (stateOf (exec .build sFreq)).node 3 = .internal 2#32 1#9 2#9 ∧
      nodeAt (stateOf (exec .build sFreq)).node 4 = .internal 4#32 0#9 3#9 ∧
      nodeAt (stateOf (exec .build sFreq)).node 0 = .leaf 2#32 0x41#8 := by
  refine ⟨next_of ?_, ?_, ?_, ?_, ?_, ?_⟩ <;> decide +kernel

/-- V-B4: the least sum that is too large. -/
theorem witness_HeavyFrequencyTableIsWeightOverflow :
    let f := freqOf [(0x00#8, 0xFFFFFFFF#32), (0x01#8, 1#32)]
    allWritten f ∧ 2 ≤ (presentSymbols f).length ∧ 0xFFFFFFFF < totalWeight f := by
  refine ⟨?_, ?_, ?_⟩ <;> decide +kernel

/-- The first and the last symbol. -/
theorem witness_BuildFaultsOnUnwrittenFreq :
    (freqAt State.reset.freq 0x00#8).written = false ∧
      (∀ x : Byte, x.toNat < (0x00#8 : Byte).toNat → (freqAt State.reset.freq x).written = true) ∧
      (freqAt (freqSet (freqOf []) 0xFF#8 ⟨0#32, false⟩) 0xFF#8).written = false ∧
      ∀ x : Byte, x.toNat < (0xFF#8 : Byte).toNat →
        (freqAt (freqSet (freqOf []) 0xFF#8 ⟨0#32, false⟩) x).written = true := by
  refine ⟨?_, ?_, ?_, ?_⟩ <;> decide +kernel

theorem witness_ExtractAssignsPathCodes :
    sTree.descendInv ∧ sTree.treeOk = true ∧
      (∀ x ∈ sTree.leafPaths, 1 ≤ x.1.length ∧ x.1.length ≤ 8) ∧
      (sTree.leafPaths.map (·.2)).Nodup ∧ sTree.leafPaths ≠ [] := by
  refine ⟨?_, ?_, ?_, ?_, ?_⟩ <;> decide +kernel

/-- V-X5's tree. -/
def sLeaf : State :=
  { State.reset with
    node := storeNodes [.leaf 7#32 0x5A#8] State.reset.node, numNodes := 1#9, treeOk := true }

theorem witness_SingleLeafGetsCodeZero :
    sLeaf.treeOk = true ∧ nodeAt sLeaf.node sLeaf.root = .leaf 7#32 0x5A#8 := by
  refine ⟨?_, ?_⟩ <;> decide +kernel

/-- V-X2's tree. -/
theorem witness_DeepLeafIsUnsupportedCodeLength :
    (stateOf (exec .build sFib)).descendInv ∧ (stateOf (exec .build sFib)).treeOk = true ∧
      (stateOf (exec .build sFib)).leafPaths.find? (fun x => decide (8 < x.1.length)) =
        some ([true, true, true, true, true, true, true, true, false], 0x00#8) := by
  refine ⟨?_, ?_, ?_⟩ <;> decide +kernel

/-- One symbol present (V-X5's counts). -/
def sOneFreq : State := { State.reset with freq := freqOf [(0x5A#8, 7#32)] }

/-- Three symbols present, and one. -/
theorem witness_BuiltTableIsPrefixFreeAndComplete :
    ∀ s ∈ [sFreq, sOneFreq],
      exec .build s = .next (stateOf (exec .build s)) ∧ (stateOf (exec .build s)).err = false ∧
        exec .extract (stateOf (exec .build s)) =
          .next (stateOf (exec .extract (stateOf (exec .build s)))) ∧
        (stateOf (exec .extract (stateOf (exec .build s)))).err = false := by
  intro s hs
  rcases List.mem_cons.mp hs with rfl | hs
  · refine ⟨next_of ?_, ?_, next_of ?_, ?_⟩ <;> decide +kernel
  · obtain rfl := List.mem_singleton.mp hs
    refine ⟨next_of ?_, ?_, next_of ?_, ?_⟩ <;> decide +kernel

/-- V-B9's counts. -/
def sAllSymbols : State := { State.reset with freq := Vector.replicate 256 ⟨1#32, true⟩ }

/-- BUILD and then EXTRACT both succeed. -/
def buildsAndExtracts (s : State) : Bool :=
  isNext (exec .build s) && !(stateOf (exec .build s)).err &&
    isNext (exec .extract (stateOf (exec .build s))) &&
    !(stateOf (exec .extract (stateOf (exec .build s)))).err

/-- All 256 symbols present. -/
theorem witness_BuiltTableIsPrefixFreeAndComplete_all :
    (presentSymbols sAllSymbols.freq).length = 256 ∧ buildsAndExtracts sAllSymbols = true := by
  refine ⟨?_, ?_⟩ <;> decide +kernel

/-! ### Witnesses: HENC, PACK, HDEC -/

theorem witness_HencWritesTheHeader :
    sTable.ctOk = true ∧ sTable.bufSizeOk ∧ sTable.tableInv := by
  refine ⟨?_, ?_, ?_⟩ <;> decide +kernel

theorem witness_HeaderSizeIsAccountedFor :
    sTable.ctOk = true ∧ sTable.bufSizeOk ∧ sTable.tableInv ∧ sTable.codesInv ∧
      exec .henc sTable = .next (stateOf (exec .henc sTable)) := by
  refine ⟨?_, ?_, ?_, ?_, next_of ?_⟩ <;> decide +kernel

/-- T1's input, and the empty one. -/
theorem witness_PackAppendsThePackedCodes :
    ∀ xs ∈ [[0x41#8, 0x41#8, 0x42#8, 0x43#8], ([] : List Byte)],
      let s := { sHenc with inLen := BitVec.ofNat 32 xs.length }
      s.hencOk = true ∧ s.bufSizeOk ∧ 0 < s.outLen.toNat ∧ s.inLen.toNat = xs.length ∧
        xs.length ≤ s.bufSize.toNat ∧ holds s.ibuf 0 xs ∧
        (∀ x ∈ xs, (ctAt s.ct x).valid = true) ∧
        s.outLen.toNat + bytesFor (codesOf s.ct xs).length ≤ s.bufSize.toNat := by
  decide +kernel

/-- A header that fills OBUF to the last byte. -/
def sFull : State := { sHenc with outLen := sHenc.bufSize, inLen := 1#32 }

theorem witness_PackReportsItsFirstError :
    (let s := sBadInput
      let xs := [0x41#8, 0x41#8, 0x42#8]
      s.hencOk = true ∧ s.inLen.toNat ≤ s.bufSize.toNat ∧ holds s.ibuf 0 xs ∧
        (∀ y ∈ xs, (ctAt s.ct y).valid = true) ∧ xs.length < s.inLen.toNat ∧
        s.ibuf.read xs.length = some 0x44#8 ∧ (ctAt s.ct 0x44#8).valid = false ∧
        s.outLen.toNat + (codesOf s.ct xs).length / 8 ≤ s.bufSize.toNat) ∧
      (let s := sFull
        let xs := [0x41#8]
        s.hencOk = true ∧ s.inLen.toNat ≤ s.bufSize.toNat ∧ holds s.ibuf 0 xs ∧
          (∀ y ∈ xs, (ctAt s.ct y).valid = true) ∧ s.inLen.toNat = xs.length ∧
          s.bufSize.toNat < s.outLen.toNat + bytesFor (codesOf s.ct xs).length ∧
          s.outLen.toNat ≤ s.bufSize.toNat) := by
  refine ⟨?_, ?_⟩ <;> decide +kernel

theorem witness_PaddingFollowsTotalBits :
    exec .pack sHenc = .next (stateOf (exec .pack sHenc)) ∧
      (stateOf (exec .pack sHenc)).err = false := by
  refine ⟨next_of ?_, ?_⟩ <;> decide +kernel

/-- The longest code into the fullest shift register. -/
theorem witness_BarrelShifterEqualsBitSerial :
    (List.replicate 8 true).length ≤ 8 ∧ (⟨12, 0x7F#8, 7, 7⟩ : Shifter).k < 8 ∧
      (⟨12, 0x7F#8, 7, 7⟩ : Shifter).acc.toNat < 2 ^ (⟨12, 0x7F#8, 7, 7⟩ : Shifter).k := by
  decide

theorem witness_BadContainerStartIsReported :
    (sContainer []).inLen = 0#32 ∧ (sContainer []).inLen.toNat ≤ (sContainer []).bufSize.toNat ∧
      (sContainer [0x00#8]).inLen = 1#32 ∧
      (sContainer [0x00#8]).inLen.toNat ≤ (sContainer [0x00#8]).bufSize.toNat ∧
      2 ≤ sBadContainer.inLen.toNat ∧ sBadContainer.inLen.toNat ≤ sBadContainer.bufSize.toNat ∧
      sBadContainer.ibuf.read 0 = some 0x08#8 ∧ 7 < (0x08#8 : Byte).toNat := by
  decide +kernel

/-- T1's groups, and V-HD15's, in descending order. -/
def groupsT1 : List Group := [⟨1, [(0x41#8, 0x00#8)]⟩, ⟨2, [(0x42#8, 0x80#8), (0x43#8, 0xC0#8)]⟩]

theorem witness_HdecParsesEveryGoodHeader :
    ∀ gs ∈ [groupsT1, groupsT1.reverse],
      let s := sContainer (0x02#8 :: BitVec.ofNat 8 (groupsEntries gs).length :: groupsBytes gs)
      groupsOk gs ∧ gs ≠ [] ∧ (groupsEntries gs).length ≤ 256 ∧
        entriesPrefixFree (groupsEntries gs) ∧ (0x02#8 : Byte).toNat ≤ 7 ∧
        holds s.ibuf 0 (0x02#8 :: BitVec.ofNat 8 (groupsEntries gs).length :: groupsBytes gs) ∧
        2 + (groupsBytes gs).length ≤ s.inLen.toNat ∧ s.inLen.toNat ≤ s.bufSize.toNat := by
  decide +kernel

/-- Two codes in all, the first group there; the second group is missing, cut after one byte, has a
length of 0 or 9, or counts 2 or 256 codes where one is due. -/
theorem witness_BadGroupHeaderIsMalformed :
    let gs : List Group := [⟨1, [(0x41#8, 0x00#8)]⟩]
    let p := 2 + (groupsBytes gs).length
    (∀ rest ∈ [[], [0x01#8], [0x01#8, 0x00#8], [0x01#8, 0x09#8], [0x02#8, 0x01#8], [0x00#8, 0x08#8]],
      let s := sContainer (0x07#8 :: 0x02#8 :: groupsBytes gs ++ rest)
      groupsOk gs ∧ (0x07#8 : Byte).toNat ≤ 7 ∧
        holds s.ibuf 0 (0x07#8 :: 0x02#8 :: groupsBytes gs) ∧ p ≤ s.inLen.toNat ∧
        s.inLen.toNat ≤ s.bufSize.toNat ∧
        (groupsEntries gs).length < (if (0x02#8 : Byte) = 0#8 then 256 else (0x02#8 : Byte).toNat) ∧
        (rest.length < 2 → s.inLen.toNat < p + 2) ∧
        (rest.length = 2 → p + 2 ≤ s.inLen.toNat ∧ holds s.ibuf p rest)) ∧
      2 - (groupsEntries gs).length < (if (0x02#8 : Byte) = 0#8 then 256 else (0x02#8 : Byte).toNat) ∧
      2 - (groupsEntries gs).length < (if (0x00#8 : Byte) = 0#8 then 256 else (0x00#8 : Byte).toNat)
    := by
  refine ⟨?_, ?_, ?_⟩ <;> decide +kernel

/-- V-HD7's and V-HD11's shape: the second of two pairs is cut, or names 0x41 again. -/
theorem witness_BadPairIsMalformed :
    let g : Group := ⟨1, [(0x41#8, 0x00#8)]⟩
    let q := 4 + (groupsBytes []).length + 2 * g.pairs.length
    ∀ rest ∈ [[0x42#8], [0x41#8, 0x80#8]],
      let s := sContainer (0x00#8 :: 0x02#8 :: groupsBytes [] ++ 0x02#8 :: BitVec.ofNat 8 g.len ::
        pairsBytes g.pairs ++ rest)
      groupsOk [] ∧ 1 ≤ g.len ∧ g.len ≤ 8 ∧ ((groupsEntries [] ++ g.entries).map (·.1)).Nodup ∧
        (0x00#8 : Byte).toNat ≤ 7 ∧
        holds s.ibuf 0 (0x00#8 :: 0x02#8 :: groupsBytes [] ++ 0x02#8 :: BitVec.ofNat 8 g.len ::
          pairsBytes g.pairs) ∧
        q ≤ s.inLen.toNat ∧ s.inLen.toNat ≤ s.bufSize.toNat ∧ g.pairs.length < 2 ∧
        (groupsEntries []).length + 2 ≤ 2 ∧
        (rest.length < 2 → s.inLen.toNat < q + 2) ∧
        (rest.length = 2 → q + 2 ≤ s.inLen.toNat ∧ holds s.ibuf q rest ∧
          0x41#8 ∈ (groupsEntries [] ++ g.entries).map (·.1)) := by
  decide +kernel

/-- V-HD12's and V-HD13's groups: "0" and "00"; "00" twice. -/
theorem witness_PrefixClashIsMalformed :
    ∀ gs ∈ [[(⟨1, [(0x41#8, 0x00#8)]⟩ : Group), ⟨2, [(0x42#8, 0x00#8)]⟩],
        [⟨2, [(0x41#8, 0x00#8)]⟩, ⟨2, [(0x42#8, 0x00#8)]⟩]],
      let s := sContainer (0x00#8 :: BitVec.ofNat 8 (groupsEntries gs).length :: groupsBytes gs)
      groupsOk gs ∧ gs ≠ [] ∧ (groupsEntries gs).length ≤ 256 ∧
        ¬ entriesPrefixFree (groupsEntries gs) ∧ (0x00#8 : Byte).toNat ≤ 7 ∧
        holds s.ibuf 0 (0x00#8 :: BitVec.ofNat 8 (groupsEntries gs).length :: groupsBytes gs) ∧
        2 + (groupsBytes gs).length ≤ s.inLen.toNat ∧ s.inLen.toNat ≤ s.bufSize.toNat := by
  decide +kernel

theorem sTable_header : headerSpec sTable = headerT1.tail := by decide +kernel

theorem witness_HdecRecoversTheEncodedTable :
    sTable.ctOk = true ∧ sTable.tableInv ∧ sTable.codesInv ∧ (0x02#8 : Byte).toNat ≤ 7 ∧
      holds sHdec.ibuf 0 (0x02#8 :: headerSpec sTable) ∧
      1 + (headerSpec sTable).length ≤ sHdec.inLen.toNat ∧
      sHdec.inLen.toNat ≤ sHdec.bufSize.toNat := by
  rw [sTable_header]
  refine ⟨?_, ?_, ?_, ?_, ?_, ?_, ?_⟩ <;> decide +kernel

/-! ### Witnesses: DECODE -/

/-- V-D4, one bit short of nothing: no payload byte and PAD = 3. -/
theorem witness_NegativeBitCountIsTruncated :
    (sOneCode 3#3 []).hdrOk = true ∧
      (sOneCode 3#3 []).inLen.toNat ≤ (sOneCode 3#3 []).bufSize.toNat ∧
      8 * (sOneCode 3#3 []).inLen.toNat <
        8 * (sOneCode 3#3 []).payOff.toNat + (sOneCode 3#3 []).pad.toNat := by
  decide +kernel

/-- V-D1, V-D5 and V-D6: all bits matched, one left over, and one unmatchable. -/
theorem witness_DecodeMatchesThePayloadBits :
    (∀ x ∈ [(sHdec, [0x2C#8], 6),
        ({ sHdec with pad := 0#3, ibuf := sHdec.ibuf.write 12 0x01#8 }, [0x01#8], 8),
        (sOneCode 0#3 [0x0F#8], [0x0F#8], 8)],
      x.1.hdrOk = true ∧ x.1.bufSizeOk ∧ x.1.inLen.toNat ≤ x.1.bufSize.toNat ∧
        x.1.payOff.toNat + x.2.1.length = x.1.inLen.toNat ∧ x.1.pad.toNat ≤ 8 * x.2.1.length ∧
        x.2.2 = 8 * x.2.1.length - x.1.pad.toNat ∧ holds x.1.ibuf x.1.payOff.toNat x.2.1) ∧
      matchBits (validCodes tableT1) 0 [] (payloadBits [0x2C#8] 6) =
        .all [0x41#8, 0x41#8, 0x42#8, 0x43#8] ∧
      matchBits (validCodes tableT1) 0 [] (payloadBits [0x01#8] 8) =
        .leftover [0x41#8, 0x41#8, 0x41#8, 0x41#8, 0x41#8, 0x41#8, 0x41#8] ∧
      matchBits (validCodes tableA) 0 [] (payloadBits [0x0F#8] 8) =
        .stuckAt [0x41#8, 0x41#8, 0x41#8, 0x41#8] 4 := by
  refine ⟨?_, ?_, ?_, ?_⟩ <;> decide +kernel

/-- V-D12: 129 payload bytes are 1032 symbols, and OBUF holds 1024. -/
def sManyZeros : State :=
  { sOneCode 0#3 (List.replicate 129 0x00#8) with bufSize := 1024#32 }

theorem witness_DecodeMatchesThePayloadBits_overflow :
    sManyZeros.hdrOk = true ∧ sManyZeros.bufSizeOk ∧
      sManyZeros.inLen.toNat ≤ sManyZeros.bufSize.toNat ∧
      sManyZeros.payOff.toNat + (List.replicate 129 0x00#8).length = sManyZeros.inLen.toNat ∧
      holds sManyZeros.ibuf sManyZeros.payOff.toNat (List.replicate 129 0x00#8) := by
  refine ⟨?_, ?_, ?_, ?_, ?_⟩ <;> decide +kernel

theorem witness_DecodeInvertsPack :
    let xs := [0x41#8, 0x41#8, 0x42#8, 0x43#8]
    sHdec.hdrOk = true ∧ sHdec.bufSizeOk ∧ sHdec.tableInv ∧ prefixFree sHdec.ct ∧
      (∀ x ∈ xs, (ctAt sHdec.ct x).valid = true) ∧ xs.length ≤ sHdec.bufSize.toNat ∧
      sHdec.inLen.toNat ≤ sHdec.bufSize.toNat ∧
      sHdec.inLen.toNat = sHdec.payOff.toNat + (packBits (codesOf sHdec.ct xs)).1.length ∧
      sHdec.pad.toNat = (packBits (codesOf sHdec.ct xs)).2 ∧
      holds sHdec.ibuf sHdec.payOff.toNat (packBits (codesOf sHdec.ct xs)).1 := by
  refine ⟨?_, ?_, ?_, ?_, ?_, ?_, ?_, ?_, ?_, ?_⟩ <;> decide +kernel

theorem witness_TrieWalkEqualsMatching :
    ((validCodes tableT1).map (·.1)).Nodup ∧ (∀ x ∈ validCodes tableT1, x.2 ≠ []) ∧
      (∀ x ∈ validCodes tableT1, ∀ y ∈ validCodes tableT1, x.1 ≠ y.1 →
        x.2.isPrefixOf y.2 = false) ∧ (validCodes tableT1).length = 3 := by
  refine ⟨?_, ?_, ?_, ?_⟩ <;> decide +kernel

/-- After HENC and then PACK of T1. -/
def sPacked : State := stateOf (exec .pack (stateOf (exec .henc sTable)))

theorem sPacked_obuf : bytesFrom 0 containerT1 = sPacked.obuf := by decide +kernel

/-- T1: HENC, PACK, and the container copied into IBUF. -/
theorem witness_ContainerRoundTrips :
    sTable.ctOk = true ∧ sTable.bufSizeOk ∧ sTable.tableInv ∧ sTable.codesInv ∧
      holds sTable.ibuf 0 [0x41#8, 0x41#8, 0x42#8, 0x43#8] ∧ sTable.inLen.toNat = 4 ∧
      4 ≤ sTable.bufSize.toNat ∧ exec .henc sTable = .next (stateOf (exec .henc sTable)) ∧
      exec .pack (stateOf (exec .henc sTable)) = .next sPacked ∧ sPacked.err = false ∧
      (sContainer containerT1).bufSize = sTable.bufSize ∧
      (sContainer containerT1).inLen = sPacked.outLen ∧
      ∀ a, a < sPacked.outLen.toNat → (sContainer containerT1).ibuf.read a = sPacked.obuf.read a := by
  refine ⟨?_, ?_, ?_, ?_, ?_, ?_, ?_, next_of ?_, next_of ?_, ?_, ?_, ?_,
    fun a _ => congrArg (Memory.read · a) sPacked_obuf⟩ <;> decide +kernel

/-! ### Witnesses: the host bus -/

/-- A narrow access, an unaligned one, the first offset beyond a buffer, and an access at the head of
the agenda. -/
theorem witness_HostAccessAnswersIffItConforms :
    ((8 : Nat) ≠ 32 ∨ (0x0000#13 : RegAddr).toNat % 4 ≠ 0) ∧
      ((32 : Nat) ≠ 32 ∨ (0x0002#13 : RegAddr).toNat % 4 ≠ 0) ∧
      State.reset.bufSize.toNat ≤ 65536 ∧
      (todo [.host (.ibufWrite 65536 0x00#8)] State.reset).agenda =
        .host (.ibufWrite 65536 0x00#8) :: [] := by
  refine ⟨?_, ?_, ?_, todo_agenda _ _⟩ <;> decide

/-- Both ends of each range. -/
theorem witness_UnmappedAndReadOnlyWords :
    (∀ addr data, (todo [.host (.regRead addr 32)] sHenc).agenda = .host (.regRead addr 32) :: [] ∧
      (todo [.host (.regWrite addr 32 data)] sHenc).agenda = .host (.regWrite addr 32 data) :: []) ∧
      (∀ addr ∈ ([0x0004#13, 0x0038#13, 0x03FC#13, 0x0C00#13, 0x0FFC#13, 0x1FF8#13, 0x1FFC#13] :
        List RegAddr), addr.toNat % 4 = 0 ∧
      (addr.toNat = 0x4 ∨ (0x38 ≤ addr.toNat ∧ addr.toNat < 0x400) ∨
        (0xC00 ≤ addr.toNat ∧ addr.toNat < 0x1000) ∨ 0x1FF8 ≤ addr.toNat)) ∧
      (∀ addr ∈ ([0x0000#13, 0x000C#13, 0x0014#13, 0x002C#13, 0x0034#13, 0x03FC#13, 0x0800#13,
          0x1FFC#13] : List RegAddr), addr.toNat % 4 = 0 ∧
        (addr.toNat = 0 ∨ addr.toNat = 0xC ∨ (0x14 ≤ addr.toNat ∧ addr.toNat ≤ 0x2C) ∨
          (0x34 ≤ addr.toNat ∧ addr.toNat < 0x400) ∨ 0x800 ≤ addr.toNat)) ∧
      (0x0008#13 : RegAddr).toNat % 4 = 0 ∧ (0x0008#13 : RegAddr).toNat = 0x8 := by
  refine ⟨fun _ _ => ⟨todo_agenda _ _, todo_agenda _ _⟩, ?_, ?_, ?_, ?_⟩ <;> simp

theorem witness_RegisterWordsReadTheirRegister :
    sHenc.pending = none ∧
      (∀ addr, (todo [.host (.regRead addr 32)] sHenc).agenda = .host (.regRead addr 32) :: []) ∧
      (1#32 : Word).toNat = (1#3 : BitVec 3).toNat ∧ (0xC#32 : Word) = sHenc.outLen ∧
      (0x00070000#32 : Word).toNat = 2 * sHenc.done.toNat + 4 * sHenc.err.toNat + 8 * sHenc.ovr.toNat +
        256 * 0 + 65536 * sHenc.treeOk.toNat + 131072 * sHenc.ctOk.toNat +
        262144 * sHenc.hencOk.toNat + 524288 * sHenc.hdrOk.toNat ∧ (sHenc.errCode, 0) ∈ errCodeTable ∧
      ((stateOf (exec .henc State.reset)).errCode, 6) ∈ errCodeTable := by
  refine ⟨sHenc_pending, fun _ => todo_agenda _ _, ?_, ?_, ?_, ?_, ?_⟩ <;> decide +kernel

/-- A full NODE store. -/
def sManyNodes : State := { sFreq with numNodes := 511#9, treeOk := true }

/-- The first and the last entry of each window. -/
theorem witness_ArrayWindowsReadTheirEntry :
    sManyNodes.pending = none ∧
      (∀ addr, (todo [.host (.regRead addr 32)] sManyNodes).agenda =
        .host (.regRead addr 32) :: []) ∧
      (∀ sym ∈ [0x00#8, 0xFF#8], (freqAt sManyNodes.freq sym).written = true) ∧
      (0x07FC#13 : RegAddr).toNat = 0x400 + 4 * (0xFF#8 : Byte).toNat ∧
      (0x0BFC#13 : RegAddr).toNat = 0x800 + 4 * (0xFF#8 : Byte).toNat ∧
      (0x1FF0#13 : RegAddr).toNat = 0x1000 + 8 * 510 ∧
      (0x1FF4#13 : RegAddr).toNat = 0x1004 + 8 * 510 ∧ 510 < sManyNodes.numNodes.toNat := by
  refine ⟨?_, fun _ => todo_agenda _ _, ?_, ?_, ?_, ?_, ?_, ?_⟩ <;> decide +kernel

theorem witness_WritableRegistersTakeTheWord :
    State.reset.pending = none ∧
      (∀ addr data,
        (todo [.host (.regWrite addr 32 data)] State.reset).agenda =
          .host (.regWrite addr 32 data) :: []) ∧
      (0x0400#13 : RegAddr).toNat = 0x400 + 4 * (0x00#8 : Byte).toNat ∧
      (0x07FC#13 : RegAddr).toNat = 0x400 + 4 * (0xFF#8 : Byte).toNat := by
  refine ⟨rfl, fun _ _ => todo_agenda _ _, ?_, ?_⟩ <;> decide

/-- The first byte, and the last one of the buffer. -/
theorem witness_BufferBytesReadAndWrite :
    sHenc.pending = none ∧ 0 < sHenc.bufSize.toNat ∧ 65535 < sHenc.bufSize.toNat ∧
      (todo [.host (.ibufWrite 65535 0x55#8)] sHenc).agenda = .host (.ibufWrite 65535 0x55#8) :: [] ∧
      (todo [.host (.ibufRead 0)] sHenc).agenda = .host (.ibufRead 0) :: [] ∧
      sHenc.ibuf.read 0 = some 0x41#8 ∧
      (todo [.host (.obufRead 11)] sHenc).agenda = .host (.obufRead 11) :: [] ∧ 11 < sHenc.outLen.toNat ∧
      sHenc.obuf.read 11 = some 0xC0#8 ∧
      (todo [.host (.obufWrite 0 0x55#8)] sHenc).agenda = .host (.obufWrite 0 0x55#8) :: [] := by
  refine ⟨sHenc_pending, ?_, ?_, todo_agenda _ _, todo_agenda _ _, ?_, todo_agenda _ _, ?_, ?_,
    todo_agenda _ _⟩ <;> decide +kernel

/-- Registers and both buffers, specified and unspecified bytes. -/
theorem witness_ReadsHaveNoSideEffect :
    sHenc.pending = none ∧ ∀ op ∈ [HostOp.regRead 0x0008#13 32, .ibufRead 0, .ibufRead 4,
        .obufRead 11, .obufRead 12],
      ((∃ addr width, op = .regRead addr width) ∨ (∃ a, op = .ibufRead a) ∨ ∃ a, op = .obufRead a) ∧
        (∀ s, (todo [.host op, .host op] s).agenda = .host op :: [.host op]) ∧
        step (todo [.host op, .host op] sHenc) =
          .next (stateOf (step (todo [.host op, .host op] sHenc))) ∧
        step (todo [.host op, .host op] (sPending 4#32 sHenc)) =
          .next (stateOf (step (todo [.host op, .host op] (sPending 4#32 sHenc)))) := by
  refine ⟨sHenc_pending, ?_⟩
  simp only [List.mem_cons, List.not_mem_nil, or_false]
  rintro op (rfl | rfl | rfl | rfl | rfl)
  · exact ⟨.inl ⟨_, _, rfl⟩, todo_agenda _, next_of (by decide +kernel), next_of (by decide +kernel)⟩
  · exact ⟨.inr (.inl ⟨_, rfl⟩), todo_agenda _, next_of (by decide +kernel),
      next_of (by decide +kernel)⟩
  · exact ⟨.inr (.inl ⟨_, rfl⟩), todo_agenda _, next_of (by decide +kernel),
      next_of (by decide +kernel)⟩
  · exact ⟨.inr (.inr ⟨_, rfl⟩), todo_agenda _, next_of (by decide +kernel),
      next_of (by decide +kernel)⟩
  · exact ⟨.inr (.inr ⟨_, rfl⟩), todo_agenda _, next_of (by decide +kernel),
      next_of (by decide +kernel)⟩

/-- Both ends of each window, and both ends of OBUF. -/
theorem witness_BusyReadsOfResultsAreDraws :
    (sPending 4#32 sHenc).pending.isSome = true ∧
      (∀ addr, (todo [.host (.regRead addr 32)] (sPending 4#32 sHenc)).agenda =
        .host (.regRead addr 32) :: []) ∧
      (0x0800#13 : RegAddr).toNat = 0x800 + 4 * (0x00#8 : Byte).toNat ∧
      (0x0BFC#13 : RegAddr).toNat = 0x800 + 4 * (0xFF#8 : Byte).toNat ∧
      (0x1000#13 : RegAddr).toNat = 0x1000 + 8 * 0 ∧ (0x1FF0#13 : RegAddr).toNat = 0x1000 + 8 * 510 ∧
      (0x1004#13 : RegAddr).toNat = 0x1004 + 8 * 0 ∧ (0x1FF4#13 : RegAddr).toNat = 0x1004 + 8 * 510 ∧
      (∀ a, (todo [.host (.obufRead a)] (sPending 4#32 sHenc)).agenda = .host (.obufRead a) :: []) ∧
      65535 < (sPending 4#32 sHenc).bufSize.toNat := by
  refine ⟨?_, fun _ => todo_agenda _ _, ?_, ?_, ?_, ?_, ?_, ?_, fun _ => todo_agenda _ _, ?_⟩ <;>
    decide +kernel

theorem witness_BusyAccessesFollowTheHazardRules :
    (sPending 4#32 sHenc).statusInv ∧ (sPending 4#32 sHenc).pending = some 4#32 ∧
      (∀ e, (todo [e] (sPending 4#32 sHenc)).agenda = e :: []) ∧
      (∀ addr ∈ ([0x0400#13, 0x07FC#13] : List RegAddr),
        addr.toNat % 4 = 0 ∧ 0x400 ≤ addr.toNat ∧ addr.toNat < 0x800) ∧
      65535 < (sPending 4#32 sHenc).bufSize.toNat := by
  refine ⟨?_, sPending_pending _ _, fun _ => todo_agenda _ _, by simp, ?_⟩ <;> decide +kernel

/-! ### Witnesses: whole-machine rules and invariants -/

/-- OVR set, and cleared by a W1C write and by reset. -/
theorem witness_OvrIsSticky :
    ∀ e ∈ [wr 0x0008#13 8#32, .reset],
      let s := todo [e] { State.reset with ovr := true }
      step s = .next (stateOf (step s)) ∧ s.ovr = true ∧ (stateOf (step s)).ovr = false := by
  simp only [List.mem_cons, List.not_mem_nil, or_false]
  rintro e (rfl | rfl)
  · exact ⟨next_of (by decide +kernel), rfl, by decide +kernel⟩
  · exact ⟨next_of (by decide +kernel), rfl, by decide +kernel⟩

/-- EXTRACT changes the entry of 0x41. -/
theorem witness_OnlyThreeCommandsWriteTheTable :
    step (sPending 2#32 sTree) = .next (stateOf (step (sPending 2#32 sTree))) ∧
      (stateOf (step (sPending 2#32 sTree))).ct ≠ (sPending 2#32 sTree).ct := by
  refine ⟨next_of (by decide +kernel), fun h => ?_⟩
  have h₁ : (ctAt (stateOf (step (sPending 2#32 sTree))).ct 0x41#8).valid = true := by decide +kernel
  have h₂ : (ctAt (sPending 2#32 sTree).ct 0x41#8).valid = false := by decide +kernel
  rw [h, h₂] at h₁
  cases h₁

theorem witness_StepKeepsBuffers :
    (sPending 4#32 sHenc).buffersInv ∧ (sPending 4#32 sHenc).outputInv ∧
      step (sPending 4#32 sHenc) = .next (stateOf (step (sPending 4#32 sHenc))) := by
  refine ⟨?_, ?_, next_of ?_⟩ <;> decide +kernel

theorem witness_StepKeepsStatusAndFlags :
    (sPending 4#32 sHenc).statusInv ∧ (sPending 4#32 sHenc).bufSizeOk ∧
      (sPending 4#32 sHenc).flagsInv ∧
      step (sPending 4#32 sHenc) = .next (stateOf (step (sPending 4#32 sHenc))) := by
  refine ⟨?_, ?_, ?_, next_of ?_⟩ <;> decide +kernel

theorem witness_StepKeepsTable :
    (sPending 2#32 sTable).tableInv ∧
      step (sPending 2#32 sTable) = .next (stateOf (step (sPending 2#32 sTable))) := by
  refine ⟨?_, next_of ?_⟩ <;> decide +kernel

theorem witness_StepKeepsPrefixFree :
    (sPending 2#32 sTable).codesInv ∧ (sPending 2#32 sTable).ctOk = true ∧
      step (sPending 2#32 sTable) = .next (stateOf (step (sPending 2#32 sTable))) := by
  refine ⟨?_, ?_, next_of ?_⟩ <;> decide +kernel

theorem witness_StepKeepsTree :
    (sPending 1#32 sTree).treeInv ∧ (sPending 1#32 sTree).descendInv ∧
      step (sPending 1#32 sTree) = .next (stateOf (step (sPending 1#32 sTree))) := by
  refine ⟨?_, ?_, next_of ?_⟩ <;> decide +kernel

end Sys2Proof.Tests
end

section
/-!
PROOF. The state right after reset, field by field and as the host reads it (10_state R42, R43).
-/

namespace Sys2Proof.Machine

/-! ### Registers with no specified value -/

/-- A FREQ entry the host has not written since reset has no specified value (R43). -/
theorem regValue_freq_of_unwritten {s : State} {sym : Byte}
    (h : (freqAt s.freq sym).written = false) : regValue s (.freq sym) = none := by
  simp [regValue, h]

/-- A NODE entry at or beyond NUM_NODES has no specified word 0 (R32). -/
theorem regValue_node0_of_le {s : State} {i : Nat} (h : s.numNodes.toNat ≤ i) :
    regValue s (.node0 i) = none :=
  if_neg (Nat.not_lt.mpr h)

/-- A NODE entry at or beyond NUM_NODES has no specified word 1 (R32). -/
theorem regValue_node1_of_le {s : State} {i : Nat} (h : s.numNodes.toNat ≤ i) :
    regValue s (.node1 i) = none :=
  if_neg (Nat.not_lt.mpr h)

/-! ### Right after reset -/

@[simp] theorem State.reset_statusWord : State.reset.statusWord = 0#32 := by decide

@[simp] theorem State.reset_irq : State.reset.irq = false := rfl

@[simp] theorem freqAt_reset (sym : Byte) : freqAt State.reset.freq sym = ⟨0#32, false⟩ := by
  simp [freqAt, State.reset]

@[simp] theorem ctAt_reset (sym : Byte) : ctAt State.reset.ct sym = CtEntry.empty :=
  ctAt_ctEmpty sym

/-- Right after reset no array and no buffer has a specified value (R42). -/
theorem State.reset_arrays_unspecified :
    (∀ sym, regValue State.reset (.freq sym) = none) ∧
    (∀ i, regValue State.reset (.node0 i) = none ∧ regValue State.reset (.node1 i) = none) ∧
    (∀ a, State.reset.ibuf.read a = none ∧ State.reset.obuf.read a = none) := by
  refine ⟨fun sym => ?freq, fun i => ?node, fun a => ?buffers⟩
  case freq => exact regValue_freq_of_unwritten (by simp)
  case node =>
    have h : State.reset.numNodes.toNat ≤ i := Nat.zero_le i
    exact ⟨regValue_node0_of_le h, regValue_node1_of_le h⟩
  case buffers => exact ⟨Memory.read_nil a, Memory.read_nil a⟩

/-- Settles O3: the registers are the fields `State.reset` writes out, CT is the empty table, and the
arrays without a value are those of `State.reset_arrays_unspecified`. -/
theorem resetMatchesTheTable : Obligations.ResetMatchesTheTable := by
  obtain ⟨hfreq, hnode, hbuf⟩ := State.reset_arrays_unspecified
  exact ⟨rfl, State.reset_statusWord, rfl, rfl, rfl, rfl, rfl, rfl, rfl, rfl, rfl, rfl, rfl,
    hfreq, ctAt_reset, hnode, hbuf, rfl, State.reset_irq⟩

end Sys2Proof.Machine
end

section
/-!
PROOF. The control commands NOP and CLEAR, which cannot fail (40_control R107, R108).
-/

namespace Sys2Proof.Machine

/-- NOP is the normal completion alone: HENC_OK is not consumed (R104, R107). -/
@[simp] theorem exec_nop (s : State) : exec .nop s = .next (complete s) :=
  finish_ok () s

/-- CLEAR consumes HENC_OK, clears the datapath state and completes normally (R104, R108). -/
@[simp] theorem exec_clear (s : State) :
    exec .clear s = .next (complete (clearDatapath (consumeHenc s))) :=
  finish_ok () (clearDatapath (consumeHenc s))

/-- Settles O11: `complete` writes exactly the fields named, and moves the counter on by one. -/
theorem nopCompletes : Obligations.NopCompletes :=
  fun s => ⟨s.draws + 1, exec_nop s⟩

/-- Settles O12: three of the flags and the registers are `clearDatapath`'s writes, HENC_OK is
`consumeHenc`'s, CT, NUM_CODES and MAX_LEN are `clearTable`'s, and the rest is the completion's. -/
theorem clearCompletes : Obligations.ClearCompletes :=
  fun s => ⟨s.draws + 1, exec_clear s⟩

end Sys2Proof.Machine
end

section
/-!
PROOF. What `countValid` and `maxValidLen` say of a code table, and of one symbol given a code (10_state
R29).
-/

namespace Sys2Proof.Machine

/-! ### The number of VALID entries -/

@[simp] theorem countValid_ctEmpty : countValid ctEmpty = 0 := by
  rw [countValid, ctEmpty, Vector.toList_replicate, List.countP_replicate]
  exact if_neg Bool.false_ne_true

/-- A symbol that had no code gets one: one VALID entry more. -/
theorem countValid_ctSet_of_not_valid {ct : Vector CtEntry 256} {sym : Byte} {e : CtEntry}
    (hold : (ctAt ct sym).valid = false) (hnew : e.valid = true) :
    countValid (ctSet ct sym e) = countValid ct + 1 := by
  have hcount := Vector.countP_set (p := fun x : CtEntry => x.valid) (xs := ct) (a := e) sym.isLt
  rw [show ct[sym.toNat].valid = false from hold, hnew] at hcount
  simpa [countValid, ctSet, ← Vector.countP_toList] using hcount

/-! ### The largest LEN of a VALID entry -/

theorem mem_iff_exists_ctAt {ct : Vector CtEntry 256} {e : CtEntry} :
    e ∈ ct ↔ ∃ sym, ctAt ct sym = e := by
  rw [Vector.mem_iff_getElem]
  constructor
  · rintro ⟨i, hi, rfl⟩
    exact ⟨BitVec.ofNatLT i hi, rfl⟩
  · rintro ⟨sym, rfl⟩
    exact ⟨sym.toNat, sym.isLt, rfl⟩

/-- MAX_LEN is the least upper bound of the lengths of the codes. -/
theorem maxValidLen_le_iff {ct : Vector CtEntry 256} {n : Nat} :
    maxValidLen ct ≤ n ↔ ∀ sym, (ctAt ct sym).valid = true → (ctAt ct sym).len.toNat ≤ n := by
  have hlist : maxValidLen ct ≤ n ↔ ∀ e ∈ ct.toList, e.valid = true → e.len.toNat ≤ n := by
    unfold maxValidLen
    induction ct.toList with
    | nil => simp
    | cons e es ih =>
      rw [List.forall_mem_cons, ← ih]
      cases he : e.valid <;> simp [he]
  simp [hlist, mem_iff_exists_ctAt]

@[simp] theorem maxValidLen_ctEmpty : maxValidLen ctEmpty = 0 :=
  Nat.le_zero.mp (maxValidLen_le_iff.mpr (by simp [CtEntry.empty]))

/-- A symbol that had no code gets one: its length counts too. -/
theorem maxValidLen_ctSet_of_not_valid {ct : Vector CtEntry 256} {sym : Byte} {e : CtEntry}
    (hold : (ctAt ct sym).valid = false) (hnew : e.valid = true) :
    maxValidLen (ctSet ct sym e) = max e.len.toNat (maxValidLen ct) := by
  refine eq_of_forall_ge_iff fun n => ?_
  simp only [max_le_iff, maxValidLen_le_iff, ctAt_ctSet]
  constructor
  · intro h
    refine ⟨by simpa [hnew] using h sym, fun x hx => ?_⟩
    have hne : x ≠ sym := by rintro rfl; simp [hold] at hx
    simpa [hne, hx] using h x
  · rintro ⟨he, hct⟩ x hx
    split at hx
    next heq => rwa [if_pos heq]
    next hne => rw [if_neg hne]; exact hct x hx

end Sys2Proof.Machine
end

section
/-!
PROOF. EXTRACT, and the tree whose root is a leaf (42_code_table R140, R142).
-/

namespace Sys2Proof.Machine

/-! ### EXTRACT with a tree -/

/-- With TREE_OK, EXTRACT is its body after HENC_OK was consumed (R104, R109). -/
theorem exec_extract_of_treeOk {s : State} (h : s.treeOk = true) :
    exec .extract s = finish (extractBody (consumeHenc s)) :=
  congrArg finish (by rw [consumeHenc_treeOk, h, requireFlag_true])

/-- A walk that ends with a table: EXTRACT installs it and sets CT_OK (R140). -/
theorem extractBody_of_table {s : State} {ct : Vector CtEntry 256}
    (h : extractTable s.node s.root = .table ct) :
    extractBody s = .ok () { installTable ct (extractStart s) with ctOk := true } := by
  rw [State.root] at h
  simp only [extractBody, h]

/-! ### A leaf at the root -/

/-- The table with the code "0" for one symbol and no other code (R142). -/
def singleCodeTable (sym : Byte) : Vector CtEntry 256 := ctSet ctEmpty sym ⟨true, 1#4, 0x00#8⟩

/-- A leaf at the root is not walked: its table is the one of the code "0" (R142). -/
theorem extractTable_of_leaf {node : Vector Node 511} {root : Nat} {w : Word} {sym : Byte}
    (h : nodeAt node root = .leaf w sym) : extractTable node root = .table (singleCodeTable sym) := by
  simp only [extractTable, h, singleCodeTable]

theorem ctAt_singleCodeTable (sym x : Byte) :
    ctAt (singleCodeTable sym) x = if x = sym then ⟨true, 1#4, 0x00#8⟩ else CtEntry.empty := by
  rw [singleCodeTable, ctAt_ctSet, ctAt_ctEmpty]

@[simp] theorem countValid_singleCodeTable (sym : Byte) : countValid (singleCodeTable sym) = 1 := by
  rw [singleCodeTable, countValid_ctSet_of_not_valid (by simp [CtEntry.empty]) rfl,
    countValid_ctEmpty]

@[simp] theorem maxValidLen_singleCodeTable (sym : Byte) :
    maxValidLen (singleCodeTable sym) = 1 := by
  rw [singleCodeTable, maxValidLen_ctSet_of_not_valid (by simp [CtEntry.empty]) rfl,
    maxValidLen_ctEmpty]
  rfl

/-- Installing it writes NUM_CODES 1 and MAX_LEN 1 (R145). -/
theorem installTable_singleCodeTable (sym : Byte) (s : State) :
    installTable (singleCodeTable sym) s =
      { s with ct := singleCodeTable sym, numCodes := 1#9, maxLen := 1#4 } := by
  simp only [installTable, countValid_singleCodeTable, maxValidLen_singleCodeTable]

/-- Settles O24: the walk ends at the root with `singleCodeTable`, whose one code counts for NUM_CODES
and MAX_LEN; the flags are EXTRACT's own writes and the rest is the completion's. -/
theorem singleLeafGetsCodeZero : Obligations.SingleLeafGetsCodeZero := by
  intro s w sym htree hleaf
  have hwalk : extractTable (consumeHenc s).node (consumeHenc s).root =
      .table (singleCodeTable sym) := extractTable_of_leaf hleaf
  refine ⟨singleCodeTable sym, s.draws + 1, ?next, ?own, fun x hx => ?other⟩
  case next =>
    rw [exec_extract_of_treeOk htree, extractBody_of_table hwalk, installTable_singleCodeTable,
      finish_ok]
    rfl
  case own => rw [ctAt_singleCodeTable, if_pos rfl]
  case other => rw [ctAt_singleCodeTable, if_neg hx, CtEntry.empty]

end Sys2Proof.Machine
end

section
/-!
PROOF. DECODE, and the payload bit count that is negative (45_decoder R210, R211).
-/

namespace Sys2Proof.Machine

/-- With HDR_OK and IN_LEN within BUF_BYTES, DECODE is its body after HENC_OK was consumed (R104, R109,
R110). -/
theorem exec_decode_of_hdrOk {s : State} (hok : s.hdrOk = true)
    (hlen : s.inLen.toNat ≤ s.bufSize.toNat) :
    exec .decode s = finish (decodeBody (consumeHenc s)) :=
  congrArg finish (by
    rw [consumeHenc_hdrOk, hok, requireFlag_true, checkLength_of_le (s := consumeHenc s) _ hlen])

/-- A negative payload bit count ends the body before the bit loop (R211). -/
theorem decodeBody_of_lt {s : State} (h : payloadHave s < payloadNeed s) :
    decodeBody s = .raise .truncatedPayload 0xFFFFFFFF#32 { s with outLen := 0#32 } :=
  if_pos h

/-- Settles O40: both checks pass and the body raises before it reads a payload bit; OUT_LEN is its own
write, HENC_OK is `consumeHenc`'s, and the rest is the completion's. -/
theorem negativeBitCountIsTruncated : Obligations.NegativeBitCountIsTruncated := by
  intro s hok hlen hneg
  have hlt : payloadHave (consumeHenc s) < payloadNeed (consumeHenc s) := hneg
  refine ⟨s.draws + 1, ?_⟩
  rw [exec_decode_of_hdrOk hok hlen, decodeBody_of_lt hlt, finish_raise]
  rfl

end Sys2Proof.Machine
end

section
/-!
PROOF. Command words: the opcode map read both ways (30_encoding R70, R78, R79).
-/

namespace Sys2Proof.Machine

/-- A word is its two fields, RSV above OP (R70). -/
theorem rsvField_append_opField (w : Word) : rsvField w ++ opField w = w := by
  refine BitVec.eq_of_getLsbD_eq fun i hi => ?_
  simp only [rsvField, opField, BitVec.getLsbD_append, BitVec.getLsbD_extractLsb']
  by_cases h : i < 4
  · simp [h]
  · simp [h, show i - 4 < 28 by omega, show 4 + (i - 4) = i by omega]

/-- The opcode map is `opOf` read backwards (R78). -/
theorem decodeOp_eq_ok_iff (op : BitVec 4) (i : Instr) : decodeOp op = .ok i ↔ op = opOf i := by
  constructor
  · intro h
    unfold decodeOp at h
    split at h <;> cases h <;> exact BitVec.eq_of_toNat_eq ‹_›
  · rintro rfl
    cases i <;> rfl

@[simp] theorem decode_encode (i : Instr) : decode (encode i) = .ok i := by
  cases i <;> rfl

/-- A legal word is the one encoding of its command: bits 31:4 are 0 and OP is the command's. -/
theorem decode_eq_ok_iff (w : Word) (i : Instr) : decode w = .ok i ↔ w = encode i := by
  constructor
  · intro h
    unfold decode at h
    split at h
    next hrsv => rw [← rsvField_append_opField w, hrsv, (decodeOp_eq_ok_iff _ _).mp h, encode]
    next => cases h
  · rintro rfl
    exact decode_encode i

/-- A word with a bit of 31:4 set, or with an OP of 0x8 or above, is no command (R79). -/
theorem decode_eq_error_of_illegal {w : Word}
    (h : w.extractLsb' 4 28 ≠ 0#28 ∨ 8 ≤ (w.extractLsb' 0 4).toNat) :
    ∃ e, decode w = .error e := by
  cases hd : decode w with
  | error e => exact ⟨e, rfl⟩
  | ok i =>
    rw [(decode_eq_ok_iff w i).mp hd] at h
    cases i <;> exact absurd h (by decide)

/-- Settles O1: each of the twelve words is decoded as it stands. -/
theorem commandWordsDecode : Obligations.CommandWordsDecode :=
  ⟨rfl, rfl, rfl, rfl, rfl, rfl, rfl, rfl, rfl, rfl, rfl, rfl⟩

/-- Settles O2, by `decode_eq_ok_iff`. -/
theorem decodeIsInverseOfEncode : Obligations.DecodeIsInverseOfEncode :=
  decode_eq_ok_iff

end Sys2Proof.Machine
end

section
/-!
PROOF. What one step can be, said once: a reset, a host access, or the engine's turn (40_control R100).
-/

namespace Sys2Proof.Machine

/-- A step that answers is a reset, a host access or the engine's, with its entry off the agenda. -/
theorem step_cases {s t : State} (h : step s = .next t) :
    (∃ rest, s.agenda = .reset :: rest ∧ t = resetBlock { s with agenda := rest }) ∨
    (∃ op rest, s.agenda = .host op :: rest ∧ hostAccess op { s with agenda := rest } = .next t) ∨
    (∃ rest, engineTurn s rest ∧ engineStep { s with agenda := rest } = .next t) := by
  cases hagenda : s.agenda with
  | nil =>
    have hturn : engineTurn s [] := .inl ⟨hagenda, rfl⟩
    exact .inr (.inr ⟨[], hturn, by rw [← h, step_of_engineTurn hturn]⟩)
  | cons e rest =>
    simp only [step, hagenda] at h
    cases e with
    | engine => exact .inr (.inr ⟨rest, .inr hagenda, h⟩)
    | host op => exact .inr (.inl ⟨op, rest, rfl, h⟩)
    | reset => exact .inl ⟨rest, rfl, by cases h; rfl⟩

theorem step_of_host {s : State} {op : HostOp} {rest : List Event}
    (h : s.agenda = .host op :: rest) : step s = hostAccess op { s with agenda := rest } := by
  simp [step, h, applyEvent]

theorem step_of_reset {s : State} {rest : List Event} (h : s.agenda = .reset :: rest) :
    step s = .next (resetBlock { s with agenda := rest }) := by
  simp [step, h, applyEvent]

/-! ### The engine -/

/-- With nothing pending the engine changes nothing (R248). -/
theorem engineStep_of_idle {s : State} (h : s.pending = none) : engineStep s = .next s := by
  simp [engineStep, h]

theorem engineStep_of_command {s : State} {w : Word} {i : Instr} (hw : s.pending = some w)
    (hi : decode w = .ok i) : engineStep s = exec i s := by
  simp [engineStep, hw, hi]

theorem engineStep_of_illegal {s : State} {w : Word} {e : DecodeError} (hw : s.pending = some w)
    (he : decode w = .error e) : engineStep s = .next (raiseError .illegalCommand w s) := by
  simp [engineStep, hw, he, illegalCommand]

/-- What the engine's step can be: idle, a command, or the rejection of an illegal word (R105). -/
theorem engineStep_cases {s t : State} (h : engineStep s = .next t) :
    (s.pending = none ∧ t = s) ∨
    (∃ i, s.pending = some (encode i) ∧ exec i s = .next t) ∨
    (∃ w, s.pending = some w ∧ t = raiseError .illegalCommand w s) := by
  cases hw : s.pending with
  | none => rw [engineStep_of_idle hw] at h; exact .inl ⟨rfl, by cases h; rfl⟩
  | some w =>
    cases hd : decode w with
    | ok i =>
      rw [engineStep_of_command hw hd] at h
      exact .inr (.inl ⟨i, by rw [(decode_eq_ok_iff w i).mp hd], h⟩)
    | error e =>
      rw [engineStep_of_illegal hw hd] at h
      exact .inr (.inr ⟨w, rfl, by cases h; rfl⟩)

/-- Settles O5: `step_of_engineTurn` for both forms of the engine's turn, and then the pending word. -/
theorem stepRunsThePendingCommand : Obligations.StepRunsThePendingCommand := by
  intro s rest
  refine ⟨fun w i hw hi => ⟨fun ha => ?_, fun ha => ?_⟩, fun hidle => ⟨fun ha => ?_, fun ha => ?_⟩⟩
  · rw [step, ha]; exact engineStep_of_command hw hi
  · rw [step_of_engineTurn (.inr ha)]; exact engineStep_of_command hw hi
  · rw [step, ha]; exact engineStep_of_idle hidle
  · rw [step_of_engineTurn (.inr ha)]; exact engineStep_of_idle hidle

/-- Settles O6: no decoding, so ILLEGAL_COMMAND, which writes exactly the fields named. -/
theorem illegalWordChangesNothingElse : Obligations.IllegalWordChangesNothingElse := by
  intro s w rest hw hturn hillegal
  obtain ⟨e, he⟩ := decode_eq_error_of_illegal hillegal
  rw [step_of_engineTurn hturn]
  exact engineStep_of_illegal hw he

/-- Settles O8: the registers are those of `State.reset`, and the arrays are unspecified as in it. -/
theorem resetTransitionClearsTheBlock : Obligations.ResetTransitionClearsTheBlock := by
  intro s rest hreset
  obtain ⟨hfreq, hnode, hbuf⟩ := State.reset_arrays_unspecified
  exact ⟨_, step_of_reset hreset, rfl, State.reset_statusWord, rfl, rfl, rfl, rfl, rfl, rfl, rfl,
    rfl, rfl, rfl, rfl, rfl, ctAt_reset, hfreq, hnode, hbuf, rfl⟩

end Sys2Proof.Machine
end

section
/-!
PROOF. The REG map read both ways (30_encoding R71): the offset of each register and window, and which
words a host write can change (20_memory R53).
-/

namespace Sys2Proof.Machine

/-! ### The windows -/

theorem regAt_freq {addr : RegAddr} {sym : Byte} (h : addr.toNat = 0x400 + 4 * sym.toNat) :
    regAt addr = .freq sym := by
  have hsym : (addr.toNat - 0x400) / 4 = sym.toNat := by omega
  have hlt := sym.isLt
  rw [regAt, if_neg (by omega), if_pos (by omega), hsym]
  simp

theorem regAt_ct {addr : RegAddr} {sym : Byte} (h : addr.toNat = 0x800 + 4 * sym.toNat) :
    regAt addr = .ct sym := by
  have hsym : (addr.toNat - 0x800) / 4 = sym.toNat := by omega
  have hlt := sym.isLt
  rw [regAt, if_neg (by omega), if_neg (by omega), if_pos (by omega), hsym]
  simp

theorem regAt_node0 {addr : RegAddr} {i : Nat} (hi : i ≤ 510) (h : addr.toNat = 0x1000 + 8 * i) :
    regAt addr = .node0 i := by
  have hidx : (addr.toNat - 0x1000) / 8 = i := by omega
  rw [regAt, if_neg (by omega), if_neg (by omega), if_neg (by omega), if_neg (by omega),
    if_pos (by omega), if_pos (by omega), hidx]

theorem regAt_node1 {addr : RegAddr} {i : Nat} (hi : i ≤ 510) (h : addr.toNat = 0x1004 + 8 * i) :
    regAt addr = .node1 i := by
  have hidx : (addr.toNat - 0x1000) / 8 = i := by omega
  rw [regAt, if_neg (by omega), if_neg (by omega), if_neg (by omega), if_neg (by omega),
    if_pos (by omega), if_neg (by omega), hidx]

/-- Offsets that R71 lists for no register. -/
theorem regAt_unmapped {addr : RegAddr}
    (h : (0x38 ≤ addr.toNat ∧ addr.toNat < 0x400) ∨ (0xC00 ≤ addr.toNat ∧ addr.toNat < 0x1000) ∨
      0x1FF8 ≤ addr.toNat) : regAt addr = .unmapped := by
  rcases h with ⟨hlo, hhi⟩ | ⟨hlo, hhi⟩ | hlo
  · obtain ⟨k, hk⟩ := Nat.exists_eq_add_of_le' (show 14 ≤ addr.toNat / 4 by omega)
    rw [regAt, if_pos hhi, hk]
    rfl
  · rw [regAt, if_neg (by omega), if_neg (by omega), if_neg (by omega), if_pos (by omega)]
  · rw [regAt, if_neg (by omega), if_neg (by omega), if_neg (by omega), if_neg (by omega),
      if_neg (by omega)]

/-! ### The words a host write can change -/

/-- A write of the register does nothing (R53). -/
def Reg.readOnly : Reg → Bool
  | .cmd | .status | .ctrl | .inLen | .freq _ => false
  | .id | .errInfo | .outLen | .payOff | .pad | .totalBits | .numCodes | .maxLen | .numNodes
  | .bufSize | .ct _ | .node0 _ | .node1 _ | .unmapped => true

theorem writeReg_of_readOnly {r : Reg} (h : r.readOnly = true) (data : Word) (s : State) :
    writeReg r data s = .next s := by
  cases r <;> simp_all [Reg.readOnly, writeReg]

/-- The offsets of the four registers and the one window that a host write can change. -/
def writableAddr (addr : RegAddr) : Prop :=
  addr = 0x0004#13 ∨ addr = 0x0008#13 ∨ addr = 0x0010#13 ∨ addr = 0x0030#13 ∨
    (0x400 ≤ addr.toNat ∧ addr.toNat < 0x800)

theorem regAt_readOnly {addr : RegAddr} (haligned : addr.toNat % 4 = 0)
    (h : ¬ writableAddr addr) : (regAt addr).readOnly = true := by
  simp only [writableAddr, ← BitVec.toNat_inj, BitVec.toNat_ofNat, not_or] at h
  by_contra hro
  simp only [regAt] at hro
  split at hro
  · split at hro <;> simp [Reg.readOnly] at hro <;> omega
  · split at hro
    · omega
    · split at hro
      · simp [Reg.readOnly] at hro
      · split at hro
        · simp [Reg.readOnly] at hro
        · split at hro
          · split at hro <;> simp [Reg.readOnly] at hro
          · simp [Reg.readOnly] at hro

/-- An aligned offset is CMD's, STATUS's, IN_LEN's, CTRL's, a FREQ entry's or a read-only word's. -/
theorem regAt_write_cases {addr : RegAddr} (haligned : addr.toNat % 4 = 0) :
    (addr = 0x0004#13 ∧ regAt addr = .cmd) ∨ (addr = 0x0008#13 ∧ regAt addr = .status) ∨
    (addr = 0x0010#13 ∧ regAt addr = .inLen) ∨ (addr = 0x0030#13 ∧ regAt addr = .ctrl) ∨
    (∃ sym : Byte, addr.toNat = 0x400 + 4 * sym.toNat ∧ regAt addr = .freq sym) ∨
    (¬ writableAddr addr ∧ (regAt addr).readOnly = true) := by
  by_cases h : writableAddr addr
  · rcases h with rfl | rfl | rfl | rfl | ⟨hlo, hhi⟩
    · exact .inl ⟨rfl, rfl⟩
    · exact .inr (.inl ⟨rfl, rfl⟩)
    · exact .inr (.inr (.inl ⟨rfl, rfl⟩))
    · exact .inr (.inr (.inr (.inl ⟨rfl, rfl⟩)))
    · have hsym : addr.toNat = 0x400 + 4 * (BitVec.ofNat 8 ((addr.toNat - 0x400) / 4)).toNat := by
        rw [BitVec.toNat_ofNat]; omega
      exact .inr (.inr (.inr (.inr (.inl ⟨_, hsym, regAt_freq hsym⟩))))
  · exact .inr (.inr (.inr (.inr (.inr ⟨h, regAt_readOnly haligned h⟩))))

end Sys2Proof.Machine
end

section
/-!
PROOF. The host's accesses, one rule each (20_memory R50 to R57, 70 R268 to R271), and the statements on
the host bus.
-/

namespace Sys2Proof.Machine

/-! ### Reads of REG -/

theorem regAccessOk_of_aligned {addr : RegAddr} (h : addr.toNat % 4 = 0) :
    regAccessOk addr 32 = true := by simp [regAccessOk, h]

/-- A specified register reads its value, while idle or where R270 keeps it defined. -/
theorem hostRegRead_of_value {s : State} {addr : RegAddr} {v : Word} (haligned : addr.toNat % 4 = 0)
    (hdefined : s.pending = none ∨ (regAt addr).unspecifiedWhileBusy = false)
    (hv : regValue s (regAt addr) = some v) :
    hostRegRead addr 32 s = .next (returnData v s) := by
  have hbusy : (s.busy && (regAt addr).unspecifiedWhileBusy) = false := by
    rcases hdefined with h | h <;> simp [State.busy, h]
  simp [hostRegRead, regAccessOk_of_aligned haligned, hbusy, hv]

/-- A register that R270 leaves unspecified while busy reads as a new draw. -/
theorem hostRegRead_of_busy {s : State} {addr : RegAddr} (haligned : addr.toNat % 4 = 0)
    (hbusy : s.pending.isSome = true) (hreg : (regAt addr).unspecifiedWhileBusy = true) :
    hostRegRead addr 32 s = .next (returnBusyDraw .reg addr.toNat (regAt addr).fieldMask s) := by
  simp [hostRegRead, regAccessOk_of_aligned haligned, State.busy, hbusy, hreg]

theorem step_of_regRead {s : State} {addr : RegAddr} {rest : List Event} {v : Word}
    (hagenda : s.agenda = .host (.regRead addr 32) :: rest) (haligned : addr.toNat % 4 = 0)
    (hdefined : s.pending = none ∨ (regAt addr).unspecifiedWhileBusy = false)
    (hv : regValue { s with agenda := rest } (regAt addr) = some v) :
    step s = .next { s with agenda := rest, hostRead := some v } := by
  rw [step_of_host hagenda]
  exact hostRegRead_of_value (s := { s with agenda := rest }) haligned hdefined hv

/-! ### Writes of REG -/

theorem hostRegWrite_of_aligned {addr : RegAddr} (h : addr.toNat % 4 = 0) (data : Word) (s : State) :
    hostRegWrite addr 32 data s = writeReg (regAt addr) data s := by
  simp [hostRegWrite, regAccessOk_of_aligned h]

theorem step_of_regWrite {s : State} {addr : RegAddr} {data : Word} {rest : List Event}
    (hagenda : s.agenda = .host (.regWrite addr 32 data) :: rest) (haligned : addr.toNat % 4 = 0) :
    step s = writeReg (regAt addr) data { s with agenda := rest } := by
  rw [step_of_host hagenda]
  exact hostRegWrite_of_aligned haligned data { s with agenda := rest }

/-- Settles O7: offset 4 is CMD, and the two cases are those of `writeCmd` (R101, R102). -/
theorem cmdWriteIsAcceptedOrDropped : Obligations.CmdWriteIsAcceptedOrDropped := by
  intro s w rest hagenda
  rw [step_of_regWrite hagenda (by decide), show regAt 0x0004#13 = .cmd from rfl]
  exact ⟨fun h => by simp [writeReg, writeCmd, State.busy, h],
    fun v h => by simp [writeReg, writeCmd, State.busy, h]⟩

/-! ### The STATUS word -/

theorem toNat_append_eq_add {m n : Nat} (x : BitVec m) (y : BitVec n) :
    (x ++ y).toNat = x.toNat * 2 ^ n + y.toNat := by
  rw [BitVec.toNat_append, ← Nat.shiftLeft_add_eq_or_of_lt y.isLt, Nat.shiftLeft_eq]

theorem toNat_ofBool (b : Bool) : (BitVec.ofBool b).toNat = b.toNat := by cases b <;> rfl

/-- STATUS as a number (R73). -/
theorem State.statusWord_toNat (s : State) :
    s.statusWord.toNat = s.busy.toNat + 2 * s.done.toNat + 4 * s.err.toNat + 8 * s.ovr.toNat +
      256 * s.errCode.toBits.toNat + 65536 * s.treeOk.toNat + 131072 * s.ctOk.toNat +
      262144 * s.hencOk.toNat + 524288 * s.hdrOk.toNat := by
  simp only [State.statusWord, toNat_append_eq_add, toNat_ofBool, BitVec.toNat_ofNat]
  omega

/-- The bits of STATUS are those of the table of R230. -/
theorem toBits_of_mem_errCodeTable : ∀ x ∈ errCodeTable, x.1.toBits.toNat = x.2 := by decide

/-! ### Statements on reads and writes of REG -/

/-- Settles O46: reads by `step_of_regRead`, writes of read-only words by `writeReg_of_readOnly`. -/
theorem unmappedAndReadOnlyWords : Obligations.UnmappedAndReadOnlyWords := by
  intro s addr data rest haligned
  refine ⟨fun hagenda haddr => ?read, fun hagenda haddr => ?readOnly, fun hagenda haddr => ?status⟩
  case read =>
    have hreg : regAt addr = .cmd ∨ regAt addr = .unmapped := by
      rcases haddr with h | h
      · exact .inl (by rw [show addr = 0x0004#13 from BitVec.eq_of_toNat_eq h]; rfl)
      · exact .inr (regAt_unmapped h)
    refine step_of_regRead hagenda haligned (.inr ?_) ?_ <;> rcases hreg with h | h <;> rw [h] <;> rfl
  case readOnly =>
    have hnot : ¬ writableAddr addr := by
      rintro (rfl | rfl | rfl | rfl | h)
      iterate 4 exact absurd haddr (by decide)
      omega
    rw [step_of_regWrite hagenda haligned, writeReg_of_readOnly (regAt_readOnly haligned hnot)]
  case status =>
    have hstep : step s = .next (({ s with agenda := rest } : State).writeStatus data) := by
      rw [step_of_regWrite hagenda haligned, show addr = 0x0008#13 from BitVec.eq_of_toNat_eq haddr]
      rfl
    refine ⟨hstep, fun t ht => ?_⟩
    rw [hstep] at ht
    cases ht
    simp [State.irq, State.writeStatus, and_assoc]

/-- Settles O47: each offset names its register, and its value is the word asked for. -/
theorem registerWordsReadTheirRegister : Obligations.RegisterWordsReadTheirRegister := by
  intro s addr rest hidle hagenda v code hv
  suffices h : addr.toNat % 4 = 0 ∧ regValue { s with agenda := rest } (regAt addr) = some v from
    step_of_regRead hagenda h.1 (.inl hidle) h.2
  have word {w : Word} (h : v.toNat = w.toNat) : some w = some v :=
    congrArg some (BitVec.eq_of_toNat_eq h.symm)
  have small {n : Nat} {x : BitVec n} (hn : n ≤ 32) (h : v.toNat = x.toNat) :
      some (x.setWidth 32) = some v := word (by
    rw [BitVec.toNat_setWidth, h,
      Nat.mod_eq_of_lt (x.isLt.trans_le (Nat.pow_le_pow_right (by omega) hn))])
  rcases hv with ⟨rfl, h⟩ | ⟨rfl, h⟩ | ⟨rfl, h⟩ | ⟨rfl, h⟩ | ⟨rfl, h⟩ | ⟨rfl, h⟩ | ⟨rfl, h⟩ |
    ⟨rfl, h⟩ | ⟨rfl, h⟩ | ⟨rfl, h⟩ | ⟨rfl, h⟩ | ⟨rfl, h⟩ | ⟨rfl, h⟩ | ⟨rfl, hcode, h⟩
  iterate 6 exact ⟨rfl, congrArg some h.symm⟩
  · exact ⟨rfl, small (by omega) h⟩
  · exact ⟨rfl, congrArg some h.symm⟩
  iterate 3 exact ⟨rfl, small (by omega) h⟩
  · exact ⟨rfl, word (by rw [h, State.ctrlWord, toNat_append_eq_add, toNat_ofBool]; simp)⟩
  · exact ⟨rfl, congrArg some h.symm⟩
  · have hbits : s.errCode.toBits.toNat = code := toBits_of_mem_errCodeTable _ hcode
    refine ⟨rfl, word ?_⟩
    rw [h, State.statusWord_toNat, hbits, State.busy, hidle]
    simp

/-- Settles O48: `regAt_freq`, `regAt_ct`, `regAt_node0` and `regAt_node1`, and the words as numbers. -/
theorem arrayWindowsReadTheirEntry : Obligations.ArrayWindowsReadTheirEntry := by
  intro s addr rest hidle hagenda
  refine ⟨fun sym haddr hw => ?freq, fun sym haddr => ?ct, fun i haddr hi hmax => ?node0,
    fun i haddr hi hmax => ?node1⟩
  case freq =>
    exact step_of_regRead hagenda (by omega) (.inl hidle) (by rw [regAt_freq haddr]; simp [regValue, hw])
  case ct =>
    refine ⟨(ctAt s.ct sym).word, step_of_regRead hagenda (by omega) (.inl hidle)
      (by rw [regAt_ct haddr]; rfl), ?_⟩
    simp only [CtEntry.word, toNat_append_eq_add, toNat_ofBool, BitVec.toNat_ofNat]
    omega
  case node0 =>
    exact step_of_regRead hagenda (by omega) (.inl hidle)
      (by rw [regAt_node0 hmax haddr]; exact if_pos hi)
  case node1 =>
    refine ⟨(nodeAt s.node i).word1, step_of_regRead hagenda (by omega) (.inl hidle)
      (by rw [regAt_node1 hmax haddr]; exact if_pos hi), fun w sym hnode => ?_, fun w l r hnode => ?_⟩
    · simp only [hnode, Node.word1, toNat_append_eq_add, BitVec.toNat_ofNat]
      omega
    · simp only [hnode, Node.word1, toNat_append_eq_add, BitVec.toNat_ofNat]
      omega

/-- Settles O49: each offset names its register, and `writeReg` stores the word. -/
theorem writableRegistersTakeTheWord : Obligations.WritableRegistersTakeTheWord := by
  intro s addr data rest hidle hagenda
  refine ⟨?inLen, ?ctrl, fun sym haddr => ?freq⟩
  case inLen =>
    rintro rfl
    rw [step_of_regWrite hagenda (by decide)]
    simp [regAt, writeReg, State.busy, hidle]
  case ctrl =>
    rintro rfl
    have hstep : step s = .next (({ s with agenda := rest } : State).writeCtrl data) := by
      rw [step_of_regWrite hagenda (by decide)]; rfl
    refine ⟨hstep, fun t ht => ?_⟩
    rw [hstep] at ht
    cases ht
    simp [State.irq, State.writeCtrl]
  case freq =>
    refine ⟨freqSet s.freq sym ⟨data, true⟩, ?_, by simp [freqAt_freqSet],
      fun x hx => by simp [freqAt_freqSet, hx]⟩
    rw [step_of_regWrite hagenda (by omega), regAt_freq haddr]
    simp [writeReg, State.busy, hidle]

/-! ### The buffers -/

/-- Settles O50: each access is within the buffer and idle, and a write is `Memory.write`. -/
theorem bufferBytesReadAndWrite : Obligations.BufferBytesReadAndWrite := by
  intro s a v rest hidle hlt
  have hnot : ¬ a ≥ s.bufSize.toNat := Nat.not_le.mpr hlt
  refine ⟨fun h => ⟨s.ibuf.write a v, ?_, by simp, fun b hb => Memory.read_write_other _ _ hb⟩,
    fun h hread => ?_, fun h hout hread => ?_, fun h => ?_⟩ <;>
    rw [step_of_host h]
  · simp [hostAccess, hostIbufWrite, hnot, State.busy, hidle]
  · simp [hostAccess, hostIbufRead, hnot, State.busy, hidle, hread, returnData]
  · simp [hostAccess, hostObufRead, hnot, State.busy, hidle, hout, hread, returnData]
  · simp [hostAccess, hostObufWrite, hnot]

end Sys2Proof.Machine
end

section
/-!
PROOF. What a host access can do to the block, said once, and the rules for busy accesses (20_memory R62,
70 R268 to R271).
-/

namespace Sys2Proof.Machine

/-! ### When an access answers -/

theorem State.busy_eq_false_iff {s : State} : s.busy = false ↔ s.pending = none := by
  simp [State.busy]

theorem isNext_hostRegRead (addr : RegAddr) (width : Nat) (s : State) :
    isNext (hostRegRead addr width s) = regAccessOk addr width := by
  unfold hostRegRead
  cases h : regAccessOk addr width
  · rfl
  · simp only [Bool.not_true, Bool.false_eq_true, if_false]
    split
    · rfl
    · split <;> rfl

/-- A REG write answers but for a bad access, and for IN_LEN and FREQ while busy (R51, R270). -/
theorem isNext_hostRegWrite (addr : RegAddr) (width : Nat) (data : Word) (s : State) :
    isNext (hostRegWrite addr width data s) =
      (regAccessOk addr width && (s.pending.isNone || !isInputAddr addr)) := by
  cases hok : regAccessOk addr width
  · simp [hostRegWrite, hok, isNext]
  · have haligned : addr.toNat % 4 = 0 := by
      simp only [regAccessOk, Bool.and_eq_true, beq_iff_eq] at hok; exact hok.2
    have hbusy : s.busy = !s.pending.isNone := by cases hp : s.pending <;> simp [State.busy, hp]
    simp only [hostRegWrite, hok, Bool.not_true, Bool.false_eq_true, if_false, Bool.true_and]
    rcases regAt_write_cases haligned with ⟨rfl, hreg⟩ | ⟨rfl, hreg⟩ | ⟨rfl, hreg⟩ | ⟨rfl, hreg⟩ |
      ⟨sym, haddr, hreg⟩ | ⟨hnot, hreg⟩
    · simp [hreg, writeReg, isNext, isInputAddr]
    · simp [hreg, writeReg, isNext, isInputAddr]
    · rw [hreg, writeReg, hbusy]
      cases s.pending.isNone <;> rfl
    · simp [hreg, writeReg, isNext, isInputAddr]
    · have hin : isInputAddr addr = true := by
        have := sym.isLt
        simp only [isInputAddr, Bool.or_eq_true, Bool.and_eq_true, decide_eq_true_eq]
        omega
      rw [hreg, writeReg, hbusy, hin]
      cases s.pending.isNone <;> rfl
    · have hin : isInputAddr addr = false := by
        simp only [writableAddr, ← BitVec.toNat_inj, BitVec.toNat_ofNat] at hnot
        simp only [isInputAddr, Bool.or_eq_false_iff, Bool.and_eq_false_iff, beq_eq_false_iff_ne,
          decide_eq_false_iff_not]
        omega
      simp [writeReg_of_readOnly hreg, hin, isNext]

/-- An access answers exactly when it keeps the host protocol (R51, R54, R56, R270). -/
theorem isNext_hostAccess (op : HostOp) (s : State) :
    isNext (hostAccess op s) = conforms op s := by
  cases op with
  | regRead addr width => exact isNext_hostRegRead addr width s
  | regWrite addr width data => exact isNext_hostRegWrite addr width data s
  | ibufRead a =>
    by_cases ha : a < s.bufSize.toNat
    · simp only [hostAccess, hostIbufRead, conforms, ha, if_neg (Nat.not_le.mpr ha)]
      split
      · rfl
      · split <;> rfl
    · simp [hostAccess, hostIbufRead, conforms, ha, Nat.not_lt.mp ha, isNext]
  | ibufWrite a v =>
    by_cases ha : a < s.bufSize.toNat
    · cases hp : s.pending <;>
        simp [hostAccess, hostIbufWrite, conforms, ha, Nat.not_le.mpr ha, State.busy, hp, isNext]
    · simp [hostAccess, hostIbufWrite, conforms, ha, Nat.not_lt.mp ha, isNext]
  | obufRead a =>
    by_cases ha : a < s.bufSize.toNat
    · simp only [hostAccess, hostObufRead, conforms, ha, if_neg (Nat.not_le.mpr ha)]
      split
      · rfl
      · split <;> rfl
    · simp [hostAccess, hostObufRead, conforms, ha, Nat.not_lt.mp ha, isNext]
  | obufWrite a v =>
    by_cases ha : a < s.bufSize.toNat
    · simp [hostAccess, hostObufWrite, conforms, ha, Nat.not_le.mpr ha, isNext]
    · simp [hostAccess, hostObufWrite, conforms, ha, Nat.not_lt.mp ha, isNext]

theorem conforms_of_next {op : HostOp} {s t : State} (h : hostAccess op s = .next t) :
    conforms op s = true := by
  rw [← isNext_hostAccess, h, isNext]

/-- Settles O45: the equivalence is `isNext_hostAccess`, and the range checks come first. -/
theorem hostAccessAnswersIffItConforms : Obligations.HostAccessAnswersIffItConforms := by
  intro s addr width a data v
  refine ⟨fun op => isNext_hostAccess op s, fun hbad => ?_, fun ha => ?_,
    fun op rest hagenda => step_of_host hagenda⟩
  · have hok : regAccessOk addr width = false := by
      simpa [regAccessOk, Classical.or_iff_not_imp_left] using hbad
    simp [hostAccess, hostRegRead, hostRegWrite, hok]
  · simp [hostAccess, hostIbufRead, hostIbufWrite, hostObufRead, hostObufWrite, ha]

/-! ### Reads -/

/-- The access is a read. -/
def HostOp.isRead : HostOp → Bool
  | .regRead _ _ | .ibufRead _ | .obufRead _ => true
  | .regWrite _ _ _ | .ibufWrite _ _ | .obufWrite _ _ => false

/-- What a read returns while idle: the value, or the free value of the location (R43, R62). -/
def HostOp.idleData (s : State) : HostOp → Word
  | .regRead addr _ =>
    (regValue s (regAt addr)).getD (unspecified .reg addr.toNat (regAt addr).fieldMask s)
  | .ibufRead a => ((s.ibuf.read a).map (·.setWidth 32)).getD (unspecified .ibuf a 0xFF#32 s)
  | .obufRead a =>
    ((if a < s.outLen.toNat then s.obuf.read a else none).map (·.setWidth 32)).getD
      (unspecified .obuf a 0xFF#32 s)
  | .regWrite _ _ _ | .ibufWrite _ _ | .obufWrite _ _ => 0#32

theorem hostAccess_idleRead {op : HostOp} {s : State} (hop : op.isRead = true)
    (hidle : s.pending = none) (hc : conforms op s = true) :
    hostAccess op s = .next (returnData (op.idleData s) s) := by
  have hbusy : s.busy = false := State.busy_eq_false_iff.mpr hidle
  cases op with
  | regRead addr width =>
    have hok : regAccessOk addr width = true := hc
    simp only [hostAccess, hostRegRead, hok, hbusy, HostOp.idleData]
    cases regValue s (regAt addr) <;> rfl
  | ibufRead a =>
    have ha : ¬ a ≥ s.bufSize.toNat := by simpa [conforms] using hc
    simp only [hostAccess, hostIbufRead, ha, hbusy, HostOp.idleData]
    cases s.ibuf.read a <;> rfl
  | obufRead a =>
    have ha : ¬ a ≥ s.bufSize.toNat := by simpa [conforms] using hc
    simp only [hostAccess, hostObufRead, ha, hbusy, HostOp.idleData]
    cases (if a < s.outLen.toNat then s.obuf.read a else none) <;> rfl
  | regWrite | ibufWrite | obufWrite => cases hop

/-- A read that answers changes at most the host's own read data and the counter (R62). -/
theorem hostAccess_read_frame {op : HostOp} {s t : State} (hop : op.isRead = true)
    (h : hostAccess op s = .next t) : ∃ v d, t = { s with hostRead := some v, draws := d } := by
  have hc := conforms_of_next h
  cases hbusy : s.busy with
  | false =>
    rw [hostAccess_idleRead hop (State.busy_eq_false_iff.mp hbusy) hc] at h
    cases h
    exact ⟨_, _, rfl⟩
  | true =>
    cases op with
    | regRead addr width =>
      have hok : regAccessOk addr width = true := hc
      simp only [hostAccess, hostRegRead, hok, hbusy] at h
      split at h
      · cases h
      · split at h
        · cases h; exact ⟨_, _, rfl⟩
        · split at h <;> cases h <;> exact ⟨_, _, rfl⟩
    | ibufRead a =>
      have ha : ¬ a ≥ s.bufSize.toNat := by simpa [conforms] using hc
      simp only [hostAccess, hostIbufRead, ha, hbusy, if_false, if_true] at h
      cases h
      exact ⟨_, _, rfl⟩
    | obufRead a =>
      have ha : ¬ a ≥ s.bufSize.toNat := by simpa [conforms] using hc
      simp only [hostAccess, hostObufRead, ha, hbusy, if_false, if_true] at h
      cases h
      exact ⟨_, _, rfl⟩
    | regWrite | ibufWrite | obufWrite => cases hop

/-- Settles O51: `hostAccess_read_frame`, and while idle the data of a read is `HostOp.idleData`, which
depends on nothing that a read changes. -/
theorem readsHaveNoSideEffect : Obligations.ReadsHaveNoSideEffect := by
  intro s t op rest hop hagenda hstep
  have hread : op.isRead = true := by
    rcases hop with ⟨_, _, rfl⟩ | ⟨_, rfl⟩ | ⟨_, rfl⟩ <;> rfl
  rw [step_of_host hagenda] at hstep
  refine ⟨?_, fun hidle => ?_⟩
  · obtain ⟨v, d, rfl⟩ := hostAccess_read_frame hread hstep
    rfl
  · have hc := conforms_of_next hstep
    have hdata := hostAccess_idleRead (s := { s with agenda := rest }) hread hidle hc
    rw [hdata] at hstep
    cases hstep
    refine ⟨rfl, fun more hmore => ?_⟩
    rw [step_of_host hmore, hostAccess_idleRead hread (by exact hidle) (by cases op <;> exact hc)]
    cases op <;> rfl

/-! ### Every access -/

/-- What an access that answers can do: a read or an ignored write, a write of one of the four
registers or of a FREQ entry, or of an IBUF byte. -/
theorem hostAccess_cases {op : HostOp} {s t : State} (h : hostAccess op s = .next t) :
    (∃ r d, t = { s with hostRead := r, draws := d }) ∨
    (∃ data, op = .regWrite 0x0004#13 32 data ∧ t = writeCmd data s) ∨
    (∃ data, op = .regWrite 0x0008#13 32 data ∧ t = s.writeStatus data) ∨
    (∃ data, t = s.writeCtrl data) ∨
    (∃ data, t = { s with inLen := data }) ∨
    (∃ sym data, t = { s with freq := freqSet s.freq sym ⟨data, true⟩ }) ∨
    (∃ a v, a < s.bufSize.toNat ∧ t = { s with ibuf := s.ibuf.write a v }) := by
  have hc := conforms_of_next h
  have hidle {b : Prop} {_ : Decidable b} {f : Fault} {u : State}
      (h : (if b then .fault f else .next u : Host.Outcome State Fault Refusal) = .next t) :
      t = u := by split at h <;> cases h; rfl
  cases op with
  | regRead | ibufRead | obufRead =>
    obtain ⟨v, d, rfl⟩ := hostAccess_read_frame rfl h
    exact .inl ⟨_, _, rfl⟩
  | obufWrite a v => exact .inl ⟨s.hostRead, s.draws, hidle h⟩
  | ibufWrite a v =>
    have ha : a < s.bufSize.toNat := by
      simp only [conforms, Bool.and_eq_true, decide_eq_true_eq] at hc; exact hc.1
    simp only [hostAccess, hostIbufWrite, if_neg (Nat.not_le.mpr ha)] at h
    exact .inr (.inr (.inr (.inr (.inr (.inr ⟨a, v, ha, hidle h⟩)))))
  | regWrite addr width data =>
    simp only [conforms, Bool.and_eq_true, beq_iff_eq] at hc
    obtain ⟨⟨rfl, haligned⟩, -⟩ := hc
    rw [hostAccess, hostRegWrite_of_aligned haligned] at h
    rcases regAt_write_cases haligned with ⟨rfl, hreg⟩ | ⟨rfl, hreg⟩ | ⟨rfl, hreg⟩ | ⟨rfl, hreg⟩ |
      ⟨sym, haddr, hreg⟩ | ⟨hnot, hreg⟩
    · cases h; exact .inr (.inl ⟨data, rfl, rfl⟩)
    · cases h; exact .inr (.inr (.inl ⟨data, rfl, rfl⟩))
    · exact .inr (.inr (.inr (.inr (.inl ⟨data, hidle h⟩))))
    · cases h; exact .inr (.inr (.inr (.inl ⟨data, rfl⟩)))
    · rw [hreg] at h
      exact .inr (.inr (.inr (.inr (.inr (.inl ⟨sym, data, hidle h⟩)))))
    · rw [writeReg_of_readOnly hreg] at h
      cases h
      exact .inl ⟨_, _, rfl⟩

/-! ### Busy accesses -/

/-- The bits of STATUS, one by one (R73). -/
theorem State.statusWord_bits (s : State) :
    s.statusWord.getLsbD 0 = s.busy ∧ s.statusWord.getLsbD 1 = s.done ∧
    s.statusWord.getLsbD 2 = s.err ∧ s.statusWord.extractLsb' 8 4 = s.errCode.toBits ∧
    s.statusWord.getLsbD 3 = s.ovr ∧ s.statusWord.getLsbD 16 = s.treeOk ∧
    s.statusWord.getLsbD 17 = s.ctOk ∧ s.statusWord.getLsbD 18 = s.hencOk ∧
    s.statusWord.getLsbD 19 = s.hdrOk := by
  refine ⟨?_, ?_, ?_, BitVec.eq_of_getLsbD_eq fun i hi => ?_, ?_, ?_, ?_, ?_, ?_⟩
  case refine_4 =>
    simp only [State.statusWord, BitVec.getLsbD_extractLsb', BitVec.getLsbD_append]
    simp [hi]
  all_goals simp only [State.statusWord, BitVec.getLsbD_append]; simp

/-- Settles O52: the reads by `step_of_regRead`, with the fields that `statusInv` clears, and the writes
by `writeReg`. -/
theorem busyAccessesFollowTheHazardRules : Obligations.BusyAccessesFollowTheHazardRules := by
  intro s w rest hinv hw
  obtain ⟨hcode, hinfo, hpending⟩ := hinv
  obtain ⟨hdone, herr⟩ := hpending (by rw [hw]; rfl)
  have hbusy : s.busy = true := by simp [State.busy, hw]
  refine ⟨fun h => ?status, fun h => ?errInfo, fun h => ?id, fun h => ?ctrl, fun h => ?bufSize,
    fun data h => ?ctrlWrite, fun data h => ?inLen, fun addr data haligned hlo hhi h => ?freq,
    fun a v ha h => ?ibuf⟩
  case status =>
    obtain ⟨b0, b1, b2, b8, b3, b16, b17, b18, b19⟩ := s.statusWord_bits
    refine ⟨s.statusWord, step_of_regRead h (by decide) (.inr rfl) rfl, by rw [b0, hbusy],
      by rw [b1, hdone], by rw [b2, herr], ?_, b3, b16, b17, b18, b19⟩
    rw [b8, hcode.mp herr]
    rfl
  case errInfo =>
    rw [← hinfo herr]
    exact step_of_regRead h (by decide) (.inr rfl) rfl
  case id => exact step_of_regRead h (by decide) (.inr rfl) rfl
  case ctrl =>
    refine ⟨s.ctrlWord, step_of_regRead h (by decide) (.inr rfl) rfl, ?_⟩
    rw [State.ctrlWord, toNat_append_eq_add, toNat_ofBool, BitVec.toNat_ofNat]
    simp
  case bufSize => exact step_of_regRead h (by decide) (.inr rfl) rfl
  case ctrlWrite => rw [step_of_regWrite h (by decide)]; rfl
  case inLen => rw [step_of_regWrite h (by decide)]; exact if_pos hbusy
  case freq =>
    obtain ⟨sym, haddr⟩ : ∃ sym : Byte, addr.toNat = 0x400 + 4 * sym.toNat :=
      ⟨BitVec.ofNat 8 ((addr.toNat - 0x400) / 4), by rw [BitVec.toNat_ofNat]; omega⟩
    rw [step_of_regWrite h haligned, regAt_freq haddr]
    exact if_pos hbusy
  case ibuf =>
    rw [step_of_host h]
    exact (if_neg (Nat.not_le.mpr ha)).trans (if_pos hbusy)

theorem step_of_busyRegRead {s : State} {addr : RegAddr} {rest : List Event}
    (hagenda : s.agenda = .host (.regRead addr 32) :: rest) (hbusy : s.pending.isSome = true)
    (haligned : addr.toNat % 4 = 0) (hreg : (regAt addr).unspecifiedWhileBusy = true) :
    step s = .next
      { s with
        agenda := rest, draws := s.draws + 1
        hostRead :=
          some (Config.freeWord (s.draws + 1) .reg addr.toNat &&& (regAt addr).fieldMask) } := by
  rw [step_of_host hagenda]
  exact hostRegRead_of_busy (s := { s with agenda := rest }) haligned hbusy hreg

/-- Settles O60: each offset names a register whose `fieldMask` is the mask asked for. -/
theorem busyReadsOfResultsAreDraws : Obligations.BusyReadsOfResultsAreDraws := by
  intro s rest hbusy
  refine ⟨fun addr mask hagenda haddr => ?_, fun a hagenda ha => ?_⟩
  · suffices h : addr.toNat % 4 = 0 ∧ (regAt addr).unspecifiedWhileBusy = true ∧
        (regAt addr).fieldMask = mask by
      obtain ⟨haligned, hreg, rfl⟩ := h
      exact step_of_busyRegRead hagenda hbusy haligned hreg
    rcases haddr with ⟨rfl | rfl | rfl, rfl⟩ | ⟨rfl, rfl⟩ | ⟨rfl | rfl, rfl⟩ | ⟨rfl, rfl⟩ |
      ⟨sym, h, rfl⟩ | ⟨i, hi, h, rfl⟩ | ⟨i, hi, h, rfl⟩
    iterate 7 exact ⟨rfl, rfl, rfl⟩
    · rw [regAt_ct h]; exact ⟨by omega, rfl, rfl⟩
    · rw [regAt_node0 hi h]; exact ⟨by omega, rfl, rfl⟩
    · rw [regAt_node1 hi h]; exact ⟨by omega, rfl, rfl⟩
  · rw [step_of_host hagenda]
    exact (if_neg (Nat.not_le.mpr ha)).trans (if_pos (by simpa [State.busy] using hbusy))

end Sys2Proof.Machine
end

section
/-!
PROOF. Bit strings: their integers, their left-justified bytes and their packed bytes (00_scope R9,
44_bit_packer R196, R197).
-/

namespace Sys2Proof.Machine

/-! ### The integer of a bit string -/

@[simp] theorem bitsVal_nil : bitsVal [] = 0 := rfl

theorem bitsVal_append_singleton (c : List Bool) (b : Bool) :
    bitsVal (c ++ [b]) = 2 * bitsVal c + b.toNat := by
  simp [bitsVal]

theorem bitsVal_append (c d : List Bool) :
    bitsVal (c ++ d) = bitsVal c * 2 ^ d.length + bitsVal d := by
  induction d using List.reverseRecOn with
  | nil => simp
  | append_singleton d b ih =>
    rw [← List.append_assoc, bitsVal_append_singleton, ih, bitsVal_append_singleton,
      List.length_append, List.length_singleton, Nat.pow_succ]
    ring

theorem bitsVal_lt (c : List Bool) : bitsVal c < 2 ^ c.length := by
  induction c using List.reverseRecOn with
  | nil => simp
  | append_singleton c b ih =>
    have hb : b.toNat ≤ 1 := Bool.toNat_le b
    rw [bitsVal_append_singleton, List.length_append, List.length_singleton, Nat.pow_succ]
    omega

/-- Bit j from the end. -/
theorem testBit_bitsVal (c : List Bool) (j : Nat) :
    (bitsVal c).testBit j = c.reverse.getD j false := by
  induction c using List.reverseRecOn generalizing j with
  | nil => simp
  | append_singleton c b ih =>
    rw [bitsVal_append_singleton, List.reverse_append]
    cases j with
    | zero => cases b <;> simp [Nat.testBit_zero, Nat.add_mod]
    | succ j =>
      have hhalf : (2 * bitsVal c + b.toNat) / 2 = bitsVal c := by
        have := Bool.toNat_le b
        omega
      rw [Nat.testBit_succ, hhalf, ih]
      simp

/-! ### A code in a byte -/

/-- Bit j from the top of a left-justified code is its bit j, and zeros follow (R9). -/
theorem getMsbD_codeByte {c : List Bool} (hc : c.length ≤ 8) {j : Nat} (hj : j < 8) :
    (codeByte c).getMsbD j = c.getD j false := by
  have hlt : 8 - 1 - j < 8 := by omega
  simp only [codeByte, BitVec.getMsbD, hj, decide_true, Bool.true_and, BitVec.getLsbD_shiftLeft, hlt,
    BitVec.getLsbD_ofNat, testBit_bitsVal]
  by_cases hjc : j < c.length
  · have hidx : 8 - 1 - j - (8 - c.length) = c.length - 1 - j := by omega
    rw [hidx, List.getD_eq_getElem?_getD, List.getD_eq_getElem?_getD, List.getElem?_reverse (by omega),
      show c.length - 1 - (c.length - 1 - j) = j by omega]
    simp [show ¬ 7 - j < 8 - c.length by omega, show c.length - 1 - j < 8 by omega]
  · have : 7 - j < 8 - c.length := by omega
    simp [this, Nat.not_lt.mp hjc]

/-- The entry that holds a code reads back as that code (R9, R31). -/
theorem CtEntry.bits_codeByte {c : List Bool} (hc : c.length ≤ 8) (v : Bool) :
    CtEntry.bits ⟨v, BitVec.ofNat 4 c.length, codeByte c⟩ = c := by
  have hlen : (BitVec.ofNat 4 c.length).toNat = c.length := by
    rw [BitVec.toNat_ofNat]; omega
  refine List.ext_getElem (by simp [CtEntry.bits, hlen]) fun j hj hjc => ?_
  simp [CtEntry.bits, getMsbD_codeByte hc (show j < 8 by omega), hjc]

/-- The eight bits of the byte that eight bits make (R196, R197). -/
theorem byteBits_ofNat_bitsVal {c : List Bool} (hc : c.length = 8) :
    byteBits (BitVec.ofNat 8 (bitsVal c)) = c := by
  have hbyte : BitVec.ofNat 8 (bitsVal c) = codeByte c := by simp [codeByte, hc]
  refine List.ext_getElem (by simp [byteBits, hc]) fun j hj hjc => ?_
  simp [byteBits, hbyte, getMsbD_codeByte hc.le (show j < 8 by omega), hjc]

/-! ### The bytes of a bit string -/

theorem bytesOf_of_lt {l : List Bool} (h : l.length < 8) : bytesOf l = [] := by
  unfold bytesOf
  split
  · simp at h; omega
  · rfl

theorem bytesOf_append {c : List Bool} (hc : c.length = 8) (rest : List Bool) :
    bytesOf (c ++ rest) = BitVec.ofNat 8 (bitsVal c) :: bytesOf rest := by
  match c, hc with
  | [_, _, _, _, _, _, _, _], _ => rfl

theorem bytesOf_eight {c : List Bool} (hc : c.length = 8) :
    bytesOf c = [BitVec.ofNat 8 (bitsVal c)] := by
  rw [← List.append_nil c, bytesOf_append hc, bytesOf_of_lt (by simp), List.append_nil]

/-- A bit string is short, or its first eight bits and the rest: the recursion of `bytesOf`. -/
theorem bits_byte_induction {P : List Bool → Prop} (short : ∀ l, l.length < 8 → P l)
    (byte : ∀ c rest, c.length = 8 → P rest → P (c ++ rest)) (l : List Bool) : P l := by
  induction hn : l.length using Nat.strong_induction_on generalizing l with
  | _ n ih =>
    by_cases h : l.length < 8
    · exact short l h
    · rw [← List.take_append_drop 8 l]
      exact byte _ _ (by simp; omega) (ih _ (by simp; omega) _ rfl)

theorem length_bytesOf (l : List Bool) : (bytesOf l).length = l.length / 8 := by
  induction l using bits_byte_induction with
  | short l h => rw [bytesOf_of_lt h, List.length_nil, Nat.div_eq_of_lt h]
  | byte c rest hc ih =>
    rw [bytesOf_append hc, List.length_cons, ih, List.length_append, hc]
    omega

/-- The bits of the bytes are the bits that fill whole bytes. -/
theorem flatMap_byteBits_bytesOf (l : List Bool) :
    (bytesOf l).flatMap byteBits = l.take (8 * (l.length / 8)) := by
  induction l using bits_byte_induction with
  | short l h => simp [bytesOf_of_lt h, Nat.div_eq_of_lt h]
  | byte c rest hc ih =>
    have hlen : 8 * ((c ++ rest).length / 8) = c.length + 8 * (rest.length / 8) := by
      rw [List.length_append, hc]; omega
    rw [bytesOf_append hc, List.flatMap_cons, byteBits_ofNat_bitsVal hc, ih, hlen,
      List.take_length_add_append]

/-! ### Pack and Unpack -/

theorem length_add_padOf (t : Nat) : t + padOf t = 8 * bytesFor t := by
  unfold padOf bytesFor
  omega

theorem padOf_lt (t : Nat) : padOf t < 8 := Nat.mod_lt _ (by omega)

theorem length_packBits (b : List Bool) : (packBits b).1.length = bytesFor b.length := by
  rw [packBits, length_bytesOf, List.length_append, List.length_replicate, length_add_padOf]
  omega

/-- The bits of the packed bytes are the bit string and its padding. -/
theorem flatMap_byteBits_packBits (b : List Bool) :
    (packBits b).1.flatMap byteBits = b ++ List.replicate (padOf b.length) false := by
  rw [packBits, flatMap_byteBits_bytesOf, List.length_append, List.length_replicate,
    length_add_padOf]
  exact List.take_of_length_le
    (by rw [List.length_append, List.length_replicate, length_add_padOf]; omega)

/-- The bits that are left of the packed bytes without their padding are the bit string. -/
theorem payloadBits_packBits (b : List Bool) :
    payloadBits (packBits b).1 (8 * (packBits b).1.length - (packBits b).2) = b := by
  have hlen : 8 * (packBits b).1.length - (packBits b).2 = b.length := by
    have := length_add_padOf b.length
    rw [length_packBits]
    show 8 * bytesFor b.length - padOf b.length = b.length
    omega
  rw [payloadBits, flatMap_byteBits_packBits, hlen]
  exact List.take_left

/-- Settles O33: the padding fits, and `payloadBits_packBits`. -/
theorem unpackInvertsPack : Obligations.UnpackInvertsPack := by
  intro b
  have hpad : (packBits b).2 ≤ 8 * (packBits b).1.length := by
    have := length_add_padOf b.length
    rw [length_packBits]
    show padOf b.length ≤ _
    omega
  rw [unpackBits, if_pos hpad]
  exact congrArg some (payloadBits_packBits b)

end Sys2Proof.Machine
end

section
/-!
PROOF. The code table: its entries by symbol, its codes, what `tableInv` says of them, and a table with
a list of entries written (10_state R29, R31, 43_header_codec R167).
-/

namespace Sys2Proof.Machine

/-! ### Symbols in order -/

@[simp] theorem mem_symbols (sym : Byte) : sym ∈ symbols :=
  List.mem_map.mpr ⟨sym.toNat, List.mem_range.mpr sym.isLt, by simp⟩

theorem symbols_eq_range' : symbols = (List.range' 0 256).map (BitVec.ofNat 8) := by
  rw [symbols, List.range_eq_range']

@[simp] theorem length_symbols : symbols.length = 256 := by simp [symbols]

theorem nodup_symbols : symbols.Nodup := by
  refine List.Nodup.map_on (fun a ha b hb hab => ?_) List.nodup_range
  have h := congrArg BitVec.toNat hab
  rw [List.mem_range] at ha hb
  rwa [BitVec.toNat_ofNat, BitVec.toNat_ofNat, Nat.mod_eq_of_lt ha, Nat.mod_eq_of_lt hb] at h

theorem getElem?_symbols {k : Nat} (hk : k < 256) : symbols[k]? = some (BitVec.ofNat 8 k) := by
  simp [symbols, hk]

/-- CT as the list of the symbols' entries. -/
theorem ct_toList (ct : Vector CtEntry 256) : ct.toList = symbols.map (ctAt ct) := by
  refine List.ext_getElem (by simp) fun k hk hk' => ?_
  have hlt : k < 256 := by simpa using hk
  simp [symbols, ctAt, Nat.mod_eq_of_lt hlt]

/-- FREQ as the list of the symbols' entries. -/
theorem freq_toList (freq : Vector FreqEntry 256) : freq.toList = symbols.map (freqAt freq) := by
  refine List.ext_getElem (by simp) fun k hk hk' => ?_
  have hlt : k < 256 := by simpa using hk
  simp [symbols, freqAt, Nat.mod_eq_of_lt hlt]

theorem ct_ext {ct ct' : Vector CtEntry 256} (h : ∀ sym, ctAt ct sym = ctAt ct' sym) : ct = ct' := by
  rw [← Vector.toList_inj, ct_toList, ct_toList]
  exact List.map_congr_left fun sym _ => h sym

/-! ### The VALID entries -/

/-- The symbols with a code, ascending. -/
def validSymbols (ct : Vector CtEntry 256) : List Byte := symbols.filter fun sym => (ctAt ct sym).valid

theorem mem_validSymbols {ct : Vector CtEntry 256} {sym : Byte} :
    sym ∈ validSymbols ct ↔ (ctAt ct sym).valid = true := by
  simp [validSymbols]

theorem entriesFrom_map_range' (f : Byte → CtEntry) (n a : Nat) :
    entriesFrom a ((List.range' a n).map fun k => f (BitVec.ofNat 8 k)) =
      (((List.range' a n).map (BitVec.ofNat 8)).filter fun x => (f x).valid).map fun x => (x, f x) := by
  induction n generalizing a with
  | zero => rfl
  | succ n ih =>
    simp only [List.range'_succ, List.map_cons, entriesFrom, ih, List.filter_cons]
    split <;> simp

theorem validEntries_eq (ct : Vector CtEntry 256) :
    validEntries ct = (validSymbols ct).map fun x => (x, ctAt ct x) := by
  have h := entriesFrom_map_range' (ctAt ct) 256 0
  rw [← symbols_eq_range', show (List.range' 0 256).map (fun k => ctAt ct (BitVec.ofNat 8 k)) =
    symbols.map (ctAt ct) by rw [symbols_eq_range', List.map_map]; rfl, ← ct_toList] at h
  exact h

theorem validCodes_eq (ct : Vector CtEntry 256) :
    validCodes ct = (validSymbols ct).map fun x => (x, (ctAt ct x).bits) := by
  simp [validCodes, validEntries_eq]

theorem mem_validCodes {ct : Vector CtEntry 256} {x : Byte × List Bool} :
    x ∈ validCodes ct ↔ (ctAt ct x.1).valid = true ∧ (ctAt ct x.1).bits = x.2 := by
  obtain ⟨sym, c⟩ := x
  simp [validCodes_eq, mem_validSymbols]

theorem countValid_eq (ct : Vector CtEntry 256) : countValid ct = (validSymbols ct).length := by
  rw [countValid, ct_toList, List.countP_map, validSymbols, List.countP_eq_length_filter]
  rfl

theorem countValid_le (ct : Vector CtEntry 256) : countValid ct ≤ 256 :=
  (List.countP_le_length).trans (by simp)

theorem maxValidLen_le (ct : Vector CtEntry 256) : maxValidLen ct ≤ 15 :=
  maxValidLen_le_iff.mpr fun sym _ => Nat.le_of_lt_succ (ctAt ct sym).len.isLt

/-! ### Prefix-freedom -/

theorem prefixFree_iff {ct : Vector CtEntry 256} :
    prefixFree ct ↔ ∀ x y, (ctAt ct x).valid = true → (ctAt ct y).valid = true → x ≠ y →
      (ctAt ct x).bits.isPrefixOf (ctAt ct y).bits = false := by
  simp only [prefixFree, Prod.forall, mem_validCodes]
  exact ⟨fun h x y hx hy hne => h x _ ⟨hx, rfl⟩ y _ ⟨hy, rfl⟩ hne,
    fun h x _ ⟨hx, hxc⟩ y _ ⟨hy, hyc⟩ hne => hxc ▸ hyc ▸ h x y hx hy hne⟩

/-- HDEC's check is `prefixFree` (R167). -/
theorem prefixClash_eq_false_iff {ct : Vector CtEntry 256} : prefixClash ct = false ↔ prefixFree ct := by
  simp only [prefixClash, prefixFree, List.any_eq_false, Bool.and_eq_true, bne_iff_ne, not_and,
    Bool.not_eq_true]

/-! ### Canonical entries -/

theorem CtEntry.canonical_empty : CtEntry.empty.canonical := .inr ⟨rfl, rfl, rfl⟩

/-- The entry of a code of 1 to 8 bits. -/
theorem CtEntry.canonical_code {c : List Bool} (hpos : 1 ≤ c.length) (hc : c.length ≤ 8) :
    CtEntry.canonical ⟨true, BitVec.ofNat 4 c.length, codeByte c⟩ := by
  have hlen : (BitVec.ofNat 4 c.length).toNat = c.length := by
    rw [BitVec.toNat_ofNat]; omega
  refine .inl ⟨rfl, by rwa [hlen], by rwa [hlen], fun j hj hle => ?_⟩
  rw [getMsbD_codeByte hc hj, List.getD_eq_default _ _ (hlen ▸ hle)]

@[simp] theorem CtEntry.length_bits (e : CtEntry) : e.bits.length = e.len.toNat := by
  simp [CtEntry.bits]

/-- A VALID canonical entry has a code of 1 to 8 bits. -/
theorem CtEntry.length_of_canonical {e : CtEntry} (h : e.canonical) (hv : e.valid = true) :
    1 ≤ e.len.toNat ∧ e.len.toNat ≤ 8 := by
  rcases h with ⟨-, h₁, h₈, -⟩ | ⟨hf, -⟩
  · exact ⟨h₁, h₈⟩
  · rw [hf] at hv; cases hv

theorem CtEntry.bits_ne_nil {e : CtEntry} (h : e.canonical) (hv : e.valid = true) : e.bits ≠ [] := by
  have := (CtEntry.length_of_canonical h hv).1
  rw [← CtEntry.length_bits] at this
  exact List.ne_nil_of_length_pos this

/-- A canonical entry without a code is all zero. -/
theorem CtEntry.eq_empty_of_canonical {e : CtEntry} (h : e.canonical) (hv : e.valid = false) :
    e = CtEntry.empty := by
  obtain ⟨v, len, code⟩ := e
  rcases h with ⟨ht, -⟩ | ⟨hf, hl, hc⟩
  · rw [ht] at hv; cases hv
  · simp_all [CtEntry.empty]

/-! ### The table invariant -/

/-- MAX_LEN summarizes the codes exactly when it is `maxValidLen` (R29). -/
theorem eq_maxValidLen_iff {ct : Vector CtEntry 256} {n : Nat} :
    ((∀ sym, (ctAt ct sym).valid = true → (ctAt ct sym).len.toNat ≤ n) ∧
      (n = 0 ∨ ∃ sym, (ctAt ct sym).valid = true ∧ (ctAt ct sym).len.toNat = n)) ↔
      n = maxValidLen ct := by
  rw [← maxValidLen_le_iff]
  constructor
  · rintro ⟨hle, hatt⟩
    refine Nat.le_antisymm ?_ hle
    rcases hatt with rfl | ⟨sym, hv, rfl⟩
    · exact Nat.zero_le _
    · exact maxValidLen_le_iff.mp le_rfl sym hv
  · rintro rfl
    refine ⟨le_rfl, ?_⟩
    by_contra hno
    obtain ⟨hpos, hno⟩ := not_or.mp hno
    have hlt : maxValidLen ct ≤ maxValidLen ct - 1 := maxValidLen_le_iff.mpr fun sym hv => by
      have hle := maxValidLen_le_iff.mp le_rfl sym hv
      have hne : (ctAt ct sym).len.toNat ≠ maxValidLen ct := fun h => hno ⟨sym, hv, h⟩
      omega
    omega

/-- The table invariant, symbol by symbol (R29, R31). -/
theorem State.tableInv_iff {s : State} :
    s.tableInv ↔ (∀ sym, (ctAt s.ct sym).canonical) ∧ s.numCodes.toNat = countValid s.ct ∧
      s.maxLen.toNat = maxValidLen s.ct := by
  rw [← eq_maxValidLen_iff]
  simp [State.tableInv, mem_iff_exists_ctAt, countValid, List.countP_eq_length_filter]

/-- The registers that summarize a canonical table (R145). -/
theorem tableInv_of_canonical {s : State} (h : ∀ sym, (ctAt s.ct sym).canonical)
    (hnum : s.numCodes = BitVec.ofNat 9 (countValid s.ct))
    (hmax : s.maxLen = BitVec.ofNat 4 (maxValidLen s.ct)) : s.tableInv := by
  have hc := countValid_le s.ct
  have hm := maxValidLen_le s.ct
  refine State.tableInv_iff.mpr ⟨h, ?_, ?_⟩
  · rw [hnum, BitVec.toNat_ofNat]; omega
  · rw [hmax, BitVec.toNat_ofNat]; omega

/-- The cleared table meets the invariant. -/
theorem tableInv_of_cleared {s : State} (hct : s.ct = ctEmpty) (hnum : s.numCodes = 0#9)
    (hmax : s.maxLen = 0#4) : s.tableInv :=
  tableInv_of_canonical (by simp [hct, CtEntry.canonical_empty]) (by simp [hct, hnum])
    (by simp [hct, hmax])

/-! ### A list of entries written -/

/-- CT with the entries of a list written one after another. -/
def ctSetAll (ct : Vector CtEntry 256) (es : List (Byte × CtEntry)) : Vector CtEntry 256 :=
  es.foldl (fun ct x => ctSet ct x.1 x.2) ct

@[simp] theorem ctSetAll_nil (ct : Vector CtEntry 256) : ctSetAll ct [] = ct := rfl

@[simp] theorem ctSetAll_cons (ct : Vector CtEntry 256) (x : Byte × CtEntry)
    (es : List (Byte × CtEntry)) : ctSetAll ct (x :: es) = ctSetAll (ctSet ct x.1 x.2) es := rfl

theorem ctSetAll_append (ct : Vector CtEntry 256) (es fs : List (Byte × CtEntry)) :
    ctSetAll ct (es ++ fs) = ctSetAll (ctSetAll ct es) fs := List.foldl_append

/-- An entry of the result is one of the list, or, for a symbol not in it, the old one. -/
theorem ctAt_ctSetAll (ct : Vector CtEntry 256) (es : List (Byte × CtEntry)) (sym : Byte) :
    (sym, ctAt (ctSetAll ct es) sym) ∈ es ∨
      (sym ∉ es.map (·.1) ∧ ctAt (ctSetAll ct es) sym = ctAt ct sym) := by
  induction es generalizing ct with
  | nil => exact .inr ⟨by simp, rfl⟩
  | cons x es ih =>
    rw [ctSetAll_cons]
    rcases ih (ctSet ct x.1 x.2) with h | ⟨hnot, h⟩
    · exact .inl (List.mem_cons_of_mem _ h)
    · rw [ctAt_ctSet] at h
      split at h
      next heq => exact .inl (List.mem_cons.mpr (.inl (by rw [h, heq])))
      next hne => exact .inr ⟨by simp_all, h⟩

theorem ctAt_ctSetAll_of_not_mem {ct : Vector CtEntry 256} {es : List (Byte × CtEntry)} {sym : Byte}
    (h : sym ∉ es.map (·.1)) : ctAt (ctSetAll ct es) sym = ctAt ct sym := by
  rcases ctAt_ctSetAll ct es sym with hmem | ⟨-, heq⟩
  · exact absurd (List.mem_map_of_mem (f := (·.1)) hmem) h
  · exact heq

/-- With distinct symbols every entry of the list stands in the result. -/
theorem ctAt_ctSetAll_of_mem {ct : Vector CtEntry 256} {es : List (Byte × CtEntry)}
    (hnodup : (es.map (·.1)).Nodup) {x : Byte × CtEntry} (hx : x ∈ es) :
    ctAt (ctSetAll ct es) x.1 = x.2 := by
  rcases ctAt_ctSetAll ct es x.1 with hmem | ⟨hnot, -⟩
  · have heq := List.inj_on_of_nodup_map hnodup hmem hx rfl
    exact congrArg Prod.snd heq
  · exact absurd (List.mem_map_of_mem (f := (·.1)) hx) hnot

/-- New symbols given codes: as many VALID entries more. -/
theorem countValid_ctSetAll {ct : Vector CtEntry 256} {es : List (Byte × CtEntry)}
    (hnodup : (es.map (·.1)).Nodup) (hvalid : ∀ x ∈ es, x.2.valid = true)
    (hfresh : ∀ x ∈ es, (ctAt ct x.1).valid = false) :
    countValid (ctSetAll ct es) = countValid ct + es.length := by
  induction es generalizing ct with
  | nil => rfl
  | cons x es ih =>
    rw [List.forall_mem_cons] at hvalid hfresh
    rw [List.map_cons, List.nodup_cons] at hnodup
    rw [ctSetAll_cons, ih hnodup.2 hvalid.2, countValid_ctSet_of_not_valid hfresh.1 hvalid.1,
      List.length_cons]
    · omega
    · intro y hy
      have hne : y.1 ≠ x.1 := fun h => hnodup.1 (h ▸ List.mem_map_of_mem (f := (·.1)) hy)
      rw [ctAt_ctSet, if_neg hne, hfresh.2 y hy]

end Sys2Proof.Machine
end

section
/-!
PROOF. Bytes stored to OBUF by a command: within which offsets, and what a list of bytes put out one
after another leaves (40_control R112).
-/

namespace Sys2Proof.Machine

/-! ### Stores within a range -/

/-- `m'` comes from `m` by stores below `n`, at offsets from `lo` to below `hi`. -/
structure StoredWithin (n lo hi : Nat) (m m' : Memory) : Prop where
  same : sameOutside m m' lo hi
  wf : m.wf → m'.wf
  below : (∀ c ∈ m, c.1 < n) → ∀ c ∈ m', c.1 < n
  kept : ∀ a, m.read a ≠ none → m'.read a ≠ none

theorem StoredWithin.refl (n lo hi : Nat) (m : Memory) : StoredWithin n lo hi m m :=
  ⟨fun _ _ => rfl, id, id, fun _ => id⟩

theorem StoredWithin.trans {n lo hi : Nat} {m m' m'' : Memory} (h : StoredWithin n lo hi m m')
    (h' : StoredWithin n lo hi m' m'') : StoredWithin n lo hi m m'' :=
  ⟨fun a ha => (h'.same a ha).trans (h.same a ha), h'.wf ∘ h.wf, h'.below ∘ h.below,
    fun a => h'.kept a ∘ h.kept a⟩

theorem StoredWithin.mono {n lo hi lo' hi' : Nat} {m m' : Memory} (h : StoredWithin n lo hi m m')
    (hlo : lo' ≤ lo) (hhi : hi ≤ hi') : StoredWithin n lo' hi' m m' :=
  ⟨fun a ha => h.same a (by omega), h.wf, h.below, h.kept⟩

theorem StoredWithin.write {n lo hi a : Nat} (m : Memory) (v : Byte) (hn : a < n) (hlo : lo ≤ a)
    (hhi : a < hi) : StoredWithin n lo hi m (m.write a v) :=
  ⟨fun b hb => Memory.read_write_other m v (by omega), Memory.write_wf a v, Memory.write_below hn,
    fun _ => Memory.read_write_isSome⟩

/-- What holds outside the range of later stores holds after them. -/
theorem StoredWithin.holds {n lo hi off : Nat} {m m' : Memory} {bytes : List Byte}
    (h : StoredWithin n lo hi m m') (hbytes : holds m off bytes)
    (hdisjoint : off + bytes.length ≤ lo ∨ hi ≤ off) : holds m' off bytes :=
  fun i hi => (h.same (off + i) (by omega)).trans (hbytes i hi)

theorem read_ne_none_of_holds {m : Memory} {off : Nat} {bytes : List Byte} (h : holds m off bytes)
    {a : Nat} (hlo : off ≤ a) (hhi : a < off + bytes.length) : m.read a ≠ none := by
  have := h (a - off) (by omega)
  rw [show off + (a - off) = a by omega] at this
  rw [this]
  simp [show a - off < bytes.length by omega]

theorem holds_append {m : Memory} {off : Nat} {xs ys : List Byte} :
    holds m off (xs ++ ys) ↔ holds m off xs ∧ holds m (off + xs.length) ys := by
  constructor
  · refine fun h => ⟨fun i hi => ?_, fun i hi => ?_⟩
    · rw [h i (by simp; omega), List.getElem?_append_left hi]
    · rw [Nat.add_assoc, h _ (by simp; omega), List.getElem?_append_right (by omega)]
      congr 1; omega
  · rintro ⟨hx, hy⟩ i hi
    by_cases hlt : i < xs.length
    · rw [hx i hlt, List.getElem?_append_left hlt]
    · rw [List.getElem?_append_right (by omega), ← hy _ (by simp at hi; omega)]
      congr 1; omega

theorem holds_cons {m : Memory} {off : Nat} {x : Byte} {xs : List Byte} :
    holds m off (x :: xs) ↔ m.read off = some x ∧ holds m (off + 1) xs := by
  rw [← List.singleton_append, holds_append]
  simp [holds]

/-! ### Parts of a body -/

theorem Exit.bind_assoc {α β γ : Type} (x : Exit α) (f : α → State → Exit β)
    (g : β → State → Exit γ) : (x.bind f).bind g = x.bind fun a s => (f a s).bind g := by
  cases x <;> rfl

@[simp] theorem emitList_nil (q : Nat) (s : State) : emitList q [] s = .ok q s := rfl

theorem emitList_cons (q : Nat) (v : Byte) (vs : List Byte) (s : State) :
    emitList q (v :: vs) s = (emitOut q v s).bind fun _ s => emitList (q + 1) vs s := rfl

theorem emitList_append (q : Nat) (vs ws : List Byte) (s : State) :
    emitList q (vs ++ ws) s = (emitList q vs s).bind fun q s => emitList q ws s := by
  induction vs generalizing q s with
  | nil => rfl
  | cons v vs ih => simp only [List.cons_append, emitList_cons, Exit.bind_assoc, ih]

theorem emitList_singleton (q : Nat) (v : Byte) (s : State) :
    emitList q [v] s = (emitOut q v s).bind fun _ s => .ok (q + 1) s := rfl

/-- A list of bytes put out: those below BUF_BYTES are stored, and OUTPUT_OVERFLOW ends it when one
is not. -/
theorem emitList_spec (q : Nat) (vs : List Byte) (s : State) :
    ∃ m, holds m q (vs.take (s.bufSize.toNat - q)) ∧
      StoredWithin s.bufSize.toNat q (q + vs.length) s.obuf m ∧
      (vs = [] ∨ q + vs.length ≤ s.bufSize.toNat →
        emitList q vs s = .ok (q + vs.length) { s with obuf := m }) ∧
      (vs ≠ [] → s.bufSize.toNat < q + vs.length →
        emitList q vs s =
          .raise .outputOverflow s.bufSize { s with obuf := m, outLen := 0#32 }) := by
  induction vs generalizing q s with
  | nil => exact ⟨s.obuf, by simp [holds], .refl .., fun _ => rfl, fun h => absurd rfl h⟩
  | cons v vs ih =>
    rw [emitList_cons]
    rcases emitOut_cases q v s with ⟨hlt, hemit⟩ | ⟨hge, hemit⟩ <;> rw [hemit]
    · obtain ⟨m, hholds, hstored, hok, hraise⟩ := ih (q + 1) { s with obuf := s.obuf.write q v }
      refine ⟨m, ?_, ?_, fun hfit => ?_, fun _ hover => ?_⟩
      · rw [show s.bufSize.toNat - q = s.bufSize.toNat - (q + 1) + 1 by omega, List.take_succ_cons,
          holds_cons]
        exact ⟨(hstored.same q (by omega)).trans (Memory.read_write_same ..), hholds⟩
      · refine (StoredWithin.write s.obuf v hlt le_rfl (by simp)).trans (hstored.mono (by omega) ?_)
        simp only [List.length_cons]; omega
      · have hfit' : q + (vs.length + 1) ≤ s.bufSize.toNat := by simpa using hfit
        rw [Exit.bind_ok, hok (.inr (by show q + 1 + vs.length ≤ s.bufSize.toNat; omega)),
          List.length_cons]
        congr 1
        omega
      · rw [List.length_cons] at hover
        have hne : vs ≠ [] := by rintro rfl; simp at hover; omega
        exact hraise hne (by show s.bufSize.toNat < q + 1 + vs.length; omega)
    · refine ⟨s.obuf, ?_, .refl .., fun hfit => ?_, fun _ _ => rfl⟩
      · rw [Nat.sub_eq_zero_of_le hge, List.take_zero]
        exact fun i hi => absurd hi (by simp)
      · simp at hfit
        omega

/-- A list of bytes that fits. -/
theorem emitList_fits {q : Nat} {vs : List Byte} {s : State}
    (hfit : vs = [] ∨ q + vs.length ≤ s.bufSize.toNat) :
    ∃ m, emitList q vs s = .ok (q + vs.length) { s with obuf := m } ∧ holds m q vs ∧
      StoredWithin s.bufSize.toNat q (q + vs.length) s.obuf m := by
  obtain ⟨m, hholds, hstored, hok, -⟩ := emitList_spec q vs s
  refine ⟨m, hok hfit, ?_, hstored⟩
  rwa [List.take_of_length_le] at hholds
  rcases hfit with rfl | h
  · simp
  · omega

/-- A list of bytes that does not fit. -/
theorem emitList_overflows {q : Nat} {vs : List Byte} {s : State} (hne : vs ≠ [])
    (hover : s.bufSize.toNat < q + vs.length) :
    ∃ m, emitList q vs s =
        .raise .outputOverflow s.bufSize { s with obuf := m, outLen := 0#32 } ∧
      StoredWithin s.bufSize.toNat q (q + vs.length) s.obuf m := by
  obtain ⟨m, -, hstored, -, hraise⟩ := emitList_spec q vs s
  exact ⟨m, hraise hne hover, hstored⟩

/-- Either it fits or it does not. -/
theorem emitList_fits_or_overflows (q : Nat) (vs : List Byte) (s : State) :
    (vs = [] ∨ q + vs.length ≤ s.bufSize.toNat) ∨ (vs ≠ [] ∧ s.bufSize.toNat < q + vs.length) := by
  by_cases h : vs = []
  · exact .inl (.inl h)
  · by_cases hle : q + vs.length ≤ s.bufSize.toNat
    · exact .inl (.inr hle)
    · exact .inr ⟨h, by omega⟩

/-- Bytes put out change OBUF alone. -/
theorem emitList_frame {q q' : Nat} {vs : List Byte} {s s' : State}
    (h : emitList q vs s = .ok q' s') : ∃ m, s' = { s with obuf := m } := by
  rcases emitList_fits_or_overflows q vs s with hfit | ⟨hne, hover⟩
  · obtain ⟨m, hok, -⟩ := emitList_fits hfit
    rw [hok] at h
    cases h
    exact ⟨m, rfl⟩
  · obtain ⟨m, hraise, -⟩ := emitList_overflows hne hover
    rw [hraise] at h
    cases h

end Sys2Proof.Machine
end

section
/-!
PROOF. The header encoder HENC (43_header_codec R160 to R162, 30_encoding R85 to R93).
-/

namespace Sys2Proof.Machine

/-! ### The header as the spec lays it out -/

theorem symbolsOfLen_eq (ct : Vector CtEntry 256) (len : Nat) :
    symbolsOfLen ct len = (validSymbols ct).filter fun x => (ctAt ct x).len.toNat == len := by
  simp only [symbolsOfLen, validSymbols, List.filter_filter, Bool.and_comm]

theorem mem_symbolsOfLen {ct : Vector CtEntry 256} {len : Nat} {sym : Byte} :
    sym ∈ symbolsOfLen ct len ↔ (ctAt ct sym).valid = true ∧ (ctAt ct sym).len.toNat = len := by
  simp [symbolsOfLen]

theorem entriesOfLen_eq (ct : Vector CtEntry 256) (len : Nat) :
    entriesOfLen ct len = (symbolsOfLen ct len).map fun x => (x, ctAt ct x) := by
  rw [entriesOfLen, validEntries_eq, symbolsOfLen_eq, List.filter_map]
  rfl

theorem groupBytes_eq (ct : Vector CtEntry 256) (len : Nat) : groupBytes ct len = groupSpec ct len := by
  rw [groupBytes, groupSpec, entriesOfLen_eq]
  cases symbolsOfLen ct len with
  | nil => rfl
  | cons x xs => simp [encodeCount, pairBytes, List.flatMap_map]

theorem headerBytes_eq (s : State) : headerBytes s.numCodes s.ct = headerSpec s := by
  simp only [headerBytes, headerSpec, encodeCount, codeLengths, List.flatMap_cons, List.flatMap_nil,
    groupBytes_eq, List.append_nil, List.append_assoc]

theorem headerSpec_ne_nil (s : State) : headerSpec s ≠ [] := List.cons_ne_nil _ _

/-! ### Its size -/

/-- The bytes of a group of `count` codes, none for an absent length (R88 to R90). -/
def groupSize (count : Nat) : Nat := if 0 < count then 2 + 2 * count else 0

theorem length_groupSpec (ct : Vector CtEntry 256) (len : Nat) :
    (groupSpec ct len).length = groupSize (symbolsOfLen ct len).length := by
  rw [groupSpec]
  cases symbolsOfLen ct len with
  | nil => rfl
  | cons x xs => simp [groupSize, Nat.mul_comm]; omega

/-- The numbers of codes of each length, ascending. -/
def lengthCounts (ct : Vector CtEntry 256) : List Nat :=
  codeLengths.map fun len => (symbolsOfLen ct len).length

theorem headerSize_eq (ct : Vector CtEntry 256) :
    headerSize ct = 2 + ((lengthCounts ct).map groupSize).sum := by
  have hsum : ∀ counts : List Nat,
      ((counts.filter (0 < ·)).map fun count => 2 + 2 * count).sum = (counts.map groupSize).sum := by
    intro counts
    induction counts with
    | nil => rfl
    | cons n ns ih =>
      rw [List.filter_cons]
      by_cases hn : 0 < n <;> simp [hn, groupSize] at ih ⊢ <;> exact ih
  exact congrArg (2 + ·) (hsum _)

theorem length_headerSpec (s : State) : 1 + (headerSpec s).length = headerSize s.ct := by
  rw [headerSize_eq]
  simp only [headerSpec, List.length_cons, List.length_append, length_groupSpec, lengthCounts,
    codeLengths, List.map_cons, List.map_nil, List.sum_cons, List.sum_nil]
  omega

/-- Every code of a canonical table has one of the eight lengths. -/
theorem sum_lengthCounts {ct : Vector CtEntry 256} (h : ∀ sym, (ctAt ct sym).canonical) :
    (lengthCounts ct).sum = countValid ct := by
  have hcount : ∀ syms : List Byte, (∀ x ∈ syms, (ctAt ct x).valid = true) →
      (codeLengths.map fun len => (syms.filter fun x => (ctAt ct x).len.toNat == len).length).sum =
        syms.length := by
    intro syms hv
    induction syms with
    | nil => rfl
    | cons x xs ih =>
      rw [List.forall_mem_cons] at hv
      obtain ⟨hpos, hmax⟩ := CtEntry.length_of_canonical (h x) hv.1
      have ih := ih hv.2
      simp only [codeLengths, List.map_cons, List.map_nil, List.sum_cons, List.sum_nil,
        List.length_cons, List.filter_cons] at ih ⊢
      generalize (ctAt ct x).len.toNat = n at hpos hmax
      interval_cases n <;> simp <;> omega
  rw [countValid_eq, ← hcount _ fun x hx => mem_validSymbols.mp hx]
  simp only [lengthCounts, symbolsOfLen_eq]

theorem sum_groupSize_le (counts : List Nat) :
    (counts.map groupSize).sum ≤ 2 * counts.length + 2 * counts.sum := by
  induction counts with
  | nil => simp
  | cons n ns ih =>
    have hn : groupSize n ≤ 2 + 2 * n := by unfold groupSize; split <;> omega
    simp only [List.map_cons, List.sum_cons, List.length_cons]
    omega

theorem le_sum_groupSize {counts : List Nat} (h : 1 ≤ counts.sum) :
    4 ≤ (counts.map groupSize).sum := by
  induction counts with
  | nil => simp at h
  | cons n ns ih =>
    simp only [List.map_cons, List.sum_cons] at h ⊢
    by_cases hn : 0 < n
    · have : groupSize n = 2 + 2 * n := if_pos hn
      omega
    · have := ih (by omega)
      omega

/-- From 6 to 530 bytes, with at least one code (R93). -/
theorem headerSize_bounds {s : State} (h : s.tableInv) :
    headerSize s.ct ≤ 530 ∧ (1 ≤ s.numCodes.toNat → 6 ≤ headerSize s.ct) := by
  obtain ⟨hcanon, hnum, -⟩ := State.tableInv_iff.mp h
  have hsum := sum_lengthCounts hcanon
  have hle := countValid_le s.ct
  have hupper := sum_groupSize_le (lengthCounts s.ct)
  have hlen : (lengthCounts s.ct).length = 8 := by simp [lengthCounts, codeLengths]
  rw [headerSize_eq]
  refine ⟨by omega, fun hpos => ?_⟩
  have := le_sum_groupSize (counts := lengthCounts s.ct) (by omega)
  omega

/-! ### HENC -/

/-- With CT_OK, HENC is its body after HENC_OK was consumed (R104, R109). -/
theorem exec_henc_of_ctOk {s : State} (h : s.ctOk = true) :
    exec .henc s = finish (hencBody (consumeHenc s)) :=
  congrArg finish (by rw [consumeHenc_ctOk, h, requireFlag_true])

theorem hencBody_fits {s : State} (hfit : 1 + (headerSpec s).length ≤ s.bufSize.toNat) :
    ∃ m, hencBody s = .ok ()
        { s with obuf := m, outLen := BitVec.ofNat 32 (1 + (headerSpec s).length), hencOk := true } ∧
      holds m 0 (0x00#8 :: headerSpec s) ∧
      StoredWithin s.bufSize.toNat 0 (1 + (headerSpec s).length) s.obuf m := by
  obtain ⟨m, hemit, hholds, hstored⟩ := emitList_fits (.inr hfit)
  refine ⟨m.write 0 0x00#8, ?_, ?_, ?_⟩
  · rw [hencBody, headerBytes_eq, hemit, Exit.bind_ok,
      emitOut_of_lt (by show 0 < s.bufSize.toNat; omega)]
    rfl
  · rw [holds_cons]
    exact ⟨Memory.read_write_same .., (StoredWithin.write (n := 1) (lo := 0) (hi := 1) m _
      (by omega) le_rfl (by omega)).holds hholds (.inr le_rfl)⟩
  · exact (hstored.mono (by omega) le_rfl).trans
      (StoredWithin.write m _ (by omega) le_rfl (by omega))

theorem hencBody_overflows {s : State} (hover : s.bufSize.toNat < 1 + (headerSpec s).length) :
    ∃ m, hencBody s = .raise .outputOverflow s.bufSize { s with obuf := m, outLen := 0#32 } ∧
      StoredWithin s.bufSize.toNat 0 (1 + (headerSpec s).length) s.obuf m := by
  obtain ⟨m, hemit, hstored⟩ := emitList_overflows (headerSpec_ne_nil s) hover
  refine ⟨m, ?_, hstored.mono (by omega) le_rfl⟩
  rw [hencBody, headerBytes_eq, hemit, Exit.bind_raise]

/-- Settles O27: a canonical table's header fits in every legal BUF_BYTES. -/
theorem hencWritesTheHeader : Obligations.HencWritesTheHeader := by
  intro s hok hbuf htable
  have hle := (headerSize_bounds htable).1
  have hsize := length_headerSpec s
  have hmin : 1024 ≤ s.bufSize.toNat := hbuf.1
  obtain ⟨m, hbody, hholds, hstored⟩ :=
    hencBody_fits (s := consumeHenc s) (show 1 + (headerSpec s).length ≤ s.bufSize.toNat by omega)
  refine ⟨m, ?_, hholds, hstored.same⟩
  rw [exec_henc_of_ctOk hok, hbody, finish_ok]
  rfl

/-- Settles O28: OUT_LEN is the length of the header, which `length_headerSpec` adds up. -/
theorem headerSizeIsAccountedFor : Obligations.HeaderSizeIsAccountedFor := by
  intro s t hok hbuf htable hcodes hexec
  obtain ⟨m, hnext, -⟩ := hencWritesTheHeader s hok hbuf htable
  obtain ⟨hle, hge⟩ := headerSize_bounds htable
  rw [hnext] at hexec
  cases hexec
  have hout : (BitVec.ofNat 32 (1 + (headerSpec s).length)).toNat = headerSize s.ct := by
    rw [length_headerSpec, BitVec.toNat_ofNat]; omega
  exact ⟨hout, by rw [hout]; exact hge (hcodes hok).2, by rw [hout]; exact hle⟩

end Sys2Proof.Machine
end

section
/-!
PROOF. The bit packer PACK as bytes put out one after another, and its barrel-shifter form
(44_bit_packer R190 to R196).
-/

namespace Sys2Proof.Machine

/-! ### The bits that do not fill a byte yet -/

/-- The bits after the last whole byte. -/
def tailBits (l : List Bool) : List Bool := l.drop (8 * (l.length / 8))

theorem tailBits_of_lt {l : List Bool} (h : l.length < 8) : tailBits l = l := by
  simp [tailBits, Nat.div_eq_of_lt h]

theorem tailBits_append {c : List Bool} (hc : c.length = 8) (rest : List Bool) :
    tailBits (c ++ rest) = tailBits rest := by
  have hlen : 8 * ((c ++ rest).length / 8) = c.length + 8 * (rest.length / 8) := by
    rw [List.length_append, hc]; omega
  rw [tailBits, hlen, List.drop_length_add_append, tailBits]

theorem length_tailBits (l : List Bool) : (tailBits l).length = l.length % 8 := by
  rw [tailBits, List.length_drop]; omega

/-- The last byte of a packed bit string, if its bits do not fill whole bytes (R192). -/
def lastByte (l : List Bool) : List Byte := if tailBits l = [] then [] else [codeByte (tailBits l)]

theorem bitsVal_append_zeros (c : List Bool) (n : Nat) :
    bitsVal (c ++ List.replicate n false) = bitsVal c * 2 ^ n := by
  have hzero : bitsVal (List.replicate n false) = 0 := by
    induction n with
    | zero => rfl
    | succ n ih => rw [List.replicate_succ', bitsVal_append_singleton, ih]; rfl
  rw [bitsVal_append, hzero, List.length_replicate, Nat.add_zero]

theorem codeByte_eq_zeros (c : List Bool) :
    codeByte c = BitVec.ofNat 8 (bitsVal (c ++ List.replicate (8 - c.length) false)) := by
  rw [bitsVal_append_zeros]
  refine BitVec.eq_of_toNat_eq ?_
  simp [codeByte, Nat.shiftLeft_eq]

/-- Pack is the whole bytes and the last byte (R192, R196). -/
theorem packBits_eq (l : List Bool) : (packBits l).1 = bytesOf l ++ lastByte l := by
  show bytesOf (l ++ List.replicate (padOf l.length) false) = _
  induction l using bits_byte_induction with
  | short l h =>
    rw [bytesOf_of_lt h, List.nil_append, lastByte, tailBits_of_lt h]
    cases l with
    | nil => rfl
    | cons b l =>
      have hpad : padOf (b :: l).length = 8 - (b :: l).length := by
        simp only [List.length_cons, padOf] at h ⊢; omega
      rw [hpad, if_neg (List.cons_ne_nil b l), codeByte_eq_zeros,
        bytesOf_eight (by simp at h ⊢; omega)]
  | byte c rest hc ih =>
    have hpad : padOf (c ++ rest).length = padOf rest.length := by
      simp only [padOf, List.length_append, hc]; omega
    rw [hpad, List.append_assoc, bytesOf_append hc, bytesOf_append hc, ih, lastByte, lastByte,
      tailBits_append hc, List.cons_append]

/-! ### The shift register -/

/-- The shift register with the bits `r` in it. -/
def shifterOf (q : Nat) (r : List Bool) (t : Nat) : Shifter :=
  ⟨q, BitVec.ofNat 8 (bitsVal r), r.length, t⟩

theorem shift_in_bit (v : Nat) (b : Bool) :
    (BitVec.ofNat 8 v <<< 1) ||| (BitVec.ofBool b).setWidth 8 = BitVec.ofNat 8 (2 * v + b.toNat) := by
  refine BitVec.eq_of_getLsbD_eq fun i hi => ?_
  simp only [BitVec.getLsbD_or, BitVec.getLsbD_shiftLeft, BitVec.getLsbD_ofNat,
    BitVec.getLsbD_setWidth, BitVec.getLsbD_ofBool, hi, decide_true, Bool.true_and]
  cases i with
  | zero => cases b <;> simp [Nat.testBit_zero, Nat.add_mod]
  | succ i =>
    have hhalf : (2 * v + b.toNat) / 2 = v := by have := Bool.toNat_le b; omega
    simp [Nat.testBit_succ, hhalf, show i < 8 by omega]

theorem packBit_shifterOf (b : Bool) (q : Nat) (r : List Bool) (t : Nat) (s : State) :
    packBit b (shifterOf q r t) s =
      if r.length + 1 = 8 then
        (emitOut q (BitVec.ofNat 8 (bitsVal (r ++ [b]))) s).bind fun _ s =>
          .ok (shifterOf (q + 1) [] (t + 1)) s
      else .ok (shifterOf q (r ++ [b]) (t + 1)) s := by
  simp only [packBit, shifterOf, shift_in_bit, ← bitsVal_append_singleton]
  simp

/-- The bits of a code fill whole bytes, which go out, and the rest stays in the register (R190). -/
theorem packCode_shifterOf (c : List Bool) (q : Nat) {r : List Bool} (t : Nat) (s : State)
    (hr : r.length < 8) :
    packCode c (shifterOf q r t) s =
      (emitList q (bytesOf (r ++ c)) s).bind fun q s =>
        .ok (shifterOf q (tailBits (r ++ c)) (t + c.length)) s := by
  induction c generalizing q r t s with
  | nil => rw [List.append_nil, bytesOf_of_lt hr, tailBits_of_lt hr]; rfl
  | cons b c ih =>
    have hsplit : r ++ b :: c = (r ++ [b]) ++ c := by simp
    have ht : t + (b :: c).length = t + 1 + c.length := by rw [List.length_cons]; omega
    rw [packCode, packBit_shifterOf, hsplit, ht]
    split
    next hfull =>
      have hlen : (r ++ [b]).length = 8 := by simpa using hfull
      rw [bytesOf_append hlen, tailBits_append hlen, emitList_cons, Exit.bind_assoc, Exit.bind_assoc]
      simp only [Exit.bind_ok]
      congr 1
      funext _ s
      exact ih (q + 1) (t + 1) s (by simp)
    next hfull =>
      rw [Exit.bind_ok]
      exact ih q (t + 1) s (by simp; omega)

theorem packCode_append (c d : List Bool) (x : Shifter) (s : State) :
    packCode (c ++ d) x s = (packCode c x s).bind fun x s => packCode d x s := by
  induction c generalizing x s with
  | nil => rfl
  | cons b c ih => simp only [List.cons_append, packCode, Exit.bind_assoc, ih]

/-- Putting bits out changes OBUF alone. -/
theorem packCode_frame {c : List Bool} {x x' : Shifter} {s s' : State}
    (h : packCode c x s = .ok x' s') : ∃ m, s' = { s with obuf := m } := by
  induction c generalizing x s with
  | nil => cases h; exact ⟨_, rfl⟩
  | cons b c ih =>
    obtain ⟨y, u, hbit, hrest⟩ := Exit.bind_eq_ok.mp h
    obtain ⟨m, hu⟩ : ∃ m, u = { s with obuf := m } := by
      simp only [packBit] at hbit
      split at hbit
      · rcases emitOut_cases x.q ((x.acc <<< 1) ||| (BitVec.ofBool b).setWidth 8) s with
          ⟨-, he⟩ | ⟨-, he⟩ <;> rw [he] at hbit <;> cases hbit
        exact ⟨_, rfl⟩
      · cases hbit; exact ⟨_, rfl⟩
    obtain ⟨m', rfl⟩ := ih hrest
    exact ⟨m', by rw [hu]⟩

theorem Exit.bind_congr {α β : Type} {x : Exit α} {f g : α → State → Exit β}
    (h : ∀ a s, x = .ok a s → f a s = g a s) : x.bind f = x.bind g := by
  cases x with
  | ok a s => exact h a s rfl
  | raise e w s => rfl
  | fault f => rfl

/-! ### The input bytes -/

theorem codesOf_cons (ct : Vector CtEntry 256) (x : Byte) (xs : List Byte) :
    codesOf ct (x :: xs) = (ctAt ct x).bits ++ codesOf ct xs := rfl

/-- Input bytes with codes are their codes put out one after another (R190). -/
theorem packLoop_of_valid {xs : List Byte} (n i : Nat) (x : Shifter) (s : State)
    (hread : holds s.ibuf i xs) (hvalid : ∀ y ∈ xs, (ctAt s.ct y).valid = true) :
    packLoop (xs.length + n) i x s =
      (packCode (codesOf s.ct xs) x s).bind fun x s => packLoop n (i + xs.length) x s := by
  induction xs generalizing i x s with
  | nil => simp [codesOf, packCode]
  | cons y ys ih =>
    rw [holds_cons] at hread
    rw [List.forall_mem_cons] at hvalid
    rw [List.length_cons, show ys.length + 1 + n = ys.length + n + 1 by omega, packLoop,
      memRead_of_read hread.1, Exit.bind_ok, if_pos hvalid.1, codesOf_cons, packCode_append,
      Exit.bind_assoc]
    refine Exit.bind_congr fun x' s' hcode => ?_
    obtain ⟨m, rfl⟩ := packCode_frame hcode
    rw [ih (i + 1) x' { s with obuf := m } hread.2 hvalid.2,
      show i + 1 + ys.length = i + (ys.length + 1) by omega]

/-- What the input from offset i begins with: bytes that have codes, up to the end, to a byte that nobody
wrote, or to one without a code. -/
theorem input_cases (m : Memory) (ct : Vector CtEntry 256) (n i : Nat) :
    ∃ xs, holds m i xs ∧ (∀ y ∈ xs, (ctAt ct y).valid = true) ∧
      (xs.length = n ∨ (xs.length < n ∧ (m.read (i + xs.length) = none ∨
        ∃ y, m.read (i + xs.length) = some y ∧ (ctAt ct y).valid = false))) := by
  induction n generalizing i with
  | zero => exact ⟨[], by simp [holds], by simp, .inl rfl⟩
  | succ n ih =>
    cases hread : m.read i with
    | none => exact ⟨[], by simp [holds], by simp, .inr ⟨Nat.succ_pos n, .inl hread⟩⟩
    | some y =>
      cases hy : (ctAt ct y).valid with
      | false => exact ⟨[], by simp [holds], by simp, .inr ⟨Nat.succ_pos n, .inr ⟨y, hread, hy⟩⟩⟩
      | true =>
        obtain ⟨xs, hxs, hvalid, hend⟩ := ih (i + 1)
        refine ⟨y :: xs, holds_cons.mpr ⟨hread, hxs⟩, List.forall_mem_cons.mpr ⟨hy, hvalid⟩, ?_⟩
        rw [List.length_cons, show i + (xs.length + 1) = i + 1 + xs.length by omega]
        exact hend.imp (by omega) fun h => ⟨by omega, h.2⟩

/-! ### The body -/

theorem packFlush_shifterOf (q t : Nat) (l : List Bool) (s : State) :
    packFlush (shifterOf q (tailBits l) t) s = emitList q (lastByte l) s := by
  rw [lastByte]
  by_cases h : tailBits l = []
  · rw [if_pos h, h]; rfl
  · have hpos : 0 < (tailBits l).length := List.length_pos_of_ne_nil h
    simp only [packFlush, shifterOf, padCount, if_pos hpos, if_neg h, emitList_singleton, gt_iff_lt]
    rfl

theorem padCount_length_tailBits (l : List Bool) : padCount (tailBits l).length = padOf l.length := by
  rw [length_tailBits, padCount, padOf]
  split <;> omega

/-- PACK's results after it put out the codes, up to offset q (R192, R193). -/
def packResults (bits : List Bool) (q : Nat) (s : State) : State :=
  { s with
    obuf := s.obuf.write 0 (BitVec.ofNat 8 (packBits bits).2)
    outLen := BitVec.ofNat 32 q, pad := BitVec.ofNat 3 (packBits bits).2
    totalBits := BitVec.ofNat 32 bits.length }

section
variable {s : State} {xs : List Byte} (hread : holds s.ibuf 0 xs)
  (hvalid : ∀ y ∈ xs, (ctAt s.ct y).valid = true)

include hread hvalid

theorem packLoop_start (n : Nat) :
    packLoop (xs.length + n) 0 ⟨s.outLen.toNat, 0#8, 0, 0⟩ s =
      (emitList s.outLen.toNat (bytesOf (codesOf s.ct xs)) s).bind fun q s' =>
        packLoop n xs.length
          (shifterOf q (tailBits (codesOf s.ct xs)) (codesOf s.ct xs).length) s' := by
  rw [packLoop_of_valid n 0 _ s hread hvalid, show (⟨s.outLen.toNat, 0#8, 0, 0⟩ : Shifter) =
    shifterOf s.outLen.toNat [] 0 from rfl, packCode_shifterOf _ _ _ _ (by simp), Exit.bind_assoc]
  simp only [Exit.bind_ok, List.nil_append, Nat.zero_add]

/-- Every input byte has a code: `Pack` of the codes goes out (R190, R196). -/
theorem packBody_of_valid (hlen : s.inLen.toNat = xs.length) :
    packBody s = (emitList s.outLen.toNat (packBits (codesOf s.ct xs)).1 s).bind fun q s' =>
      .ok () (packResults (codesOf s.ct xs) q s') := by
  rw [packBody, hlen, ← Nat.add_zero xs.length, packLoop_start hread hvalid, packBits_eq,
    emitList_append, Exit.bind_assoc, Exit.bind_assoc]
  simp only [packLoop, Exit.bind_ok, packFlush_shifterOf]
  simp only [shifterOf, padCount_length_tailBits]
  rfl

/-- A byte without a code comes after the whole bytes of the codes before it (R194). -/
theorem packBody_of_invalid {y : Byte} (hlen : xs.length < s.inLen.toNat)
    (hy : s.ibuf.read xs.length = some y) (hno : (ctAt s.ct y).valid = false) :
    packBody s = (emitList s.outLen.toNat (bytesOf (codesOf s.ct xs)) s).bind fun _ s' =>
      .raise .symbolNotInTable (BitVec.ofNat 32 xs.length) { s' with outLen := 0#32 } := by
  obtain ⟨n, hn⟩ : ∃ n, s.inLen.toNat = xs.length + (n + 1) := ⟨s.inLen.toNat - xs.length - 1, by omega⟩
  rw [packBody, hn, packLoop_start hread hvalid, Exit.bind_assoc]
  refine Exit.bind_congr fun q s' hemit => ?_
  obtain ⟨m, rfl⟩ := emitList_frame hemit
  rw [packLoop, memRead_of_read (s := { s with obuf := m }) hy, Exit.bind_ok,
    if_neg (by simp [hno]), Exit.bind_raise]

/-- A byte that nobody wrote faults after the whole bytes of the codes before it (R265). -/
theorem packBody_of_unwritten (hlen : xs.length < s.inLen.toNat)
    (hnone : s.ibuf.read xs.length = none) :
    packBody s = (emitList s.outLen.toNat (bytesOf (codesOf s.ct xs)) s).bind fun _ _ =>
      .fault (.unwrittenIbuf xs.length) := by
  obtain ⟨n, hn⟩ : ∃ n, s.inLen.toNat = xs.length + (n + 1) := ⟨s.inLen.toNat - xs.length - 1, by omega⟩
  rw [packBody, hn, packLoop_start hread hvalid, Exit.bind_assoc]
  refine Exit.bind_congr fun q s' hemit => ?_
  obtain ⟨m, rfl⟩ := emitList_frame hemit
  simp [packLoop, memRead, hnone]

end

end Sys2Proof.Machine
end

section
/-!
PROOF. What PACK completes with (44_bit_packer R190 to R196, 60_exceptions R234).
-/

namespace Sys2Proof.Machine

/-! ### The barrel shifter -/

/-- Every integer of k bits is that of a bit string. -/
theorem exists_bits (k v : Nat) (h : v < 2 ^ k) : ∃ r : List Bool, r.length = k ∧ bitsVal r = v := by
  induction k generalizing v with
  | zero => exact ⟨[], rfl, by simp at h; simp [h]⟩
  | succ k ih =>
    obtain ⟨r, hlen, hval⟩ := ih (v / 2) (by rw [Nat.pow_succ] at h; omega)
    refine ⟨r ++ [v % 2 == 1], by simp [hlen], ?_⟩
    rw [bitsVal_append_singleton, hval]
    rcases Nat.mod_two_eq_zero_or_one v with h | h <;> simp [h] <;> omega

/-- A whole code into a register of r: the barrel shifter splits off what the bit loop puts out. -/
theorem packCodeBarrel_shifterOf (c : List Bool) (q t : Nat) {r : List Bool} (s : State)
    (hc : c.length ≤ 8) (hr : r.length < 8) :
    packCodeBarrel c.length (bitsVal c) (shifterOf q r t) s = packCode c (shifterOf q r t) s := by
  have hacc : (BitVec.ofNat 8 (bitsVal r)).toNat = bitsVal r := by
    have hle : 2 ^ r.length ≤ 2 ^ 8 := Nat.pow_le_pow_right (by omega) (by omega)
    rw [BitVec.toNat_ofNat, Nat.mod_eq_of_lt ((bitsVal_lt r).trans_le hle)]
  have hk : r.length + c.length = (r ++ c).length := by simp
  rw [packCode_shifterOf c q t s hr]
  simp only [packCodeBarrel, shifterOf, hacc, ← bitsVal_append, hk]
  have hlong : (r ++ c).length < 16 := by simp; omega
  generalize r ++ c = l at hlong
  split
  next hge =>
    obtain ⟨a, b, rfl, ha⟩ : ∃ a b, l = a ++ b ∧ a.length = 8 :=
      ⟨l.take 8, l.drop 8, (List.take_append_drop 8 l).symm, by simp; omega⟩
    have hb : b.length < 8 := by simp at hlong; omega
    have hlen : (a ++ b).length - 8 = b.length := by simp [ha]
    have hdiv : bitsVal (a ++ b) / 2 ^ b.length = bitsVal a := by
      rw [bitsVal_append, Nat.mul_comm, Nat.mul_add_div (Nat.two_pow_pos _),
        Nat.div_eq_of_lt (bitsVal_lt b), Nat.add_zero]
    have hmod : bitsVal (a ++ b) % 2 ^ b.length = bitsVal b := by
      rw [bitsVal_append, Nat.mul_comm, Nat.mul_add_mod, Nat.mod_eq_of_lt (bitsVal_lt b)]
    rw [hlen, hdiv, hmod, bytesOf_append ha, bytesOf_of_lt hb, tailBits_append ha, tailBits_of_lt hb,
      emitList_singleton, Exit.bind_assoc]
    rfl
  next hlt =>
    rw [Nat.mod_eq_of_lt (bitsVal_lt l), bytesOf_of_lt (by omega), tailBits_of_lt (by omega)]
    rfl

/-- Settles O32: the register holds the bits `r` of `exists_bits`. -/
theorem barrelShifterEqualsBitSerial : Obligations.BarrelShifterEqualsBitSerial := by
  intro c x s hc hk hacc
  obtain ⟨q, acc, k, t⟩ := x
  obtain ⟨r, rfl, hval⟩ := exists_bits k acc.toNat hacc
  have hx : (⟨q, acc, r.length, t⟩ : Shifter) = shifterOf q r t := by
    simp [shifterOf, hval]
  rw [hx]
  exact packCodeBarrel_shifterOf c q t s hc hk

/-! ### The command -/

/-- With HENC_OK and IN_LEN within BUF_BYTES, PACK is its body after HENC_OK was consumed (R104, R109,
R110). -/
theorem exec_pack_of_hencOk {s : State} (hok : s.hencOk = true)
    (hlen : s.inLen.toNat ≤ s.bufSize.toNat) :
    exec .pack s = finish (packBody (consumeHenc s)) :=
  congrArg finish (by
    rw [hok, requireFlag_true, checkLength_of_le (s := consumeHenc s) _ hlen])

theorem bytesFor_eq_zero {t : Nat} (h : bytesFor t = 0) : t = 0 := by
  unfold bytesFor at h; omega

theorem packBits_fst_eq_nil {b : List Bool} (h : (packBits b).1 = []) : b = [] := by
  have := length_packBits b
  rw [h] at this
  exact List.length_eq_zero_iff.mp (bytesFor_eq_zero this.symm)

/-- Settles O29: the body is `Pack` put out from OUT_LEN on, which fits, and then byte 0. -/
theorem packAppendsThePackedCodes : Obligations.PackAppendsThePackedCodes := by
  intro s xs hok hbuf hout hin hlen hread hvalid hfit
  have hpack := length_packBits (codesOf s.ct xs)
  obtain ⟨m, hemit, hholds, hstored⟩ := emitList_fits (s := consumeHenc s) (q := s.outLen.toNat)
    (vs := (packBits (codesOf s.ct xs)).1)
    (.inr (show s.outLen.toNat + (packBits (codesOf s.ct xs)).1.length ≤ s.bufSize.toNat by omega))
  refine ⟨m.write 0 (BitVec.ofNat 8 (packBits (codesOf s.ct xs)).2), ?_, hpack, ?_,
    Memory.read_write_same .., fun a ha hrange => ?_⟩
  · rw [exec_pack_of_hencOk hok (by omega), packBody_of_valid (s := consumeHenc s) hread hvalid hin]
    refine (congrArg (fun x => finish (Exit.bind x _)) hemit).trans ?_
    rw [hpack]
    rfl
  · intro i hi
    rw [Memory.read_write_other _ _ (by omega)]
    exact hholds i hi
  · rw [Memory.read_write_other _ _ ha]
    exact hstored.same a (by omega)

/-- Settles O30: the whole bytes before the byte without a code fit; or `Pack` does not. -/
theorem packReportsItsFirstError : Obligations.PackReportsItsFirstError := by
  intro s xs hok hlen hread hvalid
  refine ⟨fun x hlt hx hno hfit => ?_, fun hin hover hout => ?_⟩
  · obtain ⟨m, hemit, -⟩ := emitList_fits (s := consumeHenc s) (q := s.outLen.toNat)
      (vs := bytesOf (codesOf s.ct xs)) (.inr (by rw [length_bytesOf]; exact hfit))
    refine ⟨m, ?_⟩
    rw [exec_pack_of_hencOk hok hlen,
      packBody_of_invalid (s := consumeHenc s) hread hvalid hlt hx hno]
    exact congrArg (fun x => finish (Exit.bind x _)) hemit
  · have hpack := length_packBits (codesOf s.ct xs)
    have hne : (packBits (codesOf s.ct xs)).1 ≠ [] := fun h => by
      rw [packBits_fst_eq_nil h, show bytesFor ([] : List Bool).length = 0 from rfl] at hover
      omega
    obtain ⟨m, hemit, -⟩ := emitList_overflows (s := consumeHenc s) (q := s.outLen.toNat) hne
      (by rw [hpack]; exact hover)
    refine ⟨m, ?_⟩
    rw [exec_pack_of_hencOk hok hlen, packBody_of_valid (s := consumeHenc s) hread hvalid hin]
    exact congrArg (fun x => finish (Exit.bind x _)) hemit

/-! ### What PACK can do -/

/-- What PACK's body can do: `Pack` of the input's codes stored, or an overflow or a byte without a code
after some stores, or a fault at a byte that nobody wrote. -/
theorem packBody_cases (s : State) :
    (∃ xs m, holds s.ibuf 0 xs ∧ s.inLen.toNat = xs.length ∧
      (∀ y ∈ xs, (ctAt s.ct y).valid = true) ∧
      ((packBits (codesOf s.ct xs)).1 = [] ∨
        s.outLen.toNat + bytesFor (codesOf s.ct xs).length ≤ s.bufSize.toNat) ∧
      holds m s.outLen.toNat (packBits (codesOf s.ct xs)).1 ∧
      StoredWithin s.bufSize.toNat s.outLen.toNat
        (s.outLen.toNat + bytesFor (codesOf s.ct xs).length) s.obuf m ∧
      packBody s = .ok () (packResults (codesOf s.ct xs)
        (s.outLen.toNat + bytesFor (codesOf s.ct xs).length) { s with obuf := m })) ∨
    (∃ xs m e info, xs.length ≤ s.inLen.toNat ∧ e ≠ .none ∧
      StoredWithin s.bufSize.toNat s.outLen.toNat
        (s.outLen.toNat + bytesFor (codesOf s.ct xs).length) s.obuf m ∧
      packBody s = .raise e info { s with obuf := m, outLen := 0#32 }) ∨
    (∃ a, a < s.inLen.toNat ∧ s.ibuf.read a = none ∧ packBody s = .fault (.unwrittenIbuf a)) := by
  obtain ⟨xs, hread, hvalid, hend⟩ := input_cases s.ibuf s.ct s.inLen.toNat 0
  rw [Nat.zero_add] at hend
  have hpack := length_packBits (codesOf s.ct xs)
  have hwhole : (bytesOf (codesOf s.ct xs)).length ≤ bytesFor (codesOf s.ct xs).length := by
    rw [length_bytesOf, bytesFor]; omega
  rcases hend with hlen | ⟨hlt, hnone | ⟨y, hy, hno⟩⟩
  · rw [packBody_of_valid hread hvalid hlen.symm]
    rcases emitList_fits_or_overflows s.outLen.toNat (packBits (codesOf s.ct xs)).1 s with
      hfit | ⟨hne, hover⟩
    · obtain ⟨m, hemit, hholds, hstored⟩ := emitList_fits hfit
      rw [hpack] at hemit hstored hfit
      exact .inl ⟨xs, m, hread, hlen.symm, hvalid, hfit, hholds, hstored, by rw [hemit]; rfl⟩
    · obtain ⟨m, hemit, hstored⟩ := emitList_overflows hne hover
      rw [hpack] at hstored
      exact .inr (.inl ⟨xs, m, .outputOverflow, s.bufSize, hlen.le, by decide, hstored,
        by rw [hemit]; rfl⟩)
  all_goals rcases emitList_fits_or_overflows s.outLen.toNat (bytesOf (codesOf s.ct xs)) s with
    hfit | ⟨hne, hover⟩
  · obtain ⟨m, hemit, -⟩ := emitList_fits hfit
    refine .inr (.inr ⟨xs.length, hlt, hnone, ?_⟩)
    rw [packBody_of_unwritten hread hvalid hlt hnone, hemit]; rfl
  · obtain ⟨m, hemit, hstored⟩ := emitList_overflows hne hover
    refine .inr (.inl ⟨xs, m, .outputOverflow, s.bufSize, hlt.le, by decide,
      hstored.mono le_rfl (by omega), ?_⟩)
    rw [packBody_of_unwritten hread hvalid hlt hnone, hemit]; rfl
  · obtain ⟨m, hemit, -, hstored⟩ := emitList_fits hfit
    refine .inr (.inl ⟨xs, m, .symbolNotInTable, BitVec.ofNat 32 xs.length, hlt.le, by decide,
      hstored.mono le_rfl (by omega), ?_⟩)
    rw [packBody_of_invalid hread hvalid hlt hy hno, hemit]; rfl
  · obtain ⟨m, hemit, hstored⟩ := emitList_overflows hne hover
    refine .inr (.inl ⟨xs, m, .outputOverflow, s.bufSize, hlt.le, by decide,
      hstored.mono le_rfl (by omega), ?_⟩)
    rw [packBody_of_invalid hread hvalid hlt hy hno, hemit]; rfl

end Sys2Proof.Machine
end

section
/-!
PROOF. A command before its body: HENC_OK consumed, then the sequencing requirement, then the length
check (40_control R104, R105, R109, R110).
-/

namespace Sys2Proof.Machine

/-- The flag a command requires, and true for one that requires none (R109). -/
def flagOf (i : Instr) (s : State) : Bool :=
  match i with
  | .extract => s.treeOk
  | .henc => s.ctOk
  | .pack => s.hencOk
  | .decode => s.hdrOk
  | .nop | .build | .hdec | .clear => true

/-- The commands with a length check (R110). -/
def hasLengthCheck : Instr → Bool
  | .pack | .hdec | .decode => true
  | .nop | .build | .extract | .henc | .clear => false

/-- A command after its checks. -/
def bodyOf : Instr → State → Exit Unit
  | .nop => .ok ()
  | .build => buildBody
  | .extract => extractBody
  | .henc => hencBody
  | .pack => packBody
  | .hdec => hdecBody
  | .decode => decodeBody
  | .clear => fun s => .ok () (clearDatapath s)

/-- Every command but NOP consumes HENC_OK, and then its checks come before its body (R105). -/
theorem exec_eq_checks {i : Instr} (hi : i ≠ .nop) (s : State) :
    exec i s = finish (requireFlag (flagOf i s) i (consumeHenc s)
      (if hasLengthCheck i then checkLength (consumeHenc s) (bodyOf i (consumeHenc s))
        else bodyOf i (consumeHenc s))) := by
  cases i with
  | nop => exact absurd rfl hi
  | build | extract | henc | pack | hdec | decode | clear => rfl

theorem exec_of_flag_false {i : Instr} (hi : i ≠ .nop) {s : State} (h : flagOf i s = false) :
    exec i s = .next (raiseError .sequenceError ((opOf i).setWidth 32) (consumeHenc s)) := by
  rw [exec_eq_checks hi, h, requireFlag_false, finish_raise]

theorem exec_of_length_gt {i : Instr} {s : State} (hflag : flagOf i s = true)
    (hcheck : hasLengthCheck i = true) (h : s.bufSize.toNat < s.inLen.toNat) :
    exec i s = .next (raiseError .badLength s.inLen (consumeHenc s)) := by
  have hi : i ≠ .nop := by rintro rfl; cases hcheck
  rw [exec_eq_checks hi, hflag, requireFlag_true, if_pos hcheck,
    checkLength_of_gt (s := consumeHenc s) _ h, finish_raise, consumeHenc_inLen]

theorem exec_of_checks {i : Instr} (hi : i ≠ .nop) {s : State} (hflag : flagOf i s = true)
    (h : hasLengthCheck i = true → s.inLen.toNat ≤ s.bufSize.toNat) :
    exec i s = finish (bodyOf i (consumeHenc s)) := by
  rw [exec_eq_checks hi, hflag, requireFlag_true]
  split
  next hcheck => rw [checkLength_of_le (s := consumeHenc s) _ (h hcheck)]
  next => rfl

/-- A command other than NOP fails one of its checks, or it is its body. -/
theorem exec_checks_cases {i : Instr} (hi : i ≠ .nop) (s : State) :
    (flagOf i s = false ∧
      exec i s = .next (raiseError .sequenceError ((opOf i).setWidth 32) (consumeHenc s))) ∨
    (flagOf i s = true ∧ s.bufSize.toNat < s.inLen.toNat ∧ hasLengthCheck i = true ∧
      exec i s = .next (raiseError .badLength s.inLen (consumeHenc s))) ∨
    (flagOf i s = true ∧ (hasLengthCheck i = true → s.inLen.toNat ≤ s.bufSize.toNat) ∧
      exec i s = finish (bodyOf i (consumeHenc s))) := by
  cases hflag : flagOf i s with
  | false => exact .inl ⟨rfl, exec_of_flag_false hi hflag⟩
  | true =>
    by_cases h : hasLengthCheck i = true ∧ s.bufSize.toNat < s.inLen.toNat
    · exact .inr (.inl ⟨rfl, h.2, h.1, exec_of_length_gt hflag h.1 h.2⟩)
    · have hle : hasLengthCheck i = true → s.inLen.toNat ≤ s.bufSize.toNat :=
        fun hcheck => Nat.not_lt.mp fun hlt => h ⟨hcheck, hlt⟩
      exact .inr (.inr ⟨rfl, hle, exec_of_checks hi hflag hle⟩)

/-- Settles O13: `exec_of_flag_false` and `exec_of_length_gt`. -/
theorem checksComeBeforeTheBody : Obligations.ChecksComeBeforeTheBody := by
  intro s i
  refine ⟨fun op h => ?_, fun hlt h => ?_⟩
  · rcases h with ⟨rfl, rfl, hf⟩ | ⟨rfl, rfl, hf⟩ | ⟨rfl, rfl, hf⟩ | ⟨rfl, rfl, hf⟩ <;>
      exact exec_of_flag_false (by decide) hf
  · rcases h with ⟨rfl, hf⟩ | rfl | ⟨rfl, hf⟩
    · exact exec_of_length_gt (i := .pack) hf rfl hlt
    · exact exec_of_length_gt (i := .hdec) rfl rfl hlt
    · exact exec_of_length_gt (i := .decode) hf rfl hlt

/-- Settles O31: a PACK without error is `packResults`, whose PAD and TOTAL_BITS are those of the codes. -/
theorem paddingFollowsTotalBits : Obligations.PaddingFollowsTotalBits := by
  intro s t hexec herr
  rcases exec_checks_cases (i := .pack) (by decide) s with ⟨-, h⟩ | ⟨-, -, -, h⟩ | ⟨-, -, h⟩ <;>
    rw [h] at hexec
  · cases hexec; cases herr
  · cases hexec; cases herr
  · rcases packBody_cases (consumeHenc s) with ⟨xs, m, -, -, -, -, -, -, hbody⟩ |
      ⟨xs, m, e, info, -, -, -, hbody⟩ | ⟨a, -, -, hbody⟩ <;>
      rw [bodyOf, hbody] at hexec <;> cases hexec
    · have hpad := padOf_lt (codesOf (consumeHenc s).ct xs).length
      simp only [complete_pad, complete_totalBits, packResults, BitVec.toNat_ofNat, packBits, padOf]
        at hpad ⊢
      omega
    · cases herr

end Sys2Proof.Machine
end

section
/-!
PROOF. The header decoder HDEC: good groups and pairs taken off the header, and every way it ends
(43_header_codec R163 to R169).
-/

namespace Sys2Proof.Machine

/-! ### Counts, entries and failures -/

theorem decodeCount_eq (b : Byte) : decodeCount b = if b.toNat = 0 then 256 else b.toNat := by
  simp [decodeCount, ← BitVec.toNat_inj]

theorem decodeCount_ofNat {n : Nat} (hpos : 1 ≤ n) (hle : n ≤ 256) :
    decodeCount (BitVec.ofNat 8 n) = n := by
  rw [decodeCount_eq, BitVec.toNat_ofNat]
  split <;> omega

theorem decodeCount_bounds (b : Byte) : 1 ≤ decodeCount b ∧ decodeCount b ≤ 256 := by
  have := b.isLt
  rw [decodeCount_eq]
  split <;> omega

/-- ERR_INFO packs a subcode below its offset, and a symbol below its depth (R143, R233). -/
theorem ofNat_or_shiftLeft {lo : Nat} (hi : Nat) (h : lo < 256) :
    BitVec.ofNat 32 lo ||| (BitVec.ofNat 32 hi <<< 8) = BitVec.ofNat 32 (lo + 256 * hi) := by
  have hmul : BitVec.ofNat 32 hi <<< 8 = BitVec.ofNat 32 (hi <<< 8) := by
    refine BitVec.eq_of_toNat_eq ?_
    simp [Nat.shiftLeft_eq, Nat.mod_mul_mod]
  rw [hmul, ← BitVec.ofNat_or, Nat.or_comm, ← Nat.shiftLeft_add_eq_or_of_lt h, Nat.shiftLeft_eq]
  congr 1
  omega

/-- Every failure of the header's parse clears CT (R163). -/
theorem headerFail_eq {α : Type} {sub : Nat} (hsub : sub < 256) (off : Nat) (s : State) :
    (headerFail sub off s : Exit α) =
      .raise .malformedHeader (BitVec.ofNat 32 (sub + 256 * off)) (clearTable s) := by
  rw [headerFail, ofNat_or_shiftLeft off hsub]

/-- The entry of a code of `len` bits packed in a byte (R163). -/
def packedEntry (len : Nat) (b : Byte) : CtEntry := ⟨true, BitVec.ofNat 4 len, b &&& topMask len⟩

theorem getMsbD_and_topMask {len : Nat} (b : Byte) {j : Nat} (hj : j < 8) :
    (b &&& topMask len).getMsbD j = (b.getMsbD j && decide (j < len)) := by
  simp only [topMask, BitVec.getMsbD_and, BitVec.getMsbD_shiftLeft]
  have hones : ∀ i, (0xFF#8 : Byte).getMsbD i = decide (i < 8) := fun i => by
    rw [show (0xFF#8 : Byte) = BitVec.allOnes 8 from rfl, BitVec.getMsbD_allOnes]
  rw [hones]
  congr 1
  simp only [decide_eq_decide]
  omega

/-- The shifts of R166 keep the bits that `topMask` keeps. -/
theorem shift_back_eq_topMask (len : Nat) (b : Byte) :
    (b.ushiftRight (8 - len)).shiftLeft (8 - len) = b &&& topMask len := by
  refine BitVec.eq_of_getMsbD_eq fun j hj => ?_
  rw [getMsbD_and_topMask b hj, BitVec.shiftLeft_eq, BitVec.ushiftRight_eq, BitVec.getMsbD_shiftLeft,
    BitVec.getMsbD_ushiftRight]
  by_cases h : j < len
  · simp [h, show j + (8 - len) < 8 by omega]
  · simp [h, show ¬ j + (8 - len) < 8 by omega]

theorem Group.entries_eq (g : Group) :
    g.entries = g.pairs.map fun x => (x.1, packedEntry g.len x.2) := by
  simp only [Group.entries, shift_back_eq_topMask, packedEntry]

theorem packedEntry_canonical {len : Nat} (hpos : 1 ≤ len) (hle : len ≤ 8) (b : Byte) :
    (packedEntry len b).canonical := by
  have hlen : (BitVec.ofNat 4 len).toNat = len := by rw [BitVec.toNat_ofNat]; omega
  refine .inl ⟨rfl, by simpa only [packedEntry, hlen], by simpa only [packedEntry, hlen],
    fun j hj hge => ?_⟩
  have hge' : len ≤ j := by simpa only [packedEntry, hlen] using hge
  rw [packedEntry, getMsbD_and_topMask b hj, decide_eq_false (Nat.not_lt.mpr hge'), Bool.and_false]

/-! ### Pairs and groups -/

@[simp] theorem length_pairsBytes (pairs : List (Byte × Byte)) :
    (pairsBytes pairs).length = 2 * pairs.length := by
  simp [pairsBytes, Nat.mul_comm]

@[simp] theorem Group.length_bytes (g : Group) : g.bytes.length = 2 + 2 * g.pairs.length := by
  simp [Group.bytes]; omega

theorem length_groupsBytes (gs : List Group) :
    (groupsBytes gs).length = (gs.map fun g => 2 + 2 * g.pairs.length).sum := by
  simp [groupsBytes, List.length_flatMap]

/-- A pair that is there: its symbol's entry is written, or it has one already (R163). -/
theorem hdecPairs_of_pair {len n count p : Nat} {s : State} {sym b : Byte} (hfit : p + 2 ≤ n)
    (hsym : s.ibuf.read p = some sym) (hb : s.ibuf.read (p + 1) = some b) :
    hdecPairs len n (count + 1) p s =
      if (ctAt s.ct sym).valid then headerFail 7 p s
      else hdecPairs len n count (p + 2) { s with ct := ctSet s.ct sym (packedEntry len b) } := by
  rw [hdecPairs, if_neg (by omega), memRead_of_read hsym, Exit.bind_ok, memRead_of_read hb,
    Exit.bind_ok]
  rfl

/-- Good pairs are taken off one by one: each writes its symbol's entry (R163). -/
theorem hdecPairs_of_pairs {len n : Nat} (k : Nat) {pairs : List (Byte × Byte)} {p : Nat} {s : State}
    (hread : holds s.ibuf p (pairsBytes pairs)) (hfit : p + 2 * pairs.length ≤ n)
    (hnodup : (pairs.map (·.1)).Nodup) (hfresh : ∀ x ∈ pairs, (ctAt s.ct x.1).valid = false) :
    hdecPairs len n (pairs.length + k) p s = hdecPairs len n k (p + 2 * pairs.length)
      { s with ct := ctSetAll s.ct (pairs.map fun x => (x.1, packedEntry len x.2)) } := by
  induction pairs generalizing p s with
  | nil => simp
  | cons x pairs ih =>
    rw [show pairsBytes (x :: pairs) = x.1 :: x.2 :: pairsBytes pairs from rfl, holds_cons,
      holds_cons] at hread
    obtain ⟨hsym, hbyte, hread⟩ := hread
    rw [List.map_cons, List.nodup_cons] at hnodup
    rw [List.forall_mem_cons] at hfresh
    rw [List.length_cons] at hfit ⊢
    rw [show pairs.length + 1 + k = pairs.length + k + 1 by omega,
      hdecPairs_of_pair (by omega) hsym hbyte, if_neg (by simp [hfresh.1]), ih (p := p + 2)
        (s := { s with ct := ctSet s.ct x.1 (packedEntry len x.2) }) hread (by omega) hnodup.2]
    · rw [show p + 2 + 2 * pairs.length = p + 2 * (pairs.length + 1) by omega]
      rfl
    · intro y hy
      have hne : y.1 ≠ x.1 := fun h => hnodup.1 (h ▸ List.mem_map_of_mem (f := (·.1)) hy)
      rw [ctAt_ctSet, if_neg hne, hfresh.2 y hy]

/-- A group as R88 allows it. -/
def Group.ok (g : Group) : Prop := 1 ≤ g.len ∧ g.len ≤ 8 ∧ 1 ≤ g.pairs.length ∧ g.pairs.length ≤ 256

theorem groupsEntries_cons (g : Group) (gs : List Group) :
    groupsEntries (g :: gs) = g.entries ++ groupsEntries gs := rfl

theorem groupsBytes_cons (g : Group) (gs : List Group) :
    groupsBytes (g :: gs) = g.bytes ++ groupsBytes gs := rfl

@[simp] theorem Group.length_entries (g : Group) : g.entries.length = g.pairs.length := by
  simp [Group.entries]

theorem Group.entries_keys (g : Group) : g.entries.map (·.1) = g.pairs.map (·.1) := by
  simp [Group.entries]

/-- A group header with codes still due, of a good length and a count within the codes due (R163). -/
theorem hdecGroups_of_header {n fuel due p : Nat} {s : State} {kb len : Byte} (hdue : due ≠ 0)
    (hfit : p + 2 ≤ n) (hkb : s.ibuf.read p = some kb) (hlen : s.ibuf.read (p + 1) = some len) :
    hdecGroups n (fuel + 1) due p s =
      if len.toNat < 1 ∨ len.toNat > 8 then headerFail 5 (p + 1) s
      else if decodeCount kb > due then headerFail 6 p s
      else (hdecPairs len.toNat n (decodeCount kb) (p + 2) s).bind fun p s =>
        hdecGroups n fuel (due - decodeCount kb) p s := by
  rw [hdecGroups, if_neg hdue, if_neg (by omega), memRead_of_read hkb, Exit.bind_ok,
    memRead_of_read hlen, Exit.bind_ok]

/-- Good groups are taken off one by one: CT gets their entries (R163, R164). -/
theorem hdecGroups_of_groups {n : Nat} (fuel due : Nat) {gs : List Group} {p : Nat} {s : State}
    (hok : ∀ g ∈ gs, g.ok) (hread : holds s.ibuf p (groupsBytes gs))
    (hfit : p + (groupsBytes gs).length ≤ n) (hnodup : ((groupsEntries gs).map (·.1)).Nodup)
    (hfresh : ∀ x ∈ groupsEntries gs, (ctAt s.ct x.1).valid = false) :
    hdecGroups n (gs.length + fuel) ((groupsEntries gs).length + due) p s =
      hdecGroups n fuel due (p + (groupsBytes gs).length)
        { s with ct := ctSetAll s.ct (groupsEntries gs) } := by
  induction gs generalizing p s with
  | nil => simp [groupsEntries, groupsBytes]
  | cons g gs ih =>
    rw [List.forall_mem_cons] at hok
    obtain ⟨⟨hlen₁, hlen₈, hcount₁, hcount₂₅₆⟩, hok⟩ := hok
    rw [groupsBytes_cons, holds_append, Group.bytes, holds_cons, holds_cons] at hread
    obtain ⟨⟨hkb, hlen, hpairs⟩, hread⟩ := hread
    rw [groupsEntries_cons, List.map_append, List.nodup_append] at hnodup
    obtain ⟨hnodup₁, hnodup₂, hdisjoint⟩ := hnodup
    rw [groupsEntries_cons, List.forall_mem_append] at hfresh
    rw [groupsBytes_cons, List.length_append, Group.length_bytes] at hfit
    have hlenNat : (BitVec.ofNat 8 g.len).toNat = g.len := by rw [BitVec.toNat_ofNat]; omega
    rw [groupsEntries_cons, List.length_append, Group.length_entries, List.length_cons,
      show gs.length + 1 + fuel = gs.length + fuel + 1 by omega,
      hdecGroups_of_header (by omega) (by omega) hkb hlen, hlenNat, decodeCount_ofNat hcount₁ hcount₂₅₆,
      if_neg (by omega), if_neg (by omega), ← Nat.add_zero g.pairs.length,
      hdecPairs_of_pairs 0 hpairs (by omega) (g.entries_keys ▸ hnodup₁)]
    · rw [hdecPairs, Exit.bind_ok, ← Group.entries_eq,
        show g.pairs.length + 0 + (groupsEntries gs).length + due - (g.pairs.length + 0) =
          (groupsEntries gs).length + due by omega, ih (s := { s with ct := _ }) hok ?_ (by omega)
          hnodup₂]
      · rw [groupsBytes_cons, List.length_append, Group.length_bytes, ctSetAll_append,
          show p + 2 + 2 * g.pairs.length + (groupsBytes gs).length =
            p + (2 + 2 * g.pairs.length + (groupsBytes gs).length) by omega]
      · intro x hx
        rw [ctAt_ctSetAll_of_not_mem, hfresh.2 x hx]
        exact fun h => hdisjoint _ h _ (List.mem_map_of_mem (f := (·.1)) hx) rfl
      · rw [← Group.bytes, Group.length_bytes] at hread
        rwa [show p + 2 + 2 * g.pairs.length = p + (2 + 2 * g.pairs.length) by omega]
    · intro x hx
      exact hfresh.1 (x.1, packedEntry g.len x.2)
        (Group.entries_eq g ▸ List.mem_map_of_mem (f := fun x => (x.1, packedEntry g.len x.2)) hx)

theorem length_le_length_groupsEntries {gs : List Group} (h : ∀ g ∈ gs, g.ok) :
    gs.length ≤ (groupsEntries gs).length := by
  induction gs with
  | nil => simp
  | cons g gs ih =>
    rw [List.forall_mem_cons] at h
    have := ih h.2
    have := h.1.2.2.1
    rw [groupsEntries_cons, List.length_append, Group.length_entries, List.length_cons]
    omega

end Sys2Proof.Machine
end

section
/-!
PROOF. What HDEC completes with: the parse of a good header, and each subcode of MALFORMED_HEADER
(43_header_codec R163 to R169).
-/

namespace Sys2Proof.Machine

/-! ### The start and the end of a parse -/

/-- HDEC's end after its groups: the check of R167, and the results. -/
def hdecFinish (padByte : Byte) (total p : Nat) (s : State) : Exit Unit :=
  if prefixClash s.ct then headerFail 8 p s else .ok () (hdecResults padByte total p s)

theorem hdecParse_of_start {n : Nat} {s : State} {padByte tb : Byte} (hn : 2 ≤ n)
    (hpad : s.ibuf.read 0 = some padByte) (hle : padByte.toNat ≤ 7) (htb : s.ibuf.read 1 = some tb) :
    hdecParse n s = (hdecGroups n (decodeCount tb) (decodeCount tb) 2 s).bind fun p s =>
      hdecFinish padByte (decodeCount tb) p s := by
  rw [hdecParse, if_neg (by omega), memRead_of_read hpad, Exit.bind_ok, if_neg (by omega),
    memRead_of_read htb, Exit.bind_ok]
  rfl

/-- With IN_LEN within BUF_BYTES and not 0, HDEC is its parse after HENC_OK was consumed (R104, R110). -/
theorem exec_hdec_of_pos {s : State} (hlen : s.inLen.toNat ≤ s.bufSize.toNat)
    (hpos : s.inLen.toNat ≠ 0) :
    exec .hdec s = finish (hdecParse s.inLen.toNat (hdecStart (consumeHenc s))) := by
  rw [exec_of_checks (by decide) rfl fun _ => hlen, bodyOf, hdecBody, consumeHenc_inLen, if_neg hpos]

/-- The state of a parse that has written these entries. -/
def hdecWith (es : List (Byte × CtEntry)) (s : State) : State :=
  { hdecStart (consumeHenc s) with ct := ctSetAll ctEmpty es }

theorem finish_headerFail {sub : Nat} (hsub : sub < 256) (off : Nat) (es : List (Byte × CtEntry))
    (s : State) : finish (headerFail sub off (hdecWith es s)) = .next (headerFailed sub off s) := by
  rw [headerFail_eq hsub]
  rfl

/-- Settles O34: the length and the first byte are looked at before anything else. -/
theorem badContainerStartIsReported : Obligations.BadContainerStartIsReported := by
  intro s hlen
  refine ⟨fun h => ?_, fun h => ?_, fun b h₂ hb h₇ => ?_⟩
  · rw [exec_of_checks (by decide) rfl fun _ => hlen, bodyOf, hdecBody, consumeHenc_inLen,
      if_pos (by rw [h]; rfl)]
    rfl
  · rw [exec_hdec_of_pos hlen (by rw [h]; decide), h]
    exact finish_headerFail (sub := 1) (by omega) 1 [] s
  · rw [exec_hdec_of_pos hlen (by omega), hdecParse, if_neg (by omega),
      memRead_of_read (s := hdecStart (consumeHenc s)) hb, Exit.bind_ok, if_pos h₇]
    exact finish_headerFail (sub := 2) (by omega) 0 [] s

/-! ### After good groups -/

section
variable {s : State} {padByte tb : Byte} {gs : List Group} (hok : groupsOk gs)
  (hpad : padByte.toNat ≤ 7) (hread : holds s.ibuf 0 (padByte :: tb :: groupsBytes gs))
  (hfit : 2 + (groupsBytes gs).length ≤ s.inLen.toNat) (hlen : s.inLen.toNat ≤ s.bufSize.toNat)
  (hdue : (groupsEntries gs).length ≤ decodeCount tb)

include hok hpad hread hfit hlen hdue

/-- Good groups at the start of the header are taken off, and the parse goes on behind them. -/
theorem exec_hdec_of_groups :
    exec .hdec s =
      finish ((hdecGroups s.inLen.toNat (decodeCount tb - gs.length)
        (decodeCount tb - (groupsEntries gs).length) (2 + (groupsBytes gs).length)
        (hdecWith (groupsEntries gs) s)).bind fun p s => hdecFinish padByte (decodeCount tb) p s) := by
  obtain ⟨hgroups, hnodup⟩ := hok
  rw [holds_cons, holds_cons] at hread
  obtain ⟨hpad₀, htb, hread⟩ := hread
  have hcount := length_le_length_groupsEntries hgroups
  have hfuel : decodeCount tb = gs.length + (decodeCount tb - gs.length) := by omega
  have htotal : decodeCount tb =
    (groupsEntries gs).length + (decodeCount tb - (groupsEntries gs).length) := by omega
  have htake := hdecGroups_of_groups (n := s.inLen.toNat) (decodeCount tb - gs.length)
    (decodeCount tb - (groupsEntries gs).length) (p := 2) (s := hdecStart (consumeHenc s)) hgroups
    hread hfit hnodup (by simp [CtEntry.empty])
  rw [← hfuel, ← htotal] at htake
  rw [exec_hdec_of_pos hlen (by omega),
    hdecParse_of_start (s := hdecStart (consumeHenc s)) (by omega) hpad₀ hpad htb, htake]
  rfl

end

theorem hdecGroups_of_none_due (n fuel p : Nat) (s : State) : hdecGroups n fuel 0 p s = .ok p s := by
  cases fuel <;> rfl

theorem hdecGroups_of_short {n fuel due p : Nat} (s : State) (hdue : due ≠ 0) (hshort : n < p + 2) :
    hdecGroups n (fuel + 1) due p s = headerFail 3 p s := by
  rw [hdecGroups, if_neg hdue, if_pos (by omega)]

/-! ### The table of a whole header -/

theorem Group.mem_entries {g : Group} {x : Byte × CtEntry} (h : x ∈ g.entries) :
    ∃ b, x.2 = packedEntry g.len b := by
  rw [Group.entries_eq] at h
  obtain ⟨y, -, rfl⟩ := List.mem_map.mp h
  exact ⟨y.2, rfl⟩

theorem mem_groupsEntries {gs : List Group} (hok : groupsOk gs) {x : Byte × CtEntry}
    (h : x ∈ groupsEntries gs) : x.2.valid = true ∧ x.2.canonical := by
  obtain ⟨g, hg, hx⟩ := List.mem_flatMap.mp h
  obtain ⟨b, hb⟩ := Group.mem_entries hx
  obtain ⟨hlen₁, hlen₈, -⟩ := hok.1 g hg
  rw [hb]
  exact ⟨rfl, packedEntry_canonical hlen₁ hlen₈ b⟩

/-- HDEC's `prefixClash` over distinct symbols' entries is `prefixFree` of the entries (R167). -/
theorem prefixClash_ctSetAll {es : List (Byte × CtEntry)} (hnodup : (es.map (·.1)).Nodup)
    (hvalid : ∀ x ∈ es, x.2.valid = true) :
    prefixClash (ctSetAll ctEmpty es) = false ↔ entriesPrefixFree es := by
  rw [prefixClash_eq_false_iff, prefixFree_iff]
  constructor
  · intro h x hx y hy hne
    have hx' := ctAt_ctSetAll_of_mem (ct := ctEmpty) hnodup hx
    have hy' := ctAt_ctSetAll_of_mem (ct := ctEmpty) hnodup hy
    rw [← hx', ← hy']
    exact h x.1 y.1 (by rw [hx']; exact hvalid x hx) (by rw [hy']; exact hvalid y hy) hne
  · intro h x y hx hy hne
    have hmem : ∀ z, (ctAt (ctSetAll ctEmpty es) z).valid = true →
        (z, ctAt (ctSetAll ctEmpty es) z) ∈ es := by
      intro z hz
      rcases ctAt_ctSetAll ctEmpty es z with hmem | ⟨-, heq⟩
      · exact hmem
      · rw [heq, ctAt_ctEmpty] at hz; cases hz
    exact h _ (hmem x hx) _ (hmem y hy) hne

section
variable {s : State} {padByte : Byte} {gs : List Group} (hok : groupsOk gs) (hne : gs ≠ [])
  (hmax : (groupsEntries gs).length ≤ 256) (hpad : padByte.toNat ≤ 7)
  (hread : holds s.ibuf 0
    (padByte :: BitVec.ofNat 8 (groupsEntries gs).length :: groupsBytes gs))
  (hfit : 2 + (groupsBytes gs).length ≤ s.inLen.toNat) (hlen : s.inLen.toNat ≤ s.bufSize.toNat)

include hok hne hmax hpad hread hfit hlen

/-- A whole header ends with the `prefixClash` check. -/
theorem exec_hdec_of_header :
    1 ≤ (groupsEntries gs).length ∧
    exec .hdec s = finish (hdecFinish padByte (groupsEntries gs).length
      (2 + (groupsBytes gs).length) (hdecWith (groupsEntries gs) s)) := by
  have hpos : 1 ≤ (groupsEntries gs).length :=
    (List.length_pos_of_ne_nil hne).trans_le (length_le_length_groupsEntries hok.1)
  have hcount := decodeCount_ofNat hpos hmax
  refine ⟨hpos, ?_⟩
  rw [exec_hdec_of_groups hok hpad hread hfit hlen hcount.ge, hcount, Nat.sub_self,
    hdecGroups_of_none_due, Exit.bind_ok]

end

/-- Settles O38: the check of R167 fails at the header's end. -/
theorem prefixClashIsMalformed : Obligations.PrefixClashIsMalformed := by
  intro s padByte gs hok hne hmax hclash hpad hread hfit hlen
  have hcheck : prefixClash (hdecWith (groupsEntries gs) s).ct = true := by
    rw [← Bool.not_eq_false, hdecWith,
      prefixClash_ctSetAll hok.2 fun x hx => (mem_groupsEntries hok hx).1]
    exact hclash
  rw [(exec_hdec_of_header hok hne hmax hpad hread hfit hlen).2, hdecFinish, if_pos hcheck]
  exact finish_headerFail (by omega) _ _ s

/-- Settles O35: the check of R167 passes, and CT holds the groups' entries over an empty table. -/
theorem hdecParsesEveryGoodHeader : Obligations.HdecParsesEveryGoodHeader := by
  intro s padByte gs hok hne hmax hfree hpad hread hfit hlen
  have hentry : ∀ x ∈ groupsEntries gs, ctAt (ctSetAll ctEmpty (groupsEntries gs)) x.1 = x.2 :=
    fun x hx => ctAt_ctSetAll_of_mem hok.2 hx
  have hother : ∀ sym, sym ∉ (groupsEntries gs).map (·.1) →
      ctAt (ctSetAll ctEmpty (groupsEntries gs)) sym = CtEntry.empty := fun sym hsym => by
    rw [ctAt_ctSetAll_of_not_mem hsym, ctAt_ctEmpty]
  have hcheck : prefixClash (hdecWith (groupsEntries gs) s).ct = false :=
    (prefixClash_ctSetAll hok.2 fun x hx => (mem_groupsEntries hok hx).1).mpr hfree
  obtain ⟨hpos, hexec⟩ := exec_hdec_of_header hok hne hmax hpad hread hfit hlen
  obtain ⟨hle, hatt⟩ := eq_maxValidLen_iff.mpr
    (rfl : maxValidLen (ctSetAll ctEmpty (groupsEntries gs)) = _)
  have hml : (BitVec.ofNat 4 (maxValidLen (ctSetAll ctEmpty (groupsEntries gs)))).toNat =
      maxValidLen (ctSetAll ctEmpty (groupsEntries gs)) := by
    have := maxValidLen_le (ctSetAll ctEmpty (groupsEntries gs))
    rw [BitVec.toNat_ofNat]; omega
  have hbound : ∀ x ∈ groupsEntries gs,
      x.2.len.toNat ≤ maxValidLen (ctSetAll ctEmpty (groupsEntries gs)) := fun x hx => by
    rw [← hentry x hx]
    exact hle x.1 (by rw [hentry x hx]; exact (mem_groupsEntries hok hx).1)
  refine ⟨ctSetAll ctEmpty (groupsEntries gs),
    BitVec.ofNat 4 (maxValidLen (ctSetAll ctEmpty (groupsEntries gs))), ?next, hentry, hother,
    fun x hx => by rw [hml]; exact hbound x hx, ?attained⟩
  case next =>
    rw [hexec, hdecFinish, hcheck, if_neg (by simp), ← length_groupsBytes]
    rfl
  case attained =>
    rw [hml]
    rcases hatt with hzero | ⟨sym, hv, hsym⟩
    · obtain ⟨x, hx⟩ := List.exists_mem_of_length_pos hpos
      obtain ⟨hv, hcanon⟩ := mem_groupsEntries hok hx
      have := (CtEntry.length_of_canonical hcanon hv).1
      have := hbound x hx
      omega
    · rcases ctAt_ctSetAll ctEmpty (groupsEntries gs) sym with hmem | ⟨hnot, -⟩
      · exact ⟨_, hmem, hsym⟩
      · rw [hother sym hnot] at hv; cases hv

/-! ### Bad group headers and bad pairs -/

/-- Settles O36: the group header after the good groups is looked at in the order of R163. -/
theorem badGroupHeaderIsMalformed : Obligations.BadGroupHeaderIsMalformed := by
  intro s padByte tb gs p total hok hpad hread hp hfit hlen htotal hdue
  replace htotal : total = decodeCount tb := htotal
  subst htotal hp
  have hcount := length_le_length_groupsEntries hok.1
  obtain ⟨fuel, hfuel⟩ : ∃ fuel, decodeCount tb - gs.length = fuel + 1 :=
    ⟨decodeCount tb - gs.length - 1, by omega⟩
  have hdue₀ : decodeCount tb - (groupsEntries gs).length ≠ 0 := by omega
  rw [exec_hdec_of_groups hok hpad hread hfit hlen hdue.le, hfuel]
  refine ⟨fun hshort => ?_, fun kb len hfit₂ hheader => ?_⟩
  · rw [hdecGroups_of_short _ hdue₀ hshort]
    exact finish_headerFail (by omega) _ _ s
  · rw [holds_cons, holds_cons] at hheader
    rw [hdecGroups_of_header (s := hdecWith (groupsEntries gs) s) hdue₀ hfit₂ hheader.1 hheader.2.1]
    refine ⟨fun hbad => ?_, fun hlen₁ hlen₈ hover => ?_⟩
    · have hbad' : len.toNat < 1 ∨ len.toNat > 8 := by
        rcases hbad with rfl | h
        · exact .inl (by decide)
        · exact .inr h
      rw [if_pos hbad']
      exact finish_headerFail (by omega) _ _ s
    · have hover' : decodeCount kb > decodeCount tb - (groupsEntries gs).length := hover
      rw [if_neg (by omega), if_pos hover']
      exact finish_headerFail (by omega) _ _ s

/-- Settles O37: the good pairs are taken off like those of a good group, and the next one is looked
at. -/
theorem badPairIsMalformed : Obligations.BadPairIsMalformed := by
  intro s padByte tb kb gs g q total count hok hlen₁ hlen₈ hnodup hpad hread hq hqle hlen htotal
    hcount hfew hsum
  replace htotal : total = decodeCount tb := htotal
  replace hcount : count = decodeCount kb := hcount
  subst htotal hcount
  obtain ⟨hread, hgroup⟩ := holds_append.mp hread
  rw [holds_cons, holds_cons] at hgroup
  obtain ⟨hkb, hglen, hpairs⟩ := hgroup
  simp only [List.length_cons, Nat.zero_add,
    show (groupsBytes gs).length + 1 + 1 = 2 + (groupsBytes gs).length by omega] at hkb hglen hpairs
  have hlenNat : (BitVec.ofNat 8 g.len).toNat = g.len := by rw [BitVec.toNat_ofNat]; omega
  have hgroups := length_le_length_groupsEntries hok.1
  rw [List.map_append, List.nodup_append, Group.entries_keys] at hnodup
  obtain ⟨-, hnodup, hdisjoint⟩ := hnodup
  obtain ⟨fuel, hfuel⟩ : ∃ fuel, decodeCount tb - gs.length = fuel + 1 :=
    ⟨decodeCount tb - gs.length - 1, by omega⟩
  obtain ⟨k, hk⟩ : ∃ k, decodeCount kb = g.pairs.length + (k + 1) :=
    ⟨decodeCount kb - g.pairs.length - 1, by omega⟩
  have hfresh : ∀ x ∈ g.pairs, (ctAt (hdecWith (groupsEntries gs) s).ct x.1).valid = false := by
    intro x hx
    have hnot : x.1 ∉ (groupsEntries gs).map (·.1) := fun h =>
      hdisjoint _ h _ (List.mem_map_of_mem (f := (·.1)) hx) rfl
    rw [hdecWith, ctAt_ctSetAll_of_not_mem hnot, ctAt_ctEmpty]
    rfl
  have hstate : ({ hdecWith (groupsEntries gs) s with
      ct := ctSetAll (hdecWith (groupsEntries gs) s).ct g.entries } : State) =
      hdecWith (groupsEntries gs ++ g.entries) s := by
    simp only [hdecWith, ctSetAll_append]
  have hq' : 2 + (groupsBytes gs).length + 2 + 2 * g.pairs.length = q := by omega
  rw [exec_hdec_of_groups hok hpad hread (by omega) hlen (by omega), hfuel,
    hdecGroups_of_header (s := hdecWith (groupsEntries gs) s) (by omega) (by omega) hkb hglen, hlenNat,
    if_neg (by omega), if_neg (by omega), hk,
    hdecPairs_of_pairs (k + 1) (s := hdecWith (groupsEntries gs) s) hpairs (by omega) hnodup hfresh,
    ← Group.entries_eq, hstate, hq']
  refine ⟨fun hshort => ?_, fun sym b hfit hpair hold => ?_⟩
  · rw [hdecPairs, if_pos (by omega)]
    exact finish_headerFail (by omega) _ _ s
  · rw [holds_cons, holds_cons] at hpair
    have hvalid : (ctAt (hdecWith (groupsEntries gs ++ g.entries) s).ct sym).valid = true := by
      rcases ctAt_ctSetAll ctEmpty (groupsEntries gs ++ g.entries) sym with hmem | ⟨hnot, -⟩
      · rcases List.mem_append.mp hmem with hmem | hmem
        · exact (mem_groupsEntries hok hmem).1
        · obtain ⟨b, hb⟩ := Group.mem_entries hmem
          exact congrArg CtEntry.valid hb
      · exact absurd hold hnot
    rw [hdecPairs_of_pair (s := hdecWith (groupsEntries gs ++ g.entries) s) hfit hpair.1 hpair.2.1,
      if_pos hvalid]
    exact finish_headerFail (by omega) _ _ s

end Sys2Proof.Machine
end

section
/-!
PROOF. HDEC takes back the table that HENC wrote: the encoder's header is one of the decoder's good
headers (43_header_codec R168).
-/

namespace Sys2Proof.Machine

/-! ### The groups that HENC writes -/

/-- The group of one code length, as HENC writes it. -/
def groupOf (ct : Vector CtEntry 256) (len : Nat) : Group :=
  ⟨len, (symbolsOfLen ct len).map fun x => (x, (ctAt ct x).code)⟩

/-- The groups of the lengths that some code has. -/
def tableGroups (ct : Vector CtEntry 256) (lens : List Nat) : List Group :=
  (lens.filter fun len => symbolsOfLen ct len ≠ []).map (groupOf ct)

/-- The entries of these lengths, by length and then symbol. -/
def tableEntries (ct : Vector CtEntry 256) (lens : List Nat) : List (Byte × CtEntry) :=
  (lens.flatMap (symbolsOfLen ct)).map fun x => (x, ctAt ct x)

theorem groupOf_bytes {ct : Vector CtEntry 256} {len : Nat} (h : symbolsOfLen ct len ≠ []) :
    (groupOf ct len).bytes = groupSpec ct len := by
  rw [groupSpec, Group.bytes, groupOf]
  split
  next hnil => exact absurd hnil h
  next x xs hcons => simp [hcons, pairsBytes, List.flatMap_map]

theorem tableGroups_cons (ct : Vector CtEntry 256) (len : Nat) (lens : List Nat) :
    tableGroups ct (len :: lens) =
      if symbolsOfLen ct len = [] then tableGroups ct lens
      else groupOf ct len :: tableGroups ct lens := by
  by_cases h : symbolsOfLen ct len = [] <;> simp [tableGroups, h]

theorem groupsBytes_tableGroups (ct : Vector CtEntry 256) (lens : List Nat) :
    groupsBytes (tableGroups ct lens) = lens.flatMap (groupSpec ct) := by
  induction lens with
  | nil => rfl
  | cons len lens ih =>
    rw [tableGroups_cons, List.flatMap_cons, ← ih]
    split
    next h => rw [groupSpec, h, List.nil_append]
    next h => rw [groupsBytes_cons, groupOf_bytes h]

theorem headerSpec_eq (s : State) :
    headerSpec s = BitVec.ofNat 8 s.numCodes.toNat :: groupsBytes (tableGroups s.ct codeLengths) := by
  rw [groupsBytes_tableGroups]
  simp only [headerSpec, codeLengths, List.flatMap_cons, List.flatMap_nil, List.append_nil,
    List.append_assoc]

/-- A canonical entry is what HDEC makes of its length and code byte. -/
theorem packedEntry_of_canonical {e : CtEntry} (h : e.canonical) (hv : e.valid = true) :
    packedEntry e.len.toNat e.code = e := by
  obtain ⟨v, len, code⟩ := e
  obtain rfl : v = true := hv
  rcases h with ⟨-, -, -, hlow⟩ | ⟨hf, -⟩
  · have hcode : code &&& topMask len.toNat = code := BitVec.eq_of_getMsbD_eq fun j hj => by
      rw [getMsbD_and_topMask code hj]
      by_cases hlt : j < len.toNat
      · simp [hlt]
      · rw [hlow j hj (Nat.not_lt.mp hlt), Bool.false_and]
    simp [packedEntry, hcode]
  · cases hf

theorem groupOf_entries {ct : Vector CtEntry 256} (h : ∀ sym, (ctAt ct sym).canonical) (len : Nat) :
    (groupOf ct len).entries = (symbolsOfLen ct len).map fun x => (x, ctAt ct x) := by
  rw [Group.entries_eq, groupOf, List.map_map]
  refine List.map_congr_left fun x hx => ?_
  obtain ⟨hv, rfl⟩ := mem_symbolsOfLen.mp hx
  exact congrArg (Prod.mk x) (packedEntry_of_canonical (h x) hv)

theorem groupsEntries_tableGroups {ct : Vector CtEntry 256} (h : ∀ sym, (ctAt ct sym).canonical)
    (lens : List Nat) : groupsEntries (tableGroups ct lens) = tableEntries ct lens := by
  induction lens with
  | nil => rfl
  | cons len lens ih =>
    rw [tableGroups_cons, tableEntries, List.flatMap_cons, List.map_append, ← tableEntries, ← ih]
    split
    next hnil => rw [hnil, List.map_nil, List.nil_append]
    next => rw [groupsEntries_cons, groupOf_entries h]

/-! ### All eight lengths -/

theorem map_fst_tableEntries (ct : Vector CtEntry 256) (lens : List Nat) :
    (tableEntries ct lens).map (·.1) = lens.flatMap (symbolsOfLen ct) := by
  simp [tableEntries, Function.comp_def]

theorem nodup_tableEntries {ct : Vector CtEntry 256} {lens : List Nat} (h : lens.Nodup) :
    ((tableEntries ct lens).map (·.1)).Nodup := by
  rw [map_fst_tableEntries, List.nodup_flatMap]
  refine ⟨fun len _ => nodup_symbols.filter _, List.Pairwise.imp ?_ h⟩
  intro a b hab x hxa hxb
  exact hab ((mem_symbolsOfLen.mp hxa).2.symm.trans (mem_symbolsOfLen.mp hxb).2)

theorem mem_codeLengths {n : Nat} : n ∈ codeLengths ↔ 1 ≤ n ∧ n ≤ 8 := by
  simp only [codeLengths, List.mem_cons, List.not_mem_nil, or_false]
  omega

theorem mem_tableEntries {ct : Vector CtEntry 256} (h : ∀ sym, (ctAt ct sym).canonical)
    {x : Byte × CtEntry} :
    x ∈ tableEntries ct codeLengths ↔ (ctAt ct x.1).valid = true ∧ ctAt ct x.1 = x.2 := by
  obtain ⟨sym, e⟩ := x
  simp only [tableEntries, List.mem_map, List.mem_flatMap, mem_codeLengths, mem_symbolsOfLen,
    Prod.mk.injEq]
  constructor
  · rintro ⟨y, ⟨len, -, hv, -⟩, rfl, rfl⟩
    exact ⟨hv, rfl⟩
  · rintro ⟨hv, rfl⟩
    exact ⟨sym, ⟨_, CtEntry.length_of_canonical (h sym) hv, hv, rfl⟩, rfl, rfl⟩

theorem length_tableEntries {ct : Vector CtEntry 256} (h : ∀ sym, (ctAt ct sym).canonical) :
    (tableEntries ct codeLengths).length = countValid ct := by
  rw [tableEntries, List.length_map, List.length_flatMap, ← sum_lengthCounts h, lengthCounts]

theorem groupsOk_tableGroups {ct : Vector CtEntry 256} (h : ∀ sym, (ctAt ct sym).canonical) :
    groupsOk (tableGroups ct codeLengths) := by
  refine ⟨fun g hg => ?_, ?_⟩
  · obtain ⟨len, hlen, rfl⟩ := List.mem_map.mp hg
    obtain ⟨hlen, hne⟩ := List.mem_filter.mp hlen
    obtain ⟨h₁, h₈⟩ := mem_codeLengths.mp hlen
    have hmax : (symbolsOfLen ct len).length ≤ 256 := (List.length_filter_le _ _).trans (by simp)
    have hpos : 0 < (symbolsOfLen ct len).length := List.length_pos_of_ne_nil (by simpa using hne)
    exact ⟨h₁, h₈, by rwa [groupOf, List.length_map], by rwa [groupOf, List.length_map]⟩
  · rw [groupsEntries_tableGroups h]
    exact nodup_tableEntries (by decide)

/-- Settles O39: `tableGroups` is a good header with `u`'s entries, and HDEC parses every good header. -/
theorem hdecRecoversTheEncodedTable : Obligations.HdecRecoversTheEncodedTable := by
  intro s u padByte hok htable hcodes hpad hread hfit hlen
  obtain ⟨hcanon, hnum, hmax⟩ := State.tableInv_iff.mp htable
  obtain ⟨hfree, hpos⟩ := hcodes hok
  have hentries := groupsEntries_tableGroups hcanon codeLengths
  have hcount : (groupsEntries (tableGroups u.ct codeLengths)).length = u.numCodes.toNat := by
    rw [hentries, length_tableEntries hcanon, hnum]
  have hsize : 2 + (groupsBytes (tableGroups u.ct codeLengths)).length = headerSize u.ct := by
    have := length_headerSpec u
    rw [headerSpec_eq, List.length_cons] at this
    omega
  have hprefix : entriesPrefixFree (groupsEntries (tableGroups u.ct codeLengths)) := by
    intro x hx y hy hne
    rw [hentries, mem_tableEntries hcanon] at hx hy
    rw [← hx.2, ← hy.2]
    exact prefixFree_iff.mp hfree x.1 y.1 hx.1 hy.1 hne
  have hne : tableGroups u.ct codeLengths ≠ [] := fun h => by
    rw [h] at hcount
    have : (groupsEntries []).length = 0 := rfl
    omega
  have hle := countValid_le u.ct
  have hbytes := hread
  rw [headerSpec_eq, ← hcount] at hbytes
  have hfit' : 2 + (groupsBytes (tableGroups u.ct codeLengths)).length ≤ s.inLen.toNat := by
    rw [hsize, ← length_headerSpec]; exact hfit
  obtain ⟨ct, ml, hexec, hin, hout, hbound, hatt⟩ := hdecParsesEveryGoodHeader s padByte
    (tableGroups u.ct codeLengths) (groupsOk_tableGroups hcanon) hne (by omega) hprefix hpad hbytes
    hfit' hlen
  have hct : ct = u.ct := ct_ext fun sym => by
    cases hv : (ctAt u.ct sym).valid with
    | true =>
      exact hin (sym, ctAt u.ct sym) (by rw [hentries, mem_tableEntries hcanon]; exact ⟨hv, rfl⟩)
    | false =>
      rw [hout sym ?_, CtEntry.eq_empty_of_canonical (hcanon sym) hv, CtEntry.empty]
      intro hmem
      obtain ⟨x, hx, rfl⟩ := List.mem_map.mp hmem
      rw [hentries, mem_tableEntries hcanon, hv] at hx
      cases hx.1
  have hml : ml.toNat = maxValidLen u.ct := by
    refine eq_maxValidLen_iff.mp ⟨fun sym hv => ?_, .inr ?_⟩
    · exact hbound (sym, ctAt u.ct sym)
        (by rw [hentries, mem_tableEntries hcanon]; exact ⟨hv, rfl⟩)
    · obtain ⟨x, hx, hlen⟩ := hatt
      rw [hentries, mem_tableEntries hcanon] at hx
      exact ⟨x.1, hx.1, by rw [hx.2, hlen]⟩
  have hbounds := (headerSize_bounds htable).1
  refine ⟨_, hexec, rfl, hct, ?_, BitVec.eq_of_toNat_eq (hml.trans hmax.symm), ?_, ?_, rfl, rfl⟩
  · show BitVec.ofNat 9 _ = _
    rw [hcount, BitVec.ofNat_toNat, BitVec.setWidth_eq]
  · show (BitVec.ofNat 32 _).toNat = _
    rw [← length_groupsBytes, hsize, BitVec.toNat_ofNat]
    omega
  · show (padByte.setWidth 3).toNat = _
    rw [BitVec.toNat_setWidth]
    omega

end Sys2Proof.Machine
end

section
/-!
PROOF. Candidate matching and the trie walk on `PrefixCodes` (45_decoder R213 to R217).
-/

namespace Sys2Proof.Machine

/-! ### Prefix-free codes -/

/-- A list of codes as R217 takes it: distinct symbols, no empty code, no code the start of another. -/
structure PrefixCodes (codes : List (Byte × List Bool)) : Prop where
  nodup : (codes.map (·.1)).Nodup
  ne_nil : ∀ x ∈ codes, x.2 ≠ []
  free : ∀ x ∈ codes, ∀ y ∈ codes, x.1 ≠ y.1 → x.2.isPrefixOf y.2 = false

/-- Of two codes, one the start of the other, there is only one. -/
theorem PrefixCodes.eq_of_prefix {codes : List (Byte × List Bool)} (h : PrefixCodes codes)
    {x y : Byte × List Bool} (hx : x ∈ codes) (hy : y ∈ codes) (hpre : x.2 <+: y.2) : x = y := by
  by_cases hsym : x.1 = y.1
  · exact List.inj_on_of_nodup_map h.nodup hx hy hsym
  · have := h.free x hx y hy hsym
    rw [List.isPrefixOf_iff_prefix.mpr hpre] at this
    cases this

theorem PrefixCodes.tail {x : Byte × List Bool} {codes : List (Byte × List Bool)}
    (h : PrefixCodes (x :: codes)) : PrefixCodes codes :=
  ⟨(List.nodup_cons.mp h.nodup).2, fun y hy => h.ne_nil y (List.mem_cons_of_mem x hy),
    fun y hy z hz => h.free y (List.mem_cons_of_mem x hy) z (List.mem_cons_of_mem x hz)⟩

theorem matchCode_eq_some_iff {codes : List (Byte × List Bool)} (h : PrefixCodes codes)
    {cand : List Bool} {sym : Byte} : matchCode codes cand = some sym ↔ (sym, cand) ∈ codes := by
  constructor
  · intro hmatch
    obtain ⟨⟨y, c⟩, hfind, rfl⟩ := Option.map_eq_some_iff.mp hmatch
    obtain rfl : c = cand := by simpa using List.find?_some hfind
    exact List.mem_of_find?_eq_some hfind
  · intro hmem
    cases hfind : codes.find? fun x => x.2 == cand with
    | none => exact absurd (by simp) (List.find?_eq_none.mp hfind _ hmem)
    | some y =>
      have hy : y.2 = cand := by simpa using List.find?_some hfind
      have := h.eq_of_prefix (List.mem_of_find?_eq_some hfind) hmem (by rw [hy])
      rw [matchCode, hfind, this]
      rfl

theorem matchCode_eq_none_iff {codes : List (Byte × List Bool)} (h : PrefixCodes codes)
    {cand : List Bool} : matchCode codes cand = none ↔ ∀ sym, (sym, cand) ∉ codes := by
  rw [Option.eq_none_iff_forall_ne_some]
  simp only [ne_eq, matchCode_eq_some_iff h]

theorem canExtend_iff {codes : List (Byte × List Bool)} {cand : List Bool} :
    canExtend codes cand = true ↔ ∃ x ∈ codes, cand <+: x.2 := by
  simp [canExtend]

/-! ### Matching a code -/

/-- The bits that complete a code are matched to its symbol (R213). -/
theorem matchBits_code {codes : List (Byte × List Bool)} (h : PrefixCodes codes) {sym : Byte}
    (k : Nat) {cand rest : List Bool} (more : List Bool) (hne : rest ≠ [])
    (hmem : (sym, cand ++ rest) ∈ codes) :
    matchBits codes k cand (rest ++ more) = (matchBits codes (k + rest.length) [] more).cons sym := by
  induction rest generalizing k cand with
  | nil => exact absurd rfl hne
  | cons b rest ih =>
    rw [List.cons_append, matchBits]
    cases rest with
    | nil => rw [(matchCode_eq_some_iff h).mpr hmem]; rfl
    | cons b' rest =>
      have hsplit : cand ++ b :: b' :: rest = cand ++ [b] ++ b' :: rest := by simp
      have hpre : cand ++ [b] <+: cand ++ b :: b' :: rest := hsplit ▸ List.prefix_append _ _
      have hnone : matchCode codes (cand ++ [b]) = none := by
        refine (matchCode_eq_none_iff h).mpr fun y hy => ?_
        have := congrArg (·.2.length) (h.eq_of_prefix hy hmem hpre)
        simp at this
      have hext : canExtend codes (cand ++ [b]) = true := canExtend_iff.mpr ⟨_, hmem, hpre⟩
      rw [hnone]
      simp only [hext, if_true]
      rw [ih (k + 1) (by simp) (hsplit ▸ hmem), List.length_cons (a := b),
        show k + 1 + (b' :: rest).length = k + ((b' :: rest).length + 1) by omega]

/-- The codes of a canonical table that is `prefixFree`. -/
theorem prefixCodes_validCodes {ct : Vector CtEntry 256} (hcanon : ∀ sym, (ctAt ct sym).canonical)
    (hfree : prefixFree ct) : PrefixCodes (validCodes ct) := by
  refine ⟨?_, fun x hx => ?_, hfree⟩
  · rw [validCodes_eq, List.map_map, show ((·.1) ∘ fun x => (x, (ctAt ct x).bits)) = id from rfl,
      List.map_id]
    exact nodup_symbols.filter _
  · obtain ⟨hv, hbits⟩ := mem_validCodes.mp hx
    rw [← hbits]
    exact CtEntry.bits_ne_nil (hcanon _) hv

/-- The concatenated codes of symbols are matched to the symbols. -/
theorem matchBits_codesOf {ct : Vector CtEntry 256} (h : PrefixCodes (validCodes ct)) (k : Nat)
    {xs : List Byte} (hvalid : ∀ x ∈ xs, (ctAt ct x).valid = true) :
    matchBits (validCodes ct) k [] (codesOf ct xs) = .all xs := by
  induction xs generalizing k with
  | nil => rfl
  | cons x xs ih =>
    rw [List.forall_mem_cons] at hvalid
    have hmem : (x, (ctAt ct x).bits) ∈ validCodes ct := mem_validCodes.mpr ⟨hvalid.1, rfl⟩
    rw [codesOf_cons, matchBits_code h k (cand := []) _ (h.ne_nil _ hmem) hmem, ih _ hvalid.2]
    rfl

/-! ### The trie -/

/-- The subtrie that a bit string leads to. -/
def Trie.at : Trie → List Bool → Trie
  | t, [] => t
  | t, b :: p => (t.child b).at p

@[simp] theorem Trie.at_nil (t : Trie) : t.at [] = t := rfl

@[simp] theorem Trie.at_cons (t : Trie) (b : Bool) (p : List Bool) :
    t.at (b :: p) = (t.child b).at p := rfl

@[simp] theorem Trie.missing_at (p : List Bool) : Trie.missing.at p = .missing := by
  induction p with
  | nil => rfl
  | cons b p ih => exact ih

theorem Trie.at_append_singleton (t : Trie) (p : List Bool) (b : Bool) :
    t.at (p ++ [b]) = (t.at p).child b := by
  induction p generalizing t with
  | nil => rfl
  | cons b' p ih => exact ih (t.child b')

/-- No leaf stands on the way to the code, and nothing at its end. -/
def Trie.freeFor (t : Trie) (c : List Bool) : Prop :=
  t.at c = .missing ∧ ∀ p sym, p <+: c → t.at p ≠ .leaf sym

/-- A code put into a trie changes one side of the root. -/
theorem Trie.insert_cons {t : Trie} (ht : ∀ sym, t ≠ .leaf sym) (sym : Byte) (b : Bool)
    (c : List Bool) :
    (∃ z o, Trie.insert sym (b :: c) t = .branch z o) ∧
    (Trie.insert sym (b :: c) t).child b = Trie.insert sym c (t.child b) ∧
    (Trie.insert sym (b :: c) t).child (!b) = t.child (!b) := by
  cases t with
  | leaf x => exact absurd rfl (ht x)
  | missing | branch => cases b <;> exact ⟨⟨_, _, rfl⟩, rfl, rfl⟩

/-- What stands where in a trie with one more code: the leaf at the code's end, branches before it,
nothing behind it, and elsewhere what stood there. -/
theorem Trie.insert_at {t : Trie} {c : List Bool} (h : t.freeFor c) (sym : Byte) (p : List Bool) :
    (p = c → (Trie.insert sym c t).at p = .leaf sym) ∧
    (p <+: c → p ≠ c → ∃ z o, (Trie.insert sym c t).at p = .branch z o) ∧
    (c <+: p → p ≠ c → (Trie.insert sym c t).at p = .missing) ∧
    (¬ p <+: c → ¬ c <+: p → (Trie.insert sym c t).at p = t.at p) := by
  induction c generalizing t p with
  | nil =>
    obtain rfl : t = .missing := h.1
    refine ⟨?_, ?_, ?_, fun _ hnot => absurd p.nil_prefix hnot⟩
    · rintro rfl; rfl
    · exact fun hpre hne => absurd (List.prefix_nil.mp hpre) hne
    · intro _ hne
      cases p with
      | nil => exact absurd rfl hne
      | cons b p => exact Trie.missing_at p
  | cons b c ih =>
    have hroot : ∀ x, t ≠ .leaf x := fun x => h.2 [] x (List.nil_prefix)
    obtain ⟨hbranch, hsame, hother⟩ := Trie.insert_cons hroot sym b c
    have hchild : (t.child b).freeFor c :=
      ⟨h.1, fun p x hp => h.2 (b :: p) x (List.cons_prefix_cons.mpr ⟨rfl, hp⟩)⟩
    cases p with
    | nil =>
      exact ⟨fun hp => absurd hp.symm (List.cons_ne_nil b c), fun _ _ => hbranch,
        fun hp => absurd (List.prefix_nil.mp hp) (List.cons_ne_nil b c),
        fun hp => absurd List.nil_prefix hp⟩
    | cons b' p =>
      by_cases hb : b' = b
      · subst hb
        simpa [hsame] using ih hchild p
      · obtain rfl : b' = !b := by cases b <;> cases b' <;> simp_all
        simp [hother]

/-- What stands in a trie tells which codes there are. -/
def Trie.represents (t : Trie) (codes : List (Byte × List Bool)) : Prop :=
  ∀ p, (∀ sym, t.at p = .leaf sym ↔ (sym, p) ∈ codes) ∧
    (t.at p = .missing ↔ ∀ x ∈ codes, ¬ p <+: x.2)

theorem Trie.represents_insert {t : Trie} {x : Byte × List Bool} {codes : List (Byte × List Bool)}
    (hcodes : PrefixCodes (x :: codes)) (h : t.represents codes) :
    (Trie.insert x.1 x.2 t).represents (x :: codes) := by
  have hclash : ∀ y ∈ codes, ¬ y.2 <+: x.2 ∧ ¬ x.2 <+: y.2 := by
    intro y hy
    have hmem := List.mem_cons_of_mem x hy
    have hne : y ≠ x := fun heq => (List.nodup_cons.mp hcodes.nodup).1
      (heq ▸ List.mem_map_of_mem (f := (·.1)) hy)
    exact ⟨fun hp => hne (hcodes.eq_of_prefix hmem List.mem_cons_self hp),
      fun hp => hne (hcodes.eq_of_prefix List.mem_cons_self hmem hp).symm⟩
  have hfree : t.freeFor x.2 := by
    refine ⟨(h x.2).2.mpr fun y hy => (hclash y hy).2, fun p sym hp hleaf => ?_⟩
    exact (hclash _ (((h p).1 sym).mp hleaf)).1 hp
  intro p
  obtain ⟨hat, hbefore, hbehind, helse⟩ := Trie.insert_at hfree x.1 p
  obtain ⟨sym, c⟩ := x
  by_cases hpc : p = c
  · subst hpc
    have hnot : ∀ x, (x, p) ∉ codes := fun x hx => (hclash _ hx).1 List.prefix_rfl
    simp [hat rfl, hnot, eq_comm]
  · have hmem : ∀ x, (x, p) ∈ (sym, c) :: codes ↔ (x, p) ∈ codes := fun x => by simp [hpc]
    simp only [hmem, List.forall_mem_cons]
    by_cases hpre : p <+: c
    · obtain ⟨z, o, hbranch⟩ := hbefore hpre hpc
      have hnot : ∀ x, (x, p) ∉ codes := fun x hx => (hclash _ hx).1 hpre
      simp [hbranch, hnot, hpre]
    · by_cases hext : c <+: p
      · have hnot : ∀ x, (x, p) ∉ codes := fun x hx => (hclash _ hx).2 hext
        have hnone : ∀ y ∈ codes, ¬ p <+: y.2 := fun y hy hp => (hclash y hy).2 (hext.trans hp)
        simpa [hbehind hext hpc, hnot, hpre] using hnone
      · rw [helse hpre hext]
        exact ⟨(h p).1, (h p).2.trans ⟨fun hno => ⟨hpre, hno⟩, And.right⟩⟩

theorem trieOf_represents {codes : List (Byte × List Bool)} (h : PrefixCodes codes) :
    (trieOf codes).represents codes := by
  induction codes with
  | nil => exact fun p => ⟨fun sym => by simp [trieOf], by simp [trieOf]⟩
  | cons x codes ih => exact Trie.represents_insert h (ih h.tail)

/-- The walk stands where the candidate leads (R217). -/
theorem walkBits_eq_matchBits {codes : List (Byte × List Bool)} (h : PrefixCodes codes) (k : Nat)
    (cand bits : List Bool) :
    walkBits (trieOf codes) k (cand = []) ((trieOf codes).at cand) bits =
      matchBits codes k cand bits := by
  have hrep := trieOf_represents h
  induction bits generalizing k cand with
  | nil => simp [walkBits, matchBits]
  | cons b bits ih =>
    obtain ⟨hleaf, hmissing⟩ := hrep (cand ++ [b])
    rw [walkBits, matchBits, ← Trie.at_append_singleton]
    cases hchild : (trieOf codes).at (cand ++ [b]) with
    | missing =>
      have hno := hmissing.mp hchild
      have hnone : matchCode codes (cand ++ [b]) = none :=
        (matchCode_eq_none_iff h).mpr fun sym hmem => hno _ hmem List.prefix_rfl
      have hext : canExtend codes (cand ++ [b]) = false := by
        rw [← Bool.not_eq_true, canExtend_iff]
        exact fun ⟨x, hx, hpre⟩ => hno x hx hpre
      simp [hnone, hext]
    | leaf sym =>
      have hsome := (matchCode_eq_some_iff h).mpr ((hleaf sym).mp hchild)
      simp only [hsome]
      exact congrArg (Decoded.cons sym) (by simpa using ih (k + 1) [])
    | branch z o =>
      have hnone : matchCode codes (cand ++ [b]) = none :=
        (matchCode_eq_none_iff h).mpr fun sym hmem => by
          rw [(hleaf sym).mpr hmem] at hchild; cases hchild
      have hext : canExtend codes (cand ++ [b]) = true := by
        rw [canExtend_iff]
        by_contra hno
        rw [hmissing.mpr fun x hx hpre => hno ⟨x, hx, hpre⟩] at hchild
        cases hchild
      have := ih (k + 1) (cand ++ [b])
      simp only [hnone, hext, if_true, ← this, hchild]
      simp

/-- Settles O43: the walk starts at the root, where the empty candidate leads. -/
theorem trieWalkEqualsMatching : Obligations.TrieWalkEqualsMatching := by
  intro codes bits hnodup hne hfree
  simpa using walkBits_eq_matchBits ⟨hnodup, hne, hfree⟩ 0 [] bits

end Sys2Proof.Machine
end

section
/-!
PROOF. DECODE as candidate matching over the payload bits, and what else it can do (45_decoder R210 to
R216).
-/

namespace Sys2Proof.Machine

/-! ### The payload bits of IBUF -/

/-- The memory holds these bits from bit k of a payload at `off` (R212). -/
def holdsBits (m : Memory) (off k : Nat) (bits : List Bool) : Prop :=
  ∀ j (h : j < bits.length), ∃ y, m.read (off + (k + j) / 8) = some y ∧ y.getMsbD ((k + j) % 8) = bits[j]

theorem holdsBits_cons {m : Memory} {off k : Nat} {b : Bool} {bits : List Bool}
    (h : holdsBits m off k (b :: bits)) :
    (∃ y, m.read (off + k / 8) = some y ∧ y.getMsbD (k % 8) = b) ∧ holdsBits m off (k + 1) bits := by
  refine ⟨h 0 (by simp), fun j hj => ?_⟩
  have := h (j + 1) (by simpa using hj)
  rwa [show k + (j + 1) = k + 1 + j by omega] at this

theorem length_flatMap_byteBits (bytes : List Byte) :
    (bytes.flatMap byteBits).length = 8 * bytes.length := by
  simp [List.length_flatMap, byteBits, Nat.mul_comm]

theorem getElem?_flatMap_byteBits (bytes : List Byte) (k : Nat) :
    (bytes.flatMap byteBits)[k]? = bytes[k / 8]?.map fun y => y.getMsbD (k % 8) := by
  induction bytes generalizing k with
  | nil => simp
  | cons y bytes ih =>
    have hlen : (byteBits y).length = 8 := by simp [byteBits]
    rw [List.flatMap_cons]
    by_cases hk : k < 8
    · rw [List.getElem?_append_left (by omega), Nat.div_eq_of_lt hk, Nat.mod_eq_of_lt hk]
      simp [byteBits, hk]
    · rw [List.getElem?_append_right (by omega), ih, hlen,
        show k / 8 = (k - 8) / 8 + 1 by omega, List.getElem?_cons_succ,
        show k % 8 = (k - 8) % 8 by omega]

theorem holdsBits_payloadBits {m : Memory} {off : Nat} {bytes : List Byte} (h : holds m off bytes)
    (nbits : Nat) : holdsBits m off 0 (payloadBits bytes nbits) := by
  intro j hj
  have hj' : j < 8 * bytes.length := by
    rw [payloadBits, List.length_take, length_flatMap_byteBits] at hj; omega
  have hbit : (payloadBits bytes nbits)[j]? = bytes[j / 8]?.map fun y => y.getMsbD (j % 8) := by
    rw [payloadBits, List.getElem?_take_of_lt (by rw [payloadBits, List.length_take] at hj; omega),
      getElem?_flatMap_byteBits]
  rw [List.getElem?_eq_getElem hj, List.getElem?_eq_getElem (show j / 8 < bytes.length by omega)] at hbit
  refine ⟨bytes[j / 8], ?_, by simpa using hbit.symm⟩
  rw [Nat.zero_add, h _ (by omega)]
  exact List.getElem?_eq_getElem _

/-! ### What the bit loop can do -/

theorem decodeLoop_succ {codes : List (Byte × List Bool)} {n k q : Nat} {cand : List Bool} {s : State}
    {y : Byte} (hy : s.ibuf.read (s.payOff.toNat + k / 8) = some y) :
    decodeLoop codes (n + 1) k q cand s =
      match matchCode codes (cand ++ [y.getMsbD (k % 8)]) with
      | some sym => (emitOut q sym s).bind fun _ s => decodeLoop codes n (k + 1) (q + 1) [] s
      | none =>
        if canExtend codes (cand ++ [y.getMsbD (k % 8)]) then
          decodeLoop codes n (k + 1) q (cand ++ [y.getMsbD (k % 8)]) s
        else .raise .truncatedPayload (BitVec.ofNat 32 k) { s with outLen := 0#32 } := by
  rw [decodeLoop, memRead_of_read hy, Exit.bind_ok] <;> rfl

theorem emitOut_frame {q : Nat} {v : Byte} {s s' : State} (h : emitOut q v s = .ok () s') :
    ∃ m, s' = { s with obuf := m } := by
  rcases emitOut_cases q v s with ⟨-, he⟩ | ⟨-, he⟩ <;> rw [he] at h <;> cases h
  exact ⟨_, rfl⟩

/-- What the bit loop can do, over any IBUF: `n` bits from bit k store at most n bytes from q on. -/
theorem decodeLoop_cases (codes : List (Byte × List Bool)) (n k q : Nat) (cand : List Bool)
    (s : State) :
    (∃ r m, decodeLoop codes n k q cand s = .ok r { s with obuf := m } ∧ q ≤ r.1 ∧
      r.1 ≤ q + n ∧ (r.1 = q ∨ r.1 ≤ s.bufSize.toNat) ∧ StoredWithin s.bufSize.toNat q r.1 s.obuf m ∧
      ∀ a, q ≤ a → a < r.1 → m.read a ≠ none) ∨
    (∃ m e info, decodeLoop codes n k q cand s = .raise e info { s with obuf := m, outLen := 0#32 } ∧
      e ≠ .none ∧ StoredWithin s.bufSize.toNat q (q + n) s.obuf m) ∨
    (∃ j, j < n ∧ s.ibuf.read (s.payOff.toNat + (k + j) / 8) = none ∧
      decodeLoop codes n k q cand s = .fault (.unwrittenIbuf (s.payOff.toNat + (k + j) / 8))) := by
  induction n generalizing k q cand s with
  | zero =>
    exact .inl ⟨(q, cand), s.obuf, rfl, le_rfl, le_rfl, .inl rfl, .refl .., fun a h h' => by omega⟩
  | succ n ih =>
    cases hread : s.ibuf.read (s.payOff.toNat + k / 8) with
    | none =>
      refine .inr (.inr ⟨0, Nat.succ_pos n, hread, ?_⟩)
      rw [decodeLoop, memRead, hread]
      rfl
    | some y =>
      rw [decodeLoop_succ hread]
      cases matchCode codes (cand ++ [y.getMsbD (k % 8)]) with
      | some sym =>
        rcases emitOut_cases q sym s with ⟨hlt, hemit⟩ | ⟨hge, hemit⟩ <;> simp only [hemit]
        · have hwrite := StoredWithin.write s.obuf sym hlt (lo := q) (hi := q + 1) le_rfl (by omega)
          rcases ih (k + 1) (q + 1) [] { s with obuf := s.obuf.write q sym } with
            ⟨r, m, heq, hle, hmax, hbound, hstored, hwritten⟩ | ⟨m, e, info, heq, hne, hstored⟩ |
            ⟨j, hj, hnone, heq⟩
          · have hq : m.read q = some sym :=
              (hstored.same q (by omega)).trans (Memory.read_write_same ..)
            refine .inl ⟨r, m, heq, by omega, by omega, .inr ?_, (hwrite.mono le_rfl hle).trans
              (hstored.mono (by omega) le_rfl), fun a ha ha' => ?_⟩
            · rcases hbound with h | h
              · omega
              · exact h
            · by_cases haq : a = q
              · rw [haq, hq]; simp
              · exact hwritten a (by omega) ha'
          · exact .inr (.inl ⟨m, e, info, heq, hne, (hwrite.mono le_rfl (by omega)).trans
              (hstored.mono (by omega) (by omega))⟩)
          · refine .inr (.inr ⟨j + 1, by omega, ?_, ?_⟩) <;>
              rw [show k + (j + 1) = k + 1 + j by omega]
            · exact hnone
            · exact heq
        · exact .inr (.inl ⟨s.obuf, .outputOverflow, s.bufSize, rfl, by decide, .refl ..⟩)
      | none =>
        by_cases hext : canExtend codes (cand ++ [y.getMsbD (k % 8)]) = true
        · simp only [hext, if_true]
          rcases ih (k + 1) q (cand ++ [y.getMsbD (k % 8)]) s with
            ⟨r, m, heq, hle, hmax, h⟩ | ⟨m, e, info, heq, hne, hstored⟩ |
            ⟨j, hj, hnone, heq⟩
          · exact .inl ⟨r, m, heq, hle, by omega, h⟩
          · exact .inr (.inl ⟨m, e, info, heq, hne, hstored.mono le_rfl (by omega)⟩)
          · refine .inr (.inr ⟨j + 1, by omega, ?_, ?_⟩) <;>
              rw [show k + (j + 1) = k + 1 + j by omega]
            · exact hnone
            · exact heq
        · simp only [hext]
          exact .inr (.inl ⟨s.obuf, .truncatedPayload, BitVec.ofNat 32 k, rfl, by decide, .refl ..⟩)

/-! ### The loop as matching -/

/-- DECODE's end after its loop (R215). -/
def decodeFinish (nbits : Nat) (r : Nat × List Bool) (s : State) : Exit Unit :=
  if r.2 = [] then .ok () { s with outLen := BitVec.ofNat 32 r.1 }
  else .raise .truncatedPayload (BitVec.ofNat 32 nbits) { s with outLen := 0#32 }

/-- DECODE's end by how the payload bits match (R214, R215). -/
def decodeEnd (nbits : Nat) (d : Decoded) (q : Nat) (s : State) : Exit Unit :=
  match d with
  | .all _ => .ok () { s with outLen := BitVec.ofNat 32 q }
  | .stuckAt _ k => .raise .truncatedPayload (BitVec.ofNat 32 k) { s with outLen := 0#32 }
  | .leftover _ => .raise .truncatedPayload (BitVec.ofNat 32 nbits) { s with outLen := 0#32 }

theorem decodeEnd_cons (nbits : Nat) (sym : Byte) (d : Decoded) :
    decodeEnd nbits (d.cons sym) = decodeEnd nbits d := by
  cases d <;> rfl

theorem Decoded.syms_cons (sym : Byte) (d : Decoded) : (d.cons sym).syms = sym :: d.syms := by
  cases d <;> rfl

/-- The bit loop puts out the matched symbols, and ends as the matching does (R210, R213 to R215). -/
theorem decodeLoop_eq_matchBits (codes : List (Byte × List Bool)) (nbits : Nat) {bits : List Bool}
    (k q : Nat) (cand : List Bool) {s : State} (h : holdsBits s.ibuf s.payOff.toNat k bits) :
    (decodeLoop codes bits.length k q cand s).bind (decodeFinish nbits) =
      (emitList q (matchBits codes k cand bits).syms s).bind
        (decodeEnd nbits (matchBits codes k cand bits)) := by
  induction bits generalizing k q cand s with
  | nil =>
    by_cases hcand : cand = [] <;>
      simp [decodeLoop, decodeFinish, matchBits, Decoded.syms, decodeEnd, hcand]
  | cons b bits ih =>
    obtain ⟨⟨y, hy, rfl⟩, hbits⟩ := holdsBits_cons h
    rw [List.length_cons, decodeLoop_succ hy, matchBits]
    cases matchCode codes (cand ++ [y.getMsbD (k % 8)]) with
    | some sym =>
      simp only [Decoded.syms_cons, decodeEnd_cons, emitList_cons, Exit.bind_assoc]
      refine Exit.bind_congr fun _ s' hemit => ?_
      obtain ⟨m, rfl⟩ := emitOut_frame hemit
      exact ih (k + 1) (q + 1) [] hbits
    | none =>
      by_cases hext : canExtend codes (cand ++ [y.getMsbD (k % 8)]) = true
      · simp only [hext, if_true]
        exact ih (k + 1) q _ hbits
      · simp [hext, Decoded.syms, decodeEnd]

/-- With a bit count that is not negative, the body is the loop and its end (R210, R215). -/
theorem decodeBody_of_le {s : State} (h : payloadNeed s ≤ payloadHave s) :
    decodeBody s = (decodeLoop (validCodes s.ct) (payloadHave s - payloadNeed s) 0 0 [] s).bind
      (decodeFinish (payloadHave s - payloadNeed s)) := by
  rw [decodeBody, if_neg (Nat.not_lt.mpr h)]
  refine Exit.bind_congr fun r s' hloop => ?_
  rcases decodeLoop_cases (validCodes s.ct) (payloadHave s - payloadNeed s) 0 0 [] s with
    ⟨r', m, heq, -⟩ | ⟨m, e, info, heq, -⟩ | ⟨j, -, -, heq⟩ <;> rw [heq] at hloop <;> cases hloop
  rfl

/-- DECODE's body over a written payload (R210 to R216). -/
theorem decodeBody_eq_matchBits {s : State} {bytes : List Byte} {nbits : Nat}
    (hlen : s.payOff.toNat + bytes.length = s.inLen.toNat) (hpad : s.pad.toNat ≤ 8 * bytes.length)
    (hnbits : nbits = 8 * bytes.length - s.pad.toNat) (hread : holds s.ibuf s.payOff.toNat bytes) :
    decodeBody s =
      (emitList 0 (matchBits (validCodes s.ct) 0 [] (payloadBits bytes nbits)).syms s).bind
        (decodeEnd nbits (matchBits (validCodes s.ct) 0 [] (payloadBits bytes nbits))) := by
  have hbits : payloadHave s - payloadNeed s = nbits := by
    rw [payloadHave, payloadNeed]; omega
  have hlength : (payloadBits bytes nbits).length = nbits := by
    rw [payloadBits, List.length_take, length_flatMap_byteBits]; omega
  have hle : payloadNeed s ≤ payloadHave s := by rw [payloadHave, payloadNeed]; omega
  rw [decodeBody_of_le hle, hbits,
    ← decodeLoop_eq_matchBits (validCodes s.ct) nbits 0 0 [] (holdsBits_payloadBits hread nbits),
    hlength]

/-! ### The statements -/

/-- Settles O41: the symbols that fit go out, and either one does not fit or the matching's end is
DECODE's. -/
theorem decodeMatchesThePayloadBits : Obligations.DecodeMatchesThePayloadBits := by
  intro s bytes nbits hok hbuf hle hlen hpad hnbits hread
  have hbody := decodeBody_eq_matchBits (s := consumeHenc s) hlen hpad hnbits hread
  rw [exec_decode_of_hdrOk hok hle, hbody]
  simp only [consumeHenc_ct]
  generalize matchBits (validCodes s.ct) 0 [] (payloadBits bytes nbits) = d
  obtain ⟨m, hholds, -, hfits, hover⟩ := emitList_spec 0 d.syms (consumeHenc s)
  refine ⟨m, hholds, ?_⟩
  split
  next hlong =>
    rw [hover (List.ne_nil_of_length_pos (by omega)) (by rw [Nat.zero_add]; exact hlong)]
    rfl
  next hshort =>
    rw [hfits (.inr (by rw [Nat.zero_add]; exact Nat.not_lt.mp hshort)), Nat.zero_add]
    cases d <;> rfl

/-- Settles O42: the payload bits are the codes of the symbols, which match them all. -/
theorem decodeInvertsPack : Obligations.DecodeInvertsPack := by
  intro s xs hok hbuf htable hfree hvalid hxs hle hlen hpad hread
  have hcodes := prefixCodes_validCodes (State.tableInv_iff.mp htable).1 hfree
  have hfits := length_add_padOf (codesOf s.ct xs).length
  have hpack := length_packBits (codesOf s.ct xs)
  have hpadOf : s.pad.toNat = padOf (codesOf s.ct xs).length := hpad
  have hbody := decodeBody_eq_matchBits (s := consumeHenc s) hlen.symm
    (show s.pad.toNat ≤ _ by omega) rfl hread
  rw [show (consumeHenc s).pad.toNat = (packBits (codesOf s.ct xs)).2 from hpad,
    payloadBits_packBits, consumeHenc_ct, matchBits_codesOf hcodes 0 hvalid] at hbody
  obtain ⟨m, hemit, hholds, hstored⟩ := emitList_fits (q := 0) (vs := xs) (s := consumeHenc s)
    (.inr (by rw [Nat.zero_add]; exact hxs))
  rw [Nat.zero_add] at hemit hstored
  refine ⟨m, ?_, hholds, hstored.same⟩
  rw [exec_decode_of_hdrOk hok hle, hbody, Decoded.syms, hemit]
  rfl

/-- What DECODE's body can do. -/
theorem decodeBody_cases (s : State) :
    (∃ q m, decodeBody s = .ok () { s with obuf := m, outLen := BitVec.ofNat 32 q } ∧
      q ≤ s.bufSize.toNat ∧ StoredWithin s.bufSize.toNat 0 q s.obuf m ∧
      ∀ a, a < q → m.read a ≠ none) ∨
    (∃ m e info, decodeBody s = .raise e info { s with obuf := m, outLen := 0#32 } ∧ e ≠ .none ∧
      StoredWithin s.bufSize.toNat 0 (payloadHave s - payloadNeed s) s.obuf m) ∨
    (∃ a, a < s.inLen.toNat ∧ s.ibuf.read a = none ∧ decodeBody s = .fault (.unwrittenIbuf a)) := by
  by_cases hneg : payloadHave s < payloadNeed s
  · rw [decodeBody_of_lt hneg]
    exact .inr (.inl ⟨s.obuf, _, _, rfl, by decide, .refl ..⟩)
  · rw [decodeBody_of_le (Nat.not_lt.mp hneg)]
    rcases decodeLoop_cases (validCodes s.ct) (payloadHave s - payloadNeed s) 0 0 [] s with
      ⟨r, m, heq, -, hmax, hbound, hstored, hwritten⟩ | ⟨m, e, info, heq, hne, hstored⟩ |
      ⟨j, hj, hnone, heq⟩ <;> rw [heq]
    · rw [Nat.zero_add] at hmax
      by_cases hcand : r.2 = []
      · refine .inl ⟨r.1, m, if_pos hcand, by omega, hstored, fun a ha => ?_⟩
        exact hwritten a (Nat.zero_le a) ha
      · exact .inr (.inl ⟨m, _, _, if_neg hcand, by decide, hstored.mono le_rfl hmax⟩)
    · rw [Nat.zero_add] at hstored
      exact .inr (.inl ⟨m, e, info, rfl, hne, hstored⟩)
    · refine .inr (.inr ⟨_, ?_, hnone, rfl⟩)
      simp only [payloadHave, payloadNeed] at hj hneg
      omega

end Sys2Proof.Machine
end

section
/-!
PROOF. What HDEC can do over any IBUF (43_header_codec R163 to R169, 70 R265).
-/

namespace Sys2Proof.Machine

/-! ### Pairs -/

/-- Entries that a parse has written over a table: distinct symbols without a code before, each with a
canonical code now. -/
structure FreshCodes (ct : Vector CtEntry 256) (es : List (Byte × CtEntry)) : Prop where
  nodup : (es.map (·.1)).Nodup
  fresh : ∀ x ∈ es, (ctAt ct x.1).valid = false
  valid : ∀ x ∈ es, x.2.valid = true
  canonical : ∀ x ∈ es, x.2.canonical

theorem FreshCodes.nil (ct : Vector CtEntry 256) : FreshCodes ct [] := by
  constructor <;> simp

theorem FreshCodes.append {ct : Vector CtEntry 256} {es fs : List (Byte × CtEntry)}
    (he : FreshCodes ct es) (hf : FreshCodes (ctSetAll ct es) fs) : FreshCodes ct (es ++ fs) := by
  have hnew : ∀ x ∈ fs, x.1 ∉ es.map (·.1) := fun x hx hmem => by
    obtain ⟨y, hy, hyx⟩ := List.mem_map.mp hmem
    have hold := hf.fresh x hx
    rw [← hyx, ctAt_ctSetAll_of_mem he.nodup hy, he.valid y hy] at hold
    cases hold
  refine ⟨?_, ?_, List.forall_mem_append.mpr ⟨he.valid, hf.valid⟩,
    List.forall_mem_append.mpr ⟨he.canonical, hf.canonical⟩⟩
  · rw [List.map_append, List.nodup_append]
    refine ⟨he.nodup, hf.nodup, fun a ha b hb hab => ?_⟩
    obtain ⟨x, hx, rfl⟩ := List.mem_map.mp hb
    exact hnew x hx (hab ▸ ha)
  · refine List.forall_mem_append.mpr ⟨he.fresh, fun x hx => ?_⟩
    rw [← hf.fresh x hx, ctAt_ctSetAll_of_not_mem (hnew x hx)]

theorem FreshCodes.singleton {ct : Vector CtEntry 256} {sym : Byte} {len : Nat} (b : Byte)
    (hold : (ctAt ct sym).valid = false) (hpos : 1 ≤ len) (hle : len ≤ 8) :
    FreshCodes ct [(sym, packedEntry len b)] := by
  constructor <;> simp [hold, packedEntry_canonical hpos hle b]
  rfl

theorem FreshCodes.countValid {ct : Vector CtEntry 256} {es : List (Byte × CtEntry)}
    (h : FreshCodes ct es) : countValid (ctSetAll ct es) = countValid ct + es.length :=
  countValid_ctSetAll h.nodup h.valid h.fresh

/-- How a part of the parse ends: after `due` more codes, or with a failure of the header, or at an IBUF
byte below n that nobody wrote. -/
def parseEnds (n due : Nat) (s : State) (x : Exit Nat) : Prop :=
  (∃ p es, x = .ok p { s with ct := ctSetAll s.ct es } ∧ es.length = due ∧ FreshCodes s.ct es) ∨
  (∃ info, x = .raise .malformedHeader info (clearTable s)) ∨
  (∃ a, a < n ∧ s.ibuf.read a = none ∧ x = .fault (.unwrittenIbuf a))

theorem parseEnds_headerFail {sub : Nat} (n due off : Nat) (s : State) (h : sub < 256) :
    parseEnds n due s (headerFail sub off s) :=
  .inr (.inl ⟨_, headerFail_eq h off s⟩)

theorem parseEnds_ok (n p : Nat) (s : State) : parseEnds n 0 s (.ok p s) :=
  .inl ⟨p, [], rfl, rfl, .nil _⟩

/-- A read below n is a byte, or the fault. -/
theorem parseEnds_bind_memRead {n due a : Nat} {s : State} {k : Byte → State → Exit Nat} (ha : a < n)
    (h : ∀ v, s.ibuf.read a = some v → parseEnds n due s (k v s)) :
    parseEnds n due s ((memRead a s).bind k) := by
  cases hread : s.ibuf.read a with
  | none => exact .inr (.inr ⟨a, ha, hread, by simp [memRead, hread]⟩)
  | some v => rw [memRead_of_read hread, Exit.bind_ok]; exact h v hread

/-- One part of a parse after another. -/
theorem parseEnds_bind {n due due' : Nat} {s : State} {x : Exit Nat} {k : Nat → State → Exit Nat}
    (hx : parseEnds n due s x) (hk : ∀ p es, FreshCodes s.ct es →
      parseEnds n due' { s with ct := ctSetAll s.ct es } (k p { s with ct := ctSetAll s.ct es })) :
    parseEnds n (due + due') s (x.bind k) := by
  rcases hx with ⟨p, es, rfl, hlen, hes⟩ | ⟨info, rfl⟩ | ⟨a, ha, hnone, rfl⟩
  · rcases hk p es hes with ⟨p', fs, heq, hlen', hfs⟩ | ⟨info, heq⟩ | ⟨a, ha, hnone, heq⟩
    · refine .inl ⟨p', es ++ fs, ?_, by simp [hlen, hlen'], hes.append hfs⟩
      rw [Exit.bind_ok, heq, ctSetAll_append]
    · exact .inr (.inl ⟨info, heq⟩)
    · exact .inr (.inr ⟨a, ha, hnone, heq⟩)
  · exact .inr (.inl ⟨info, rfl⟩)
  · exact .inr (.inr ⟨a, ha, hnone, rfl⟩)

theorem hdecPairs_ends {len : Nat} (hpos : 1 ≤ len) (hle : len ≤ 8) (n count p : Nat) (s : State) :
    parseEnds n count s (hdecPairs len n count p s) := by
  induction count generalizing p s with
  | zero => exact parseEnds_ok n p s
  | succ count ih =>
    rw [hdecPairs]
    split
    next => exact parseEnds_headerFail _ _ _ s (by omega)
    next hfit =>
      refine parseEnds_bind_memRead (by omega) fun sym hsym => ?_
      refine parseEnds_bind_memRead (by omega) fun b hb => ?_
      split
      next => exact parseEnds_headerFail _ _ _ s (by omega)
      next hold =>
        have hone : parseEnds n 1 s
            (.ok (p + 2) { s with ct := ctSet s.ct sym (packedEntry len b) }) :=
          .inl ⟨p + 2, [(sym, packedEntry len b)], rfl, rfl,
            .singleton b (by simpa using hold) hpos hle⟩
        rw [Nat.add_comm count 1]
        exact parseEnds_bind (k := hdecPairs len n count) hone fun p' es _ => ih p' _

/-! ### Groups -/

theorem hdecGroups_ends {n fuel due : Nat} (hfuel : due ≤ fuel) (p : Nat) (s : State) :
    parseEnds n due s (hdecGroups n fuel due p s) := by
  induction fuel generalizing due p s with
  | zero =>
    obtain rfl : due = 0 := by omega
    exact parseEnds_ok n p s
  | succ fuel ih =>
    rw [hdecGroups]
    split
    next hzero => subst hzero; exact parseEnds_ok n p s
    next hdue =>
      split
      next => exact parseEnds_headerFail _ _ _ s (by omega)
      next hfit =>
        refine parseEnds_bind_memRead (by omega) fun kb hkb => ?_
        refine parseEnds_bind_memRead (by omega) fun len hlen => ?_
        split
        next => exact parseEnds_headerFail _ _ _ s (by omega)
        next hgood =>
          split
          next => exact parseEnds_headerFail _ _ _ s (by omega)
          next hcount =>
            have hkb := (decodeCount_bounds kb).1
            have hsum : due = decodeCount kb + (due - decodeCount kb) := by omega
            have hend := parseEnds_bind (k := hdecGroups n fuel (due - decodeCount kb))
              (hdecPairs_ends (len := len.toNat) (by omega) (by omega) n (decodeCount kb) (p + 2) s)
              fun p' es _ => ih (by omega) p' _
            rwa [← hsum] at hend

/-! ### The body -/

/-- What HDEC's body can do: the results over a `prefixFree` table of as many codes as the header says,
an error with CT cleared, or the fault of an IBUF byte that nobody wrote. -/
theorem hdecBody_cases (s : State) :
    (∃ padByte p ct, hdecBody s =
        .ok () (hdecResults padByte (countValid ct) p { hdecStart s with ct := ct }) ∧
      (∀ sym, (ctAt ct sym).canonical) ∧ prefixFree ct ∧ 1 ≤ countValid ct) ∨
    (∃ e info, e ≠ .none ∧ hdecBody s = .raise e info (hdecStart s)) ∨
    (∃ a, a < s.inLen.toNat ∧ s.ibuf.read a = none ∧ hdecBody s = .fault (.unwrittenIbuf a)) := by
  rw [hdecBody]
  split
  next => exact .inr (.inl ⟨.emptyInput, _, by decide, rfl⟩)
  next =>
    by_cases hone : s.inLen.toNat < 2
    · rw [hdecParse, if_pos hone, headerFail_eq (by omega)]
      exact .inr (.inl ⟨.malformedHeader, _, by decide, rfl⟩)
    cases hpad : s.ibuf.read 0 with
    | none =>
      refine .inr (.inr ⟨0, by omega, hpad, ?_⟩)
      simp [hdecParse, hone, memRead, hpad]
    | some padByte =>
      by_cases hbig : padByte.toNat > 7
      · rw [hdecParse, if_neg hone, memRead_of_read (s := hdecStart s) hpad, Exit.bind_ok, if_pos hbig,
          headerFail_eq (by omega)]
        exact .inr (.inl ⟨.malformedHeader, _, by decide, rfl⟩)
      cases htb : s.ibuf.read 1 with
      | none =>
        refine .inr (.inr ⟨1, by omega, htb, ?_⟩)
        rw [hdecParse, if_neg hone, memRead_of_read (s := hdecStart s) hpad, Exit.bind_ok,
          if_neg hbig, memRead, hdecStart_ibuf, htb]
        rfl
      | some tb =>
        rw [hdecParse_of_start (s := hdecStart s) (by omega) hpad (by omega) htb]
        rcases hdecGroups_ends (n := s.inLen.toNat) (le_refl (decodeCount tb)) 2 (hdecStart s) with
          ⟨p, es, heq, hlen, hes⟩ | ⟨info, heq⟩ | ⟨a, ha, hnone, heq⟩ <;> rw [heq]
        · rw [Exit.bind_ok, hdecFinish]
          replace hes : FreshCodes ctEmpty es := hes
          have hcount : countValid (ctSetAll ctEmpty es) = decodeCount tb := by
            rw [← hlen, FreshCodes.countValid hes, countValid_ctEmpty, Nat.zero_add]
          split
          next =>
            rw [headerFail_eq (by omega)]
            exact .inr (.inl ⟨.malformedHeader, _, by decide, rfl⟩)
          next hfree =>
            refine .inl ⟨padByte, p, ctSetAll ctEmpty es, by rw [hcount]; rfl, fun sym => ?_,
              prefixClash_eq_false_iff.mp (by simpa using hfree),
              by rw [hcount]; exact (decodeCount_bounds tb).1⟩
            rcases ctAt_ctSetAll ctEmpty es sym with hmem | ⟨-, hold⟩
            · exact hes.canonical _ hmem
            · rw [hold, ctAt_ctEmpty]; exact CtEntry.canonical_empty
        · exact .inr (.inl ⟨.malformedHeader, info, by decide, rfl⟩)
        · exact .inr (.inr ⟨a, ha, hnone, rfl⟩)

end Sys2Proof.Machine
end

section
/-!
PROOF. EXTRACT as the list of the leaves' paths (42_code_table R140 to R145).
-/

namespace Sys2Proof.Machine

/-! ### The paths -/

theorem leafPathsFrom_leaf {node : Vector Node 511} {i : Nat} {w : Word} {sym : Byte}
    (h : nodeAt node i = .leaf w sym) (fuel : Nat) (c : List Bool) :
    leafPathsFrom node (fuel + 1) i c = [(c, sym)] := by
  simp only [leafPathsFrom, h]

theorem leafPathsFrom_internal {node : Vector Node 511} {i : Nat} {w : Word} {l r : BitVec 9}
    (h : nodeAt node i = .internal w l r) (fuel : Nat) (c : List Bool) :
    leafPathsFrom node (fuel + 1) i c =
      leafPathsFrom node fuel l.toNat (c ++ [false]) ++
        leafPathsFrom node fuel r.toNat (c ++ [true]) := by
  simp only [leafPathsFrom, h]

/-- Every path below a node begins with the path to the node. -/
theorem prefix_of_mem_leafPathsFrom {node : Vector Node 511} {fuel i : Nat} {c : List Bool}
    {x : List Bool × Byte} (h : x ∈ leafPathsFrom node fuel i c) : c <+: x.1 := by
  induction fuel generalizing i c with
  | zero => cases h
  | succ fuel ih =>
    cases hnode : nodeAt node i with
    | leaf w sym =>
      rw [leafPathsFrom_leaf hnode, List.mem_singleton] at h
      rw [h]
    | internal w l r =>
      rw [leafPathsFrom_internal hnode, List.mem_append] at h
      rcases h with h | h <;> exact (List.prefix_append _ _).trans (ih h)

/-- Neither of two paths begins the other. -/
def incomparable (x y : List Bool × Byte) : Prop := ¬ x.1 <+: y.1 ∧ ¬ y.1 <+: x.1

theorem incomparable_of_branches {c : List Bool} {x y : List Bool × Byte} (hx : c ++ [false] <+: x.1)
    (hy : c ++ [true] <+: y.1) : incomparable x y := by
  obtain ⟨p, hp⟩ := hx
  obtain ⟨q, hq⟩ := hy
  rw [incomparable, ← hp, ← hq]
  constructor <;> simp [List.append_assoc, List.prefix_append_right_inj]

/-- No leaf's path begins another's, by their places in the tree, on any store (R141, R145). -/
theorem pairwise_leafPathsFrom (node : Vector Node 511) (fuel i : Nat) (c : List Bool) :
    (leafPathsFrom node fuel i c).Pairwise incomparable := by
  induction fuel generalizing i c with
  | zero => exact .nil
  | succ fuel ih =>
    cases hnode : nodeAt node i with
    | leaf w sym =>
      rw [leafPathsFrom_leaf hnode]
      exact List.pairwise_singleton _ _
    | internal w l r =>
      rw [leafPathsFrom_internal hnode, List.pairwise_append]
      exact ⟨ih _ _, ih _ _, fun x hx y hy =>
        incomparable_of_branches (prefix_of_mem_leafPathsFrom hx) (prefix_of_mem_leafPathsFrom hy)⟩

/-! ### The walk -/

/-- The entry that a leaf's path gives its symbol (R141). -/
def pathEntry (x : List Bool × Byte) : Byte × CtEntry :=
  (x.2, ⟨true, BitVec.ofNat 4 x.1.length, codeByte x.1⟩)

/-- The table that the paths of a list of leaves give. -/
def pathTable (ct : Vector CtEntry 256) (paths : List (List Bool × Byte)) : Vector CtEntry 256 :=
  ctSetAll ct (paths.map pathEntry)

/-- The path is longer than a code may be (R143). -/
def tooLong (x : List Bool × Byte) : Bool := decide (8 < x.1.length)

/-- What a walk ends with, by the paths of the leaves below its start (R141, R143). -/
def walkOf (paths : List (List Bool × Byte)) (ct : Vector CtEntry 256) : Walk → Prop
  | .table ct' => paths.find? tooLong = none ∧ ct' = pathTable ct paths
  | .tooDeep sym depth => ∃ c, paths.find? tooLong = some (c, sym) ∧ c.length = depth
  | .notATree => True

theorem visit_leaf {node : Vector Node 511} {i : Nat} {w : Word} {sym : Byte}
    (h : nodeAt node i = .leaf w sym) (fuel : Nat) (c : List Bool) (ct : Vector CtEntry 256) :
    visit node (fuel + 1) i c ct =
      if c.length > 8 then .tooDeep sym c.length else .table (pathTable ct [(c, sym)]) := by
  simp only [visit, h]
  rfl

section
variable {node : Vector Node 511} {i : Nat} {w : Word} {l r : BitVec 9}
  (h : nodeAt node i = .internal w l r) {fuel : Nat} {c : List Bool} {ct : Vector CtEntry 256}

include h

theorem visit_of_left_table {ct' : Vector CtEntry 256}
    (hl : visit node fuel l.toNat (c ++ [false]) ct = .table ct') :
    visit node (fuel + 1) i c ct = visit node fuel r.toNat (c ++ [true]) ct' := by
  simp only [visit, h, hl]

theorem visit_of_left_tooDeep {sym : Byte} {depth : Nat}
    (hl : visit node fuel l.toNat (c ++ [false]) ct = .tooDeep sym depth) :
    visit node (fuel + 1) i c ct = .tooDeep sym depth := by
  simp only [visit, h, hl]

theorem visit_of_left_notATree (hl : visit node fuel l.toNat (c ++ [false]) ct = .notATree) :
    visit node (fuel + 1) i c ct = .notATree := by
  simp only [visit, h, hl]

end

/-- What holds of the walk of the right side after the left side's holds of both. -/
theorem walkOf_append {left right : List (List Bool × Byte)} {ct : Vector CtEntry 256} {w : Walk}
    (hleft : left.find? tooLong = none) (hright : walkOf right (pathTable ct left) w) :
    walkOf (left ++ right) ct w := by
  cases w with
  | notATree => trivial
  | tooDeep sym depth =>
    obtain ⟨c, hfind, hdepth⟩ := hright
    exact ⟨c, by rw [List.find?_append, hleft]; exact hfind, hdepth⟩
  | table ct' =>
    obtain ⟨hnone, rfl⟩ := hright
    exact ⟨by rw [List.find?_append, hleft]; exact hnone,
      by simp only [pathTable, List.map_append, ctSetAll_append]⟩

theorem visit_walkOf (node : Vector Node 511) (fuel i : Nat) (c : List Bool)
    (ct : Vector CtEntry 256) :
    walkOf (leafPathsFrom node fuel i c) ct (visit node fuel i c ct) := by
  induction fuel generalizing i c ct with
  | zero => trivial
  | succ fuel ih =>
    cases hnode : nodeAt node i with
    | leaf w sym =>
      rw [leafPathsFrom_leaf hnode, visit_leaf hnode]
      split
      next hlen => exact ⟨c, by simp [tooLong, hlen], rfl⟩
      next hlen => exact ⟨by simp [tooLong, hlen], rfl⟩
    | internal w l r =>
      rw [leafPathsFrom_internal hnode]
      have hleft := ih l.toNat (c ++ [false]) ct
      cases hl : visit node fuel l.toNat (c ++ [false]) ct with
      | notATree => rw [visit_of_left_notATree hnode hl]; trivial
      | tooDeep sym depth =>
        rw [hl] at hleft
        obtain ⟨c', hfind, hdepth⟩ := hleft
        rw [visit_of_left_tooDeep hnode hl]
        exact ⟨c', by rw [List.find?_append, hfind]; rfl, hdepth⟩
      | table ct' =>
        rw [hl] at hleft
        obtain ⟨hnone, rfl⟩ := hleft
        rw [visit_of_left_table hnode hl]
        exact walkOf_append hnone (ih _ _ _)

/-- Where children lie below their parents the walk ends (R32). -/
theorem visit_ne_notATree {node : Vector Node 511} {fuel i : Nat} (hfuel : i < fuel)
    (hbelow : ∀ j, j ≤ i → nodeBelow node j = true) (c : List Bool) (ct : Vector CtEntry 256) :
    visit node fuel i c ct ≠ .notATree := by
  induction fuel generalizing i c ct with
  | zero => omega
  | succ fuel ih =>
    cases hnode : nodeAt node i with
    | leaf w sym => rw [visit_leaf hnode]; split <;> simp
    | internal w l r =>
      have hi := hbelow i le_rfl
      simp only [nodeBelow, hnode, Bool.and_eq_true, decide_eq_true_eq] at hi
      cases hl : visit node fuel l.toNat (c ++ [false]) ct with
      | notATree => exact absurd hl (ih (by omega) (fun j hj => hbelow j (by omega)) _ _)
      | tooDeep => rw [visit_of_left_tooDeep hnode hl]; simp
      | table ct' =>
        rw [visit_of_left_table hnode hl]
        exact ih (by omega) (fun j hj => hbelow j (by omega)) _ _

theorem find?_tooLong_eq_none {paths : List (List Bool × Byte)} :
    paths.find? tooLong = none ↔ ∀ x ∈ paths, x.1.length ≤ 8 := by
  simp [List.find?_eq_none, tooLong]

/-! ### The table -/

/-- The codes of a table: what R145 says of it. -/
structure GoodTable (ct : Vector CtEntry 256) : Prop where
  canonical : ∀ sym, (ctAt ct sym).canonical
  free : prefixFree ct
  pos : 1 ≤ countValid ct

theorem bits_pathEntry {x : List Bool × Byte} (h : x.1.length ≤ 8) : (pathEntry x).2.bits = x.1 :=
  CtEntry.bits_codeByte h true

/-- An entry of a table of paths is a path's, or all zero. -/
theorem ctAt_pathTable (paths : List (List Bool × Byte)) (sym : Byte) :
    (∃ x ∈ paths, x.2 = sym ∧ ctAt (pathTable ctEmpty paths) sym = (pathEntry x).2) ∨
      (sym ∉ paths.map (·.2) ∧ ctAt (pathTable ctEmpty paths) sym = CtEntry.empty) := by
  rcases ctAt_ctSetAll ctEmpty (paths.map pathEntry) sym with hmem | ⟨hnot, heq⟩
  · obtain ⟨x, hx, heq⟩ := List.mem_map.mp hmem
    exact .inl ⟨x, hx, congrArg Prod.fst heq, (congrArg Prod.snd heq).symm⟩
  · rw [List.map_map] at hnot
    exact .inr ⟨hnot, by rw [pathTable, heq, ctAt_ctEmpty]⟩

/-- Incomparable paths of 1 to 8 bits, at least one of them, give a good table. -/
theorem goodTable_pathTable {paths : List (List Bool × Byte)} (hne : paths ≠ [])
    (hlen : ∀ x ∈ paths, 1 ≤ x.1.length ∧ x.1.length ≤ 8) (hpair : paths.Pairwise incomparable) :
    GoodTable (pathTable ctEmpty paths) := by
  have hentry : ∀ sym, (ctAt (pathTable ctEmpty paths) sym).valid = true →
      ∃ x ∈ paths, x.2 = sym ∧ (ctAt (pathTable ctEmpty paths) sym).bits = x.1 := by
    intro sym hv
    rcases ctAt_pathTable paths sym with ⟨x, hx, hsym, heq⟩ | ⟨-, heq⟩
    · exact ⟨x, hx, hsym, by rw [heq, bits_pathEntry (hlen x hx).2]⟩
    · rw [heq] at hv; cases hv
  refine ⟨fun sym => ?_, prefixFree_iff.mpr fun a b ha hb hab => ?_, ?_⟩
  · rcases ctAt_pathTable paths sym with ⟨x, hx, -, heq⟩ | ⟨-, heq⟩
    · rw [heq]; exact CtEntry.canonical_code (hlen x hx).1 (hlen x hx).2
    · rw [heq]; exact CtEntry.canonical_empty
  · obtain ⟨x, hx, rfl, hxbits⟩ := hentry a ha
    obtain ⟨y, hy, rfl, hybits⟩ := hentry b hb
    have hsymm : Std.Symm incomparable := ⟨fun _ _ h => h.symm⟩
    have hinc := hpair.forall hx hy fun h => hab (congrArg Prod.snd h)
    rw [hxbits, hybits, ← Bool.not_eq_true, List.isPrefixOf_iff_prefix]
    exact hinc.1
  · obtain ⟨x, hx⟩ := List.exists_mem_of_ne_nil paths hne
    have hv : (ctAt (pathTable ctEmpty paths) x.2).valid = true := by
      rcases ctAt_pathTable paths x.2 with ⟨y, -, -, heq⟩ | ⟨hnot, -⟩
      · rw [heq]; rfl
      · exact absurd (List.mem_map_of_mem hx) hnot
    rw [countValid_eq]
    exact List.length_pos_of_mem (mem_validSymbols.mpr hv)

/-- The walk from an internal root is that of `visit`. -/
theorem extractTable_of_internal {node : Vector Node 511} {root : Nat} {w : Word} {l r : BitVec 9}
    (h : nodeAt node root = .internal w l r) :
    extractTable node root = visit node 511 root [] ctEmpty := by
  simp only [extractTable, h]
  rfl

theorem leafPaths_of_internal_pos {node : Vector Node 511} {fuel root : Nat} {w : Word}
    {l r : BitVec 9} (h : nodeAt node root = .internal w l r) {x : List Bool × Byte}
    (hx : x ∈ leafPathsFrom node (fuel + 1) root []) : 1 ≤ x.1.length := by
  rw [leafPathsFrom_internal h, List.mem_append] at hx
  rcases hx with hx | hx <;> exact (prefix_of_mem_leafPathsFrom hx).length_le

theorem extractTable_ne_notATree {node : Vector Node 511} {root : Nat} (hroot : root < 511)
    (hbelow : ∀ j, j ≤ root → nodeBelow node j = true) : extractTable node root ≠ .notATree := by
  cases hnode : nodeAt node root with
  | leaf w sym => rw [extractTable_of_leaf hnode]; simp
  | internal w l r =>
    rw [extractTable_of_internal hnode]
    exact visit_ne_notATree hroot hbelow _ _

/-- A walk that ends with a table has visited some leaf. -/
theorem leafPathsFrom_ne_nil {node : Vector Node 511} {fuel i : Nat} {c : List Bool}
    {ct ct' : Vector CtEntry 256} (h : visit node fuel i c ct = .table ct') :
    leafPathsFrom node fuel i c ≠ [] := by
  induction fuel generalizing i c ct ct' with
  | zero => cases h
  | succ fuel ih =>
    cases hnode : nodeAt node i with
    | leaf w sym => simp [leafPathsFrom_leaf hnode]
    | internal w l r =>
      cases hl : visit node fuel l.toNat (c ++ [false]) ct with
      | table ct'' => simp [leafPathsFrom_internal hnode, ih hl]
      | tooDeep => rw [visit_of_left_tooDeep hnode hl] at h; cases h
      | notATree => rw [visit_of_left_notATree hnode hl] at h; cases h

/-- Whatever NODE holds, a table that EXTRACT ends with is good (R145). -/
theorem goodTable_of_extractTable {node : Vector Node 511} {root : Nat} {ct : Vector CtEntry 256}
    (h : extractTable node root = .table ct) : GoodTable ct := by
  cases hnode : nodeAt node root with
  | leaf w sym =>
    rw [extractTable_of_leaf hnode] at h
    cases h
    exact goodTable_pathTable (paths := [([false], sym)]) (by simp) (by simp)
      (List.pairwise_singleton _ _)
  | internal w l r =>
    rw [extractTable_of_internal hnode] at h
    have hwalk := visit_walkOf node 511 root [] ctEmpty
    rw [h] at hwalk
    obtain ⟨hnone, rfl⟩ := hwalk
    exact goodTable_pathTable (leafPathsFrom_ne_nil h)
      (fun x hx => ⟨leafPaths_of_internal_pos hnode hx, find?_tooLong_eq_none.mp hnone x hx⟩)
      (pairwise_leafPathsFrom ..)

/-! ### The command -/

theorem extractBody_of_tooDeep {s : State} {sym : Byte} {depth : Nat}
    (h : extractTable s.node s.root = .tooDeep sym depth) :
    extractBody s = .raise .unsupportedCodeLength (BitVec.ofNat 32 (sym.toNat + 256 * depth))
      (extractStart s) := by
  rw [State.root] at h
  simp only [extractBody, h, ← BitVec.ofNat_toNat, ofNat_or_shiftLeft depth sym.isLt]

theorem extractBody_of_notATree {s : State} (h : extractTable s.node s.root = .notATree) :
    extractBody s = .fault .notATree := by
  rw [State.root] at h
  simp only [extractBody, h]

/-- What EXTRACT's body can do. -/
theorem extractBody_cases (s : State) :
    (∃ ct, extractBody s = .ok () { installTable ct (extractStart s) with ctOk := true } ∧
      GoodTable ct) ∨
    (∃ info, extractBody s = .raise .unsupportedCodeLength info (extractStart s)) ∨
    (extractTable s.node s.root = .notATree ∧ extractBody s = .fault .notATree) := by
  cases h : extractTable s.node s.root with
  | table ct => exact .inl ⟨ct, extractBody_of_table h, goodTable_of_extractTable h⟩
  | tooDeep sym depth => exact .inr (.inl ⟨_, extractBody_of_tooDeep h⟩)
  | notATree => exact .inr (.inr ⟨rfl, extractBody_of_notATree h⟩)

/-- With a tree in NODE the walk from the root does not fault (R32). -/
theorem extractTable_ne_notATree_of_descendInv {s : State} (h : s.descendInv) (htree : s.treeOk = true) :
    extractTable s.node s.root ≠ .notATree := by
  obtain ⟨hok, hmax, hbelow⟩ := h
  have hpos := hok.mp htree
  exact extractTable_ne_notATree (by rw [State.root]; omega)
    fun j hj => hbelow j (by rw [State.root] at hj; omega)

theorem leafPaths_of_leaf {s : State} {w : Word} {sym : Byte}
    (h : nodeAt s.node s.root = .leaf w sym) : s.leafPaths = [([], sym)] :=
  leafPathsFrom_leaf h 510 []

/-- Settles O23: the walk ends with the table of the leaves' paths. -/
theorem extractAssignsPathCodes : Obligations.ExtractAssignsPathCodes := by
  intro s hinv htree hlen hnodup
  have hwalk : extractTable s.node s.root = .table (pathTable ctEmpty s.leafPaths) := by
    cases hnode : nodeAt s.node s.root with
    | leaf w sym =>
      have := (hlen ([], sym) (by simp [leafPaths_of_leaf hnode])).1
      simp at this
    | internal w l r =>
      have hvisit := visit_walkOf s.node 511 s.root [] ctEmpty
      have hne := extractTable_ne_notATree_of_descendInv hinv htree
      rw [extractTable_of_internal hnode] at hne ⊢
      cases h : visit s.node 511 s.root [] ctEmpty with
      | table ct => rw [h] at hvisit; rw [hvisit.2]; rfl
      | tooDeep sym depth =>
        rw [h] at hvisit
        obtain ⟨c, hfind, -⟩ := hvisit
        have hnone := find?_tooLong_eq_none.mpr fun x hx => (hlen x hx).2
        cases hfind.symm.trans hnone
      | notATree => exact absurd h hne
  have hkeys : ((s.leafPaths.map pathEntry).map (·.1)).Nodup := by
    rwa [List.map_map]
  have hcount : countValid (pathTable ctEmpty s.leafPaths) = s.leafPaths.length := by
    rw [pathTable, countValid_ctSetAll hkeys]
    · simp
    · exact List.forall_mem_map.mpr fun _ _ => rfl
    · simp [CtEntry.empty]
  have hgood := goodTable_of_extractTable hwalk
  have hle := countValid_le (pathTable ctEmpty s.leafPaths)
  have hexec : exec .extract s = .next (complete
      { installTable (pathTable ctEmpty s.leafPaths) (extractStart (consumeHenc s)) with
        ctOk := true }) := by
    rw [exec_extract_of_treeOk htree, extractBody_of_table (s := consumeHenc s) hwalk, finish_ok]
  refine ⟨_, hexec, rfl, rfl, rfl, rfl, htree, ?_, tableInv_of_canonical hgood.canonical rfl rfl,
    fun x hx => ?_, fun sym hsym => ?_⟩
  · show (BitVec.ofNat 9 (countValid (pathTable ctEmpty s.leafPaths))).toNat = _
    rw [BitVec.toNat_ofNat, hcount]
    omega
  · have hx' : ctAt (pathTable ctEmpty s.leafPaths) x.2 = (pathEntry x).2 :=
      ctAt_ctSetAll_of_mem hkeys (List.mem_map_of_mem hx)
    show (ctAt (pathTable ctEmpty s.leafPaths) x.2).valid = true ∧
      (ctAt (pathTable ctEmpty s.leafPaths) x.2).bits = x.1
    rw [hx']
    exact ⟨rfl, bits_pathEntry (hlen x hx).2⟩
  · rcases ctAt_pathTable s.leafPaths sym with ⟨x, hx, rfl, -⟩ | ⟨-, heq⟩
    · exact absurd (List.mem_map_of_mem hx) hsym
    · exact heq

/-- Settles O25: the walk ends at the first leaf that is too deep. -/
theorem deepLeafIsUnsupportedCodeLength : Obligations.DeepLeafIsUnsupportedCodeLength := by
  intro s c sym hinv htree hfind
  have hfind' : s.leafPaths.find? tooLong = some (c, sym) := hfind
  have hwalk : extractTable s.node s.root = .tooDeep sym c.length := by
    cases hnode : nodeAt s.node s.root with
    | leaf w x =>
      rw [leafPaths_of_leaf hnode] at hfind'
      simp [tooLong] at hfind'
    | internal w l r =>
      have hvisit := visit_walkOf s.node 511 s.root [] ctEmpty
      have hne := extractTable_ne_notATree_of_descendInv hinv htree
      rw [extractTable_of_internal hnode] at hne ⊢
      rw [State.leafPaths] at hfind'
      cases h : visit s.node 511 s.root [] ctEmpty with
      | table ct => rw [h] at hvisit; rw [hvisit.1] at hfind'; cases hfind'
      | tooDeep sym' depth =>
        rw [h] at hvisit
        obtain ⟨c', hfind'', rfl⟩ := hvisit
        rw [hfind'] at hfind''
        cases hfind''
        rfl
      | notATree => exact absurd h hne
  rw [exec_extract_of_treeOk htree, extractBody_of_tooDeep (s := consumeHenc s) hwalk, finish_raise]
  rfl

end Sys2Proof.Machine
end

section
/-!
PROOF. The merge loop of BUILD, read on the node store it fills (41_tree_builder R120 to R122).
-/

namespace Sys2Proof.Machine

/-! ### Unwritten entries and leaves -/

theorem firstUnwritten_eq_none_iff {a : Nat} {fs : List FreqEntry} :
    firstUnwritten a fs = none ↔ ∀ f ∈ fs, f.written = true := by
  induction fs generalizing a with
  | nil => simp [firstUnwritten]
  | cons f fs ih => rw [firstUnwritten, List.forall_mem_cons]; split <;> simp_all

/-- The entry named is not written, and every one before it is. -/
theorem firstUnwritten_eq_some {a k : Nat} {fs : List FreqEntry} (h : firstUnwritten a fs = some k) :
    ∃ i f, k = a + i ∧ fs[i]? = some f ∧ f.written = false ∧
      ∀ j g, j < i → fs[j]? = some g → g.written = true := by
  induction fs generalizing a with
  | nil => cases h
  | cons f fs ih =>
    rw [firstUnwritten] at h
    split at h
    next hw =>
      obtain ⟨i, g, rfl, hg, hgw, hbefore⟩ := ih h
      refine ⟨i + 1, g, by omega, hg, hgw, fun j x hj hx => ?_⟩
      cases j with
      | zero => cases hx; exact hw
      | succ j => exact hbefore j x (by omega) hx
    next hw =>
      cases h
      exact ⟨0, f, rfl, rfl, by simpa using hw, fun j g hj => absurd hj (Nat.not_lt_zero j)⟩

theorem getElem?_freq_toList (freq : Vector FreqEntry 256) {k : Nat} (hk : k < 256) :
    freq.toList[k]? = some (freqAt freq (BitVec.ofNat 8 k)) := by
  rw [freq_toList, List.getElem?_map, getElem?_symbols hk]
  rfl

theorem leavesFrom_map_range' (f : Byte → FreqEntry) (n a : Nat) :
    leavesFrom a ((List.range' a n).map fun k => f (BitVec.ofNat 8 k)) =
      (((List.range' a n).map (BitVec.ofNat 8)).filter fun x => (f x).count != 0#32).map
        fun x => .leaf (f x).count x := by
  induction n generalizing a with
  | zero => rfl
  | succ n ih =>
    simp only [List.range'_succ, List.map_cons, leavesFrom, ih, List.filter_cons]
    by_cases h : (f (BitVec.ofNat 8 a)).count = 0#32 <;> simp [h]

/-- The leaf of a present symbol (R121). -/
def leafOf (freq : Vector FreqEntry 256) (sym : Byte) : Node := .leaf (freqAt freq sym).count sym

theorem leavesFrom_eq (freq : Vector FreqEntry 256) :
    leavesFrom 0 freq.toList = (presentSymbols freq).map (leafOf freq) := by
  have h := leavesFrom_map_range' (freqAt freq) 256 0
  rw [← symbols_eq_range', show (List.range' 0 256).map (fun k => freqAt freq (BitVec.ofNat 8 k)) =
    symbols.map (freqAt freq) by rw [symbols_eq_range', List.map_map]; rfl, ← freq_toList] at h
  exact h

theorem mem_presentSymbols {freq : Vector FreqEntry 256} {sym : Byte} :
    sym ∈ presentSymbols freq ↔ (freqAt freq sym).count ≠ 0#32 := by
  simp [presentSymbols]

theorem nodup_presentSymbols (freq : Vector FreqEntry 256) : (presentSymbols freq).Nodup :=
  nodup_symbols.filter _

theorem length_presentSymbols_le (freq : Vector FreqEntry 256) : (presentSymbols freq).length ≤ 256 :=
  (List.length_filter_le _ _).trans (by simp)

/-- What a filter drops adds nothing where it weighs nothing. -/
theorem sum_map_filter_ne_zero {α : Type} (f : α → Nat) (p : α → Bool)
    (h : ∀ x, p x = false → f x = 0) (xs : List α) : ((xs.filter p).map f).sum = (xs.map f).sum := by
  induction xs with
  | nil => rfl
  | cons x xs ih =>
    rw [List.filter_cons]
    split
    next => simp [ih]
    next hp => simp [ih, h x (by simpa using hp)]

/-- The leaves weigh what FREQ sums to. -/
theorem sum_present (freq : Vector FreqEntry 256) :
    ((presentSymbols freq).map fun x => (freqAt freq x).count.toNat).sum = totalWeight freq := by
  rw [totalWeight, freq_toList, List.map_map]
  refine sum_map_filter_ne_zero (fun x => (freqAt freq x).count.toNat) _ (fun x hx => ?_) symbols
  rw [bne_eq_false_iff_eq] at hx
  rw [hx]
  rfl

/-! ### The queue at the start -/

theorem map_idx_queueFrom (i : Nat) (ns : List Node) :
    (queueFrom i ns).map (·.idx) = List.range' i ns.length := by
  induction ns generalizing i with
  | nil => rfl
  | cons n ns ih => simp [queueFrom, ih, List.range'_succ]

theorem map_weight_queueFrom (i : Nat) (ns : List Node) :
    (queueFrom i ns).map (·.weight) = ns.map Node.weight := by
  induction ns generalizing i with
  | nil => rfl
  | cons n ns ih => simp [queueFrom, ih]

theorem mem_queueFrom {i : Nat} {ns : List Node} {e : QEntry} (h : e ∈ queueFrom i ns) :
    ∃ k n, e.idx = i + k ∧ ns[k]? = some n ∧ e.weight = n.weight := by
  induction ns generalizing i with
  | nil => cases h
  | cons n ns ih =>
    rcases List.mem_cons.mp h with rfl | h
    · exact ⟨0, n, rfl, rfl, rfl⟩
    · obtain ⟨k, x, hidx, hx, hw⟩ := ih h
      exact ⟨k + 1, x, by omega, hx, hw⟩

/-! ### The loop's state, on the node store -/

/-- What the loop keeps before it makes node n: the queue holds the nodes without a parent, by index and
weight, and they weigh `total` together. -/
structure Merging (node : Vector Node 511) (n total : Nat) (q : List QEntry) : Prop where
  nodup : (q.map (·.idx)).Nodup
  mem : ∀ j, j ∈ q.map (·.idx) ↔ inQueue node n j
  weight : ∀ e ∈ q, weightAt node e.idx = e.weight.toNat
  total : (q.map (·.weight.toNat)).sum = total
  below : ∀ k, k < n → ∀ j, isChild node k j = true → j < k

/-- What a merge makes: an internal node over the two least of the queue, which weighs as both do. -/
def mergedAt (node : Vector Node 511) (i : Nat) : Prop :=
  ∃ w l r, nodeAt node i = .internal w l r ∧ twoLeast node i l.toNat r.toNat ∧
    w.toNat = weightAt node l.toNat + weightAt node r.toNat

theorem isChild_internal {node : Vector Node 511} {i j : Nat} {w : Word} {l r : BitVec 9}
    (h : nodeAt node i = .internal w l r) :
    isChild node i j = true ↔ j = l.toNat ∨ j = r.toNat := by
  simp [isChild, h, eq_comm (a := j)]

theorem isChild_leaf {node : Vector Node 511} {i j : Nat} {w : Word} {sym : Byte}
    (h : nodeAt node i = .leaf w sym) : isChild node i j = false := by
  simp [isChild, h]

theorem keyLt_of_not_before {node : Vector Node 511} {x y : QEntry} (h : y.before x = false)
    (hne : x.idx ≠ y.idx) (hx : weightAt node x.idx = x.weight.toNat)
    (hy : weightAt node y.idx = y.weight.toNat) : keyLt node x.idx y.idx := by
  rw [Bool.eq_false_iff, Ne, QEntry.before_iff] at h
  rw [keyLt, hx, hy]
  omega

section
variable {node : Vector Node 511} {n total : Nat} {q q₁ q₂ : List QEntry} {a b : QEntry}

/-- Two extractions take the two least off the queue (R122). -/
theorem extractMin_twice (ha : extractMin q = some (a, q₁)) (hb : extractMin q₁ = some (b, q₂)) :
    q.Perm (a :: b :: q₂) :=
  (extractMin_spec ha).1.trans ((extractMin_spec hb).1.cons a)

variable (h : Merging node n total q) (ha : extractMin q = some (a, q₁))
  (hb : extractMin q₁ = some (b, q₂))

include h ha hb

theorem Merging.twoLeast : twoLeast node n a.idx b.idx := by
  have hperm := extractMin_twice ha hb
  have hnodup := (hperm.map (·.idx)).nodup_iff.mp h.nodup
  simp only [List.map_cons, List.nodup_cons, List.mem_cons, not_or] at hnodup
  obtain ⟨⟨hab, ha₂⟩, hb₂, -⟩ := hnodup
  have hmem : ∀ e, e ∈ a :: b :: q₂ → e ∈ q := fun e he => hperm.mem_iff.mpr he
  have haq := hmem a (by simp)
  have hbq := hmem b (by simp)
  have hb₁ : b ∈ q₁ := (extractMin_spec hb).1.mem_iff.mpr (by simp)
  refine ⟨(h.mem _).mp (List.mem_map_of_mem haq), (h.mem _).mp (List.mem_map_of_mem hbq),
    keyLt_of_not_before ((extractMin_spec ha).2 b hb₁) hab (h.weight a haq) (h.weight b hbq),
    fun j hj hja hjb => ?_⟩
  obtain ⟨e, he, rfl⟩ := List.mem_map.mp ((h.mem j).mpr hj)
  have he₂ : e ∈ q₂ := by
    rcases List.mem_cons.mp (hperm.mem_iff.mp he) with rfl | he'
    · exact absurd rfl hja
    · exact (List.mem_cons.mp he').resolve_left fun heq => hjb (by rw [heq])
  exact keyLt_of_not_before ((extractMin_spec hb).2 e he₂) (Ne.symm hjb) (h.weight b hbq)
    (h.weight e he)

theorem Merging.sum_two : a.weight.toNat + b.weight.toNat ≤ total := by
  have hsum := ((extractMin_twice ha hb).map (·.weight.toNat)).sum_nat
  rw [h.total] at hsum
  simp only [List.map_cons, List.sum_cons] at hsum
  omega

/-- One merge: the new node stands for its two children in the queue (R120). -/
theorem Merging.step {t : Nat} (ht : t = a.weight.toNat + b.weight.toNat) (hmax : t ≤ Config.maxWeight)
    (hn : n < 511)
    (hnode : nodeAt node n =
      .internal (BitVec.ofNat 32 t) (BitVec.ofNat 9 a.idx) (BitVec.ofNat 9 b.idx)) :
    mergedAt node n ∧ Merging node (n + 1) total (⟨BitVec.ofNat 32 t, n⟩ :: q₂) := by
  have hperm := extractMin_twice ha hb
  have htwo := h.twoLeast ha hb
  obtain ⟨⟨haN, haP⟩, ⟨hbN, hbP⟩, -, -⟩ := htwo
  have hmem : ∀ e, e ∈ a :: b :: q₂ → e ∈ q := fun e he => hperm.mem_iff.mpr he
  have hnodup := (hperm.map (·.idx)).nodup_iff.mp h.nodup
  simp only [List.map_cons, List.nodup_cons, List.mem_cons, not_or] at hnodup
  obtain ⟨⟨hab, ha₂⟩, hb₂, hnodup⟩ := hnodup
  have hidx : ∀ j, inQueue node n j ↔ j = a.idx ∨ j = b.idx ∨ j ∈ q₂.map (·.idx) := fun j => by
    rw [← h.mem, (hperm.map (·.idx)).mem_iff]
    simp only [List.map_cons, List.mem_cons]
  have haNat : (BitVec.ofNat 9 a.idx).toNat = a.idx := by rw [BitVec.toNat_ofNat]; omega
  have hbNat : (BitVec.ofNat 9 b.idx).toNat = b.idx := by rw [BitVec.toNat_ofNat]; omega
  have htNat : (BitVec.ofNat 32 t).toNat = t := by
    rw [BitVec.toNat_ofNat]; unfold Config.maxWeight at hmax; omega
  have hchild : ∀ j, isChild node n j = true ↔ j = a.idx ∨ j = b.idx := fun j => by
    rw [isChild_internal hnode, haNat, hbNat]
  have hwa := h.weight a (hmem a (by simp))
  have hwb := h.weight b (hmem b (by simp))
  have hnew : inQueue node (n + 1) n := by
    refine ⟨Nat.lt_succ_self n, fun k hk => ?_⟩
    rw [← Bool.not_eq_true]
    intro hc
    by_cases hkn : k = n
    · subst hkn
      rcases (hchild _).mp hc with h' | h' <;> omega
    · have := h.below k (by omega) n hc
      omega
  refine ⟨⟨_, _, _, hnode, ?_, ?_⟩, ?nodup, fun j => ?mem, ?weight, ?total, fun k hk j hj => ?below⟩
  · rw [haNat, hbNat]; exact h.twoLeast ha hb
  · rw [haNat, hbNat, htNat, hwa, hwb, ht]
  case nodup =>
    rw [List.map_cons, List.nodup_cons]
    refine ⟨fun hin => ?_, hnodup⟩
    have := ((hidx n).mpr (.inr (.inr hin))).1
    omega
  case mem =>
    rw [List.map_cons, List.mem_cons]
    constructor
    · rintro (rfl | hj)
      · exact hnew
      · have hjn := (hidx j).mpr (.inr (.inr hj))
        refine ⟨by have := hjn.1; omega, fun k hk => ?_⟩
        by_cases hkn : k = n
        · subst hkn
          rw [← Bool.not_eq_true, hchild]
          rintro (rfl | rfl)
          · exact ha₂ hj
          · exact hb₂ hj
        · exact hjn.2 k (by omega)
    · rintro ⟨hlt, hno⟩
      by_cases hjn : j = n
      · exact .inl hjn
      · have hq : inQueue node n j := ⟨by omega, fun k hk => hno k (by omega)⟩
        have hnot := hno n (Nat.lt_succ_self n)
        rw [← Bool.not_eq_true, hchild, not_or] at hnot
        rcases (hidx j).mp hq with h' | h' | h'
        · exact absurd h' hnot.1
        · exact absurd h' hnot.2
        · exact .inr h'
  case weight =>
    rw [List.forall_mem_cons]
    refine ⟨by simp [weightAt, hnode, Node.weight], fun e he => h.weight e (hmem e (by simp [he]))⟩
  case total =>
    have hsum := (hperm.map (·.weight.toNat)).sum_nat
    rw [h.total] at hsum
    simp only [List.map_cons, List.sum_cons] at hsum ⊢
    omega
  case below =>
    by_cases hkn : k = n
    · subst hkn
      rcases (hchild j).mp hj with rfl | rfl <;> assumption
    · exact h.below k (by omega) j hj

end

/-! ### The loop -/

/-- The store holds these nodes from index n on. -/
def storesFrom (node : Vector Node 511) (n : Nat) (nodes : List Node) : Prop :=
  ∀ i, i < nodes.length → nodes[i]? = some (nodeAt node (n + i))

theorem storesFrom_cons {node : Vector Node 511} {n : Nat} {x : Node} {nodes : List Node}
    (h : storesFrom node n (x :: nodes)) : nodeAt node n = x ∧ storesFrom node (n + 1) nodes := by
  refine ⟨?_, fun i hi => ?_⟩
  · simpa [eq_comm] using h 0 (by simp)
  · have := h (i + 1) (by simpa using hi)
    rwa [show n + (i + 1) = n + 1 + i by omega] at this

/-- What the loop ends with, on a store that holds the nodes it made. -/
def loopEnds (node : Vector Node 511) (n total : Nat) (q : List QEntry) : Merged → Prop
  | .tree more => storesFrom node n more →
    (∀ i, n ≤ i → i < n + more.length → mergedAt node i) ∧ more.length + 1 = q.length ∧
      ∃ e, Merging node (n + more.length) total [e]
  | .overflow more => storesFrom node n more →
    (∀ i, n ≤ i → i < n + more.length → mergedAt node i) ∧ more.length + 2 ≤ q.length ∧
      Config.maxWeight < total ∧
      ∃ l r, twoLeast node (n + more.length) l r ∧ Config.maxWeight < weightAt node l + weightAt node r

/-- The number of nodes made needs no store. -/
theorem mergeLoop_length {fuel : Nat} (n : Nat) {q : List QEntry} (hfuel : q.length ≤ fuel)
    (hne : q ≠ []) :
    (∃ more, mergeLoop fuel n q = .tree more ∧ more.length + 1 = q.length) ∨
    (∃ more, mergeLoop fuel n q = .overflow more ∧ more.length + 2 ≤ q.length) := by
  induction fuel generalizing n q with
  | zero => exact absurd (List.length_eq_zero_iff.mp (by omega)) hne
  | succ fuel ih =>
    rw [mergeLoop]
    cases ha : extractMin q with
    | none => exact absurd (extractMin_eq_none.mp ha) hne
    | some x =>
      obtain ⟨a, q₁⟩ := x
      have hlen₁ := (extractMin_spec ha).1.length_eq
      simp only
      cases hb : extractMin q₁ with
      | none =>
        rw [extractMin_eq_none.mp hb] at hlen₁
        exact .inl ⟨[], rfl, by simpa using hlen₁.symm⟩
      | some y =>
        obtain ⟨b, q₂⟩ := y
        have hlen₂ := (extractMin_spec hb).1.length_eq
        simp only [List.length_cons] at hlen₁ hlen₂ ⊢
        split
        next => exact .inr ⟨[], rfl, by simp; omega⟩
        next =>
          rcases ih (n + 1) (q := ⟨_, n⟩ :: q₂) (by simp; omega) (by simp) with
            ⟨more, heq, hlen⟩ | ⟨more, heq, hlen⟩ <;> rw [heq]
          · exact .inl ⟨_, rfl, by simp at hlen ⊢; omega⟩
          · exact .inr ⟨_, rfl, by simp at hlen ⊢; omega⟩

theorem forall_ge_of_succ {p : Nat → Prop} {n m : Nat} (hn : p n)
    (h : ∀ i, n + 1 ≤ i → i < m → p i) : ∀ i, n ≤ i → i < m → p i := fun i hi hm => by
  rcases Nat.eq_or_lt_of_le hi with rfl | hlt
  · exact hn
  · exact h i hlt hm

theorem mergeLoop_ends {node : Vector Node 511} {fuel n total : Nat} {q : List QEntry}
    (hfuel : q.length ≤ fuel) (hne : q ≠ []) (hroom : n + q.length ≤ 512)
    (h : Merging node n total q) : loopEnds node n total q (mergeLoop fuel n q) := by
  induction fuel generalizing n q with
  | zero => exact absurd (List.length_eq_zero_iff.mp (by omega)) hne
  | succ fuel ih =>
    rw [mergeLoop]
    cases ha : extractMin q with
    | none => exact absurd (extractMin_eq_none.mp ha) hne
    | some x =>
      obtain ⟨a, q₁⟩ := x
      have hperm₁ := (extractMin_spec ha).1
      simp only
      cases hb : extractMin q₁ with
      | none =>
        rw [extractMin_eq_none.mp hb] at hperm₁
        rw [List.perm_singleton.mp hperm₁] at h ⊢
        exact fun _ => ⟨fun i hi hi' => absurd hi' (by simpa using hi), rfl, a, h⟩
      | some y =>
        obtain ⟨b, q₂⟩ := y
        have hlen := (extractMin_twice ha hb).length_eq
        simp only [List.length_cons] at hlen ⊢
        have htwo := h.twoLeast ha hb
        have hmem : ∀ e, e ∈ a :: b :: q₂ → e ∈ q := fun e he =>
          (extractMin_twice ha hb).mem_iff.mpr he
        split
        next hover =>
          refine fun _ => ⟨fun i hi hi' => absurd hi' (by simpa using hi), by simp; omega,
            Nat.lt_of_lt_of_le hover (h.sum_two ha hb), a.idx, b.idx, htwo, ?_⟩
          rw [h.weight a (hmem a (by simp)), h.weight b (hmem b (by simp))]
          exact hover
        next hfit =>
          have hstep := fun hnode => h.step ha hb rfl (Nat.not_lt.mp hfit) (by omega) hnode
          have hnext := fun hM => ih (n := n + 1)
            (q := ⟨BitVec.ofNat 32 (a.weight.toNat + b.weight.toNat), n⟩ :: q₂)
            (by simp; omega) (by simp) (by simp; omega) hM
          revert hnext
          cases mergeLoop fuel (n + 1)
            (⟨BitVec.ofNat 32 (a.weight.toNat + b.weight.toNat), n⟩ :: q₂) with
          | tree more =>
            intro hnext hs
            obtain ⟨hnode, hs⟩ := storesFrom_cons hs
            obtain ⟨hat, hM⟩ := hstep hnode
            obtain ⟨hall, hmore, e, he⟩ := hnext hM hs
            rw [List.singleton_append, List.length_cons, ← Nat.add_assoc, Nat.add_right_comm]
            rw [List.length_cons] at hmore
            exact ⟨forall_ge_of_succ hat hall, by omega, e, he⟩
          | overflow more =>
            intro hnext hs
            obtain ⟨hnode, hs⟩ := storesFrom_cons hs
            obtain ⟨hat, hM⟩ := hstep hnode
            obtain ⟨hall, hmore, hmax, hlr⟩ := hnext hM hs
            rw [List.singleton_append, List.length_cons, ← Nat.add_assoc, Nat.add_right_comm]
            rw [List.length_cons] at hmore
            exact ⟨forall_ge_of_succ hat hall, by omega, hmax, hlr⟩

end Sys2Proof.Machine
end

section
/-!
PROOF. What BUILD ends with: the store of a finished tree, or of one that has grown too heavy
(41_tree_builder R120 to R127).
-/

namespace Sys2Proof.Machine

/-! ### The store written -/

theorem storesFrom_storeNodes {nodes : List Node} (h : nodes.length ≤ 511) (old : Vector Node 511) :
    storesFrom (storeNodes nodes old) 0 nodes := fun i hi => by
  rw [Nat.zero_add, nodeAt_storeNodes _ _ (by omega), if_pos hi, List.getElem?_eq_getElem hi]
  rfl

theorem storesFrom_append {node : Vector Node 511} {n : Nat} {xs ys : List Node}
    (h : storesFrom node n (xs ++ ys)) : storesFrom node n xs ∧ storesFrom node (n + xs.length) ys := by
  induction xs generalizing n with
  | nil => exact ⟨fun i hi => absurd hi (Nat.not_lt_zero i), h⟩
  | cons x xs ih =>
    obtain ⟨hx, h⟩ := storesFrom_cons h
    obtain ⟨hxs, hys⟩ := ih h
    refine ⟨fun i hi => ?_, by rwa [List.length_cons, ← Nat.add_assoc, Nat.add_right_comm]⟩
    cases i with
    | zero => simp [hx]
    | succ i =>
      have := hxs i (by simpa using hi)
      rwa [List.getElem?_cons_succ, Nat.add_comm i, ← Nat.add_assoc]

/-! ### The loop's start -/

section
variable {freq : Vector FreqEntry 256} {node : Vector Node 511}

theorem startsWithLeaves_of_storesFrom (h : storesFrom node 0 (leavesFrom 0 freq.toList)) :
    startsWithLeaves freq node := fun k hk => by
  rw [leavesFrom_eq] at h
  have := h k (by simpa using hk)
  rw [List.getElem?_map, List.getElem?_eq_getElem hk, Nat.zero_add] at this
  exact ⟨_, List.getElem?_eq_getElem hk, (Option.some.inj this).symm⟩

theorem isChild_eq_false_of_startsWithLeaves (h : startsWithLeaves freq node) {k : Nat}
    (hk : k < (presentSymbols freq).length) (j : Nat) : isChild node k j = false := by
  obtain ⟨sym, -, hnode⟩ := h k hk
  exact isChild_leaf hnode

/-- At the loop's start the queue holds every leaf (R120). -/
theorem merging_start (h : startsWithLeaves freq node) :
    Merging node (presentSymbols freq).length (totalWeight freq)
      (queueFrom 0 (leavesFrom 0 freq.toList)) := by
  have hlen : (leavesFrom 0 freq.toList).length = (presentSymbols freq).length := by
    rw [leavesFrom_eq, List.length_map]
  refine ⟨?nodup, fun j => ?mem, fun e he => ?weight, ?total, fun k hk j hj => ?below⟩
  case nodup => rw [map_idx_queueFrom]; exact List.nodup_range'
  case mem =>
    rw [map_idx_queueFrom, List.mem_range'_1, hlen]
    exact ⟨fun hj => ⟨by omega, fun k hk => isChild_eq_false_of_startsWithLeaves h hk j⟩,
      fun hj => ⟨Nat.zero_le _, by have := hj.1; omega⟩⟩
  case weight =>
    obtain ⟨k, x, hidx, hx, hw⟩ := mem_queueFrom he
    rw [leavesFrom_eq, List.getElem?_map, Option.map_eq_some_iff] at hx
    obtain ⟨sym, hsym, rfl⟩ := hx
    obtain ⟨sym', hsym', hnode⟩ := h k (List.getElem?_eq_some_iff.mp hsym).1
    rw [hsym] at hsym'
    cases hsym'
    rw [hidx, Nat.zero_add, weightAt, hnode, hw, leafOf]
  case total =>
    have := congrArg (List.map BitVec.toNat) (map_weight_queueFrom 0 (leavesFrom 0 freq.toList))
    rw [List.map_map, leavesFrom_eq, List.map_map, List.map_map] at this
    rw [← sum_present, leavesFrom_eq]
    exact congrArg List.sum this
  case below =>
    rw [isChild_eq_false_of_startsWithLeaves h hk j] at hj
    cases hj

/-! ### The two ends -/

/-- The store of a BUILD without error: the leaves, then merges until the queue holds one node. -/
structure Built (freq : Vector FreqEntry 256) (node : Vector Node 511) : Prop where
  pos : 1 ≤ (presentSymbols freq).length
  leaves : startsWithLeaves freq node
  merged : ∀ i, (presentSymbols freq).length ≤ i → i < 2 * (presentSymbols freq).length - 1 →
    mergedAt node i
  ends : ∃ e, Merging node (2 * (presentSymbols freq).length - 1) (totalWeight freq) [e]

/-- The store of a BUILD that is WEIGHT_OVERFLOW when it makes node k (R124). -/
structure Overflowed (freq : Vector FreqEntry 256) (node : Vector Node 511) (k : Nat) : Prop where
  range : (presentSymbols freq).length ≤ k ∧ k ≤ 510
  leaves : startsWithLeaves freq node
  merged : ∀ i, (presentSymbols freq).length ≤ i → i < k → mergedAt node i
  heavy : Config.maxWeight < totalWeight freq
  least : ∃ l r, twoLeast node k l r ∧ Config.maxWeight < weightAt node l + weightAt node r

/-- BUILD's end with a tree (R126). -/
def buildResults (freq : Vector FreqEntry 256) (node : Vector Node 511) (s : State) : State :=
  { s with
    node := node, numNodes := BitVec.ofNat 9 (2 * (presentSymbols freq).length - 1), treeOk := true }

theorem mergeLeaves_cases (hpos : 1 ≤ (presentSymbols freq).length) (old : Vector Node 511) :
    (∃ nodes, mergeLeaves (leavesFrom 0 freq.toList) = .tree nodes ∧
      nodes.length = 2 * (presentSymbols freq).length - 1 ∧ Built freq (storeNodes nodes old)) ∨
    (∃ nodes, mergeLeaves (leavesFrom 0 freq.toList) = .overflow nodes ∧
      Overflowed freq (storeNodes nodes old) nodes.length) := by
  have hle := length_presentSymbols_le freq
  have hlen : (leavesFrom 0 freq.toList).length = (presentSymbols freq).length := by
    rw [leavesFrom_eq, List.length_map]
  have hq : (queueFrom 0 (leavesFrom 0 freq.toList)).length = (presentSymbols freq).length := by
    rw [← hlen, ← List.length_map (f := QEntry.idx), map_idx_queueFrom, List.length_range']
  have hne : queueFrom 0 (leavesFrom 0 freq.toList) ≠ [] :=
    List.ne_nil_of_length_pos (by omega)
  have hends := fun node (h : startsWithLeaves freq node) =>
    mergeLoop_ends (fuel := (presentSymbols freq).length) (by omega) hne (by omega) (merging_start h)
  have hstore : ∀ more : List Node, more.length + 1 ≤ (presentSymbols freq).length →
      startsWithLeaves freq (storeNodes (leavesFrom 0 freq.toList ++ more) old) ∧
        storesFrom (storeNodes (leavesFrom 0 freq.toList ++ more) old)
          (presentSymbols freq).length more := fun more hmore => by
    have hall : (leavesFrom 0 freq.toList ++ more).length ≤ 511 := by
      rw [List.length_append]; omega
    obtain ⟨hleaves, hmade⟩ := storesFrom_append (storesFrom_storeNodes hall old)
    rw [hlen, Nat.zero_add] at hmade
    exact ⟨startsWithLeaves_of_storesFrom hleaves, hmade⟩
  unfold mergeLeaves
  rw [hlen]
  rcases mergeLoop_length (presentSymbols freq).length (fuel := (presentSymbols freq).length)
    (by omega) hne with ⟨more, heq, hmore⟩ | ⟨more, heq, hmore⟩ <;> rw [heq] at hends ⊢ <;>
    rw [hq] at hmore
  · obtain ⟨hstart, hmade⟩ := hstore more (by omega)
    obtain ⟨hmerged, -, hroot⟩ := hends _ hstart hmade
    rw [show (presentSymbols freq).length + more.length = 2 * (presentSymbols freq).length - 1 by
      omega] at hmerged hroot
    exact .inl ⟨_, rfl, by rw [List.length_append]; omega, hpos, hstart, hmerged, hroot⟩
  · obtain ⟨hstart, hmade⟩ := hstore more (by omega)
    obtain ⟨hmerged, -, hheavy, hleast⟩ := hends _ hstart hmade
    refine .inr ⟨_, rfl, ?_⟩
    rw [List.length_append, hlen]
    exact ⟨by omega, hstart, hmerged, hheavy, hleast⟩

theorem buildFrom_of_tree {leaves nodes : List Node} {s : State} (hne : leaves ≠ [])
    (h : mergeLeaves leaves = .tree nodes) :
    buildFrom leaves s = .ok () { s with
      node := storeNodes nodes s.node, numNodes := BitVec.ofNat 9 nodes.length, treeOk := true } := by
  cases leaves with
  | nil => exact absurd rfl hne
  | cons => simp only [buildFrom, h]

theorem buildFrom_of_overflow {leaves nodes : List Node} {s : State} (hne : leaves ≠ [])
    (h : mergeLeaves leaves = .overflow nodes) :
    buildFrom leaves s = .raise .weightOverflow (BitVec.ofNat 32 nodes.length)
      { s with node := storeNodes nodes s.node, numNodes := 0#9 } := by
  cases leaves with
  | nil => exact absurd rfl hne
  | cons => simp only [buildFrom, h]

/-- What BUILD's body can do. -/
theorem buildBody_cases (s : State) :
    (∃ k, firstUnwritten 0 s.freq.toList = some k ∧ buildBody s = .fault (.unwrittenFreq k)) ∨
    (allWritten s.freq ∧ presentSymbols s.freq = [] ∧
      buildBody s = .raise .emptyInput 0#32 { buildStart s with numNodes := 0#9 }) ∨
    (∃ node k, allWritten s.freq ∧ Overflowed s.freq node k ∧
      buildBody s = .raise .weightOverflow (BitVec.ofNat 32 k)
        { buildStart s with node := node, numNodes := 0#9 }) ∨
    (∃ node, allWritten s.freq ∧ Built s.freq node ∧
      buildBody s = .ok () (buildResults s.freq node (buildStart s))) := by
  unfold buildBody
  cases hf : firstUnwritten 0 s.freq.toList with
  | some k => exact .inl ⟨k, rfl, rfl⟩
  | none =>
    have hall := firstUnwritten_eq_none_iff.mp hf
    refine .inr ?_
    cases hp : presentSymbols s.freq with
    | nil => exact .inl ⟨hall, rfl, by rw [leavesFrom_eq, hp]; rfl⟩
    | cons x xs =>
      refine .inr ?_
      have hpos : 1 ≤ (presentSymbols s.freq).length := by simp [hp]
      have hne : leavesFrom 0 s.freq.toList ≠ [] := by rw [leavesFrom_eq, hp]; simp
      rcases mergeLeaves_cases hpos s.node with ⟨nodes, heq, hlen, hbuilt⟩ | ⟨nodes, heq, hover⟩
      · refine .inr ⟨_, hall, hbuilt, ?_⟩
        simp only [buildFrom_of_tree hne heq, hlen]
        rfl
      · exact .inl ⟨_, _, hall, hover, buildFrom_of_overflow hne heq⟩

end

/-! ### A finished tree -/

theorem weightAt_internal {node : Vector Node 511} {i : Nat} {w : Word} {l r : BitVec 9}
    (h : nodeAt node i = .internal w l r) : weightAt node i = w.toNat := by
  rw [weightAt, h, Node.weight]

theorem twoLeast.left_le_right {node : Vector Node 511} {i l r : Nat} (h : twoLeast node i l r) :
    weightAt node l ≤ weightAt node r := by
  have := h.2.2.1
  rw [keyLt] at this
  omega

theorem twoLeast.left_ne_right {node : Vector Node 511} {i l r : Nat} (h : twoLeast node i l r) :
    l ≠ r := by
  rintro rfl
  have := h.2.2.1
  rw [keyLt] at this
  omega

namespace Built

variable {freq : Vector FreqEntry 256} {node : Vector Node 511} (h : Built freq node)

include h

theorem node_cases {i : Nat} (hi : i < 2 * (presentSymbols freq).length - 1) :
    (∃ sym, (presentSymbols freq)[i]? = some sym ∧ nodeAt node i = leafOf freq sym) ∨
      ((presentSymbols freq).length ≤ i ∧ mergedAt node i) := by
  by_cases hlt : i < (presentSymbols freq).length
  · exact .inl (h.leaves i hlt)
  · exact .inr ⟨Nat.not_lt.mp hlt, h.merged i (Nat.not_lt.mp hlt) hi⟩

theorem mergedAt_of_internal {i : Nat} {w : Word} {l r : BitVec 9}
    (hi : i < 2 * (presentSymbols freq).length - 1) (hnode : nodeAt node i = .internal w l r) :
    (presentSymbols freq).length ≤ i ∧ twoLeast node i l.toNat r.toNat ∧
      w.toNat = weightAt node l.toNat + weightAt node r.toNat := by
  rcases h.node_cases hi with ⟨sym, -, hleaf⟩ | ⟨hle, w', l', r', hnode', htwo, hw⟩
  · rw [hnode] at hleaf; cases hleaf
  · rw [hnode] at hnode'
    cases hnode'
    exact ⟨hle, htwo, hw⟩

theorem leaf_symbol {i : Nat} {w : Word} {sym : Byte}
    (hi : i < 2 * (presentSymbols freq).length - 1) (hnode : nodeAt node i = .leaf w sym) :
    (presentSymbols freq)[i]? = some sym := by
  rcases h.node_cases hi with ⟨sym', hsym, hleaf⟩ | ⟨-, w', l', r', hnode', -, -⟩
  · rw [hnode, leafOf] at hleaf
    cases hleaf
    exact hsym
  · rw [hnode] at hnode'; cases hnode'

/-- The symbols of the leaves are those present (R121). -/
theorem mem_presentSymbols_iff {sym : Byte} : sym ∈ presentSymbols freq ↔
    ∃ i w, i < 2 * (presentSymbols freq).length - 1 ∧ nodeAt node i = .leaf w sym := by
  constructor
  · intro hmem
    obtain ⟨i, hi, rfl⟩ := List.getElem_of_mem hmem
    obtain ⟨sym, hsym, hnode⟩ := h.leaves i hi
    rw [List.getElem?_eq_getElem hi] at hsym
    cases hsym
    exact ⟨i, _, by omega, hnode⟩
  · rintro ⟨i, w, hi, hnode⟩
    exact List.mem_of_getElem? (h.leaf_symbol hi hnode)

theorem leaf_unique {i k : Nat} {w w' : Word} {sym : Byte}
    (hi : i < 2 * (presentSymbols freq).length - 1) (hk : k < 2 * (presentSymbols freq).length - 1)
    (hnode : nodeAt node i = .leaf w sym) (hnode' : nodeAt node k = .leaf w' sym) : i = k := by
  have hs := h.leaf_symbol hi hnode
  exact (List.getElem?_inj (List.getElem?_eq_some_iff.mp hs).1 (nodup_presentSymbols freq)).mp
    (hs.trans (h.leaf_symbol hk hnode').symm)

theorem below {i j : Nat} (hi : i < 2 * (presentSymbols freq).length - 1)
    (hchild : isChild node i j = true) : j < i := by
  obtain ⟨e, he⟩ := h.ends
  exact he.below i hi j hchild

/-- The root alone is nobody's child. -/
theorem inQueue_iff {j : Nat} : inQueue node (2 * (presentSymbols freq).length - 1) j ↔
    j = 2 * (presentSymbols freq).length - 2 := by
  obtain ⟨e, he⟩ := h.ends
  have hpos := h.pos
  have hroot : inQueue node (2 * (presentSymbols freq).length - 1)
      (2 * (presentSymbols freq).length - 2) := by
    refine ⟨by omega, fun k hk => ?_⟩
    rw [← Bool.not_eq_true]
    intro hc
    have := h.below hk hc
    omega
  have hidx := (he.mem _).mpr hroot
  rw [List.map_singleton, List.mem_singleton] at hidx
  rw [← he.mem, List.map_singleton, List.mem_singleton, hidx]

theorem weightAt_root :
    weightAt node (2 * (presentSymbols freq).length - 2) = totalWeight freq := by
  obtain ⟨e, he⟩ := h.ends
  have hidx := h.inQueue_iff.mp ((he.mem e.idx).mp (by simp))
  have htotal := he.total
  rw [List.map_singleton, List.sum_singleton] at htotal
  rw [← hidx, he.weight e (by simp), htotal]

theorem totalWeight_le : totalWeight freq ≤ Config.maxWeight := by
  rw [← h.weightAt_root]
  exact Nat.le_pred_of_lt (nodeAt node _).weight.isLt

theorem exists_parent {j : Nat} (hj : j < 2 * (presentSymbols freq).length - 2) :
    ∃ i, i < 2 * (presentSymbols freq).length - 1 ∧ isChild node i j = true := by
  by_contra hno
  have hq : inQueue node (2 * (presentSymbols freq).length - 1) j :=
    ⟨by omega, fun k hk => by
      rw [← Bool.not_eq_true]; exact fun hc => hno ⟨k, hk, hc⟩⟩
  have := h.inQueue_iff.mp hq
  omega

theorem parent_not_lt {i k j : Nat} (hk : k < 2 * (presentSymbols freq).length - 1) (hik : i < k)
    (hi : isChild node i j = true) : isChild node k j = false := by
  rcases h.node_cases hk with ⟨sym, -, hleaf⟩ | ⟨-, w, l, r, hnode, ⟨hl, hr, -, -⟩, -⟩
  · exact isChild_leaf hleaf
  · rw [← Bool.not_eq_true, isChild_internal hnode]
    rintro (rfl | rfl)
    · rw [hl.2 i hik] at hi; cases hi
    · rw [hr.2 i hik] at hi; cases hi

theorem parent_unique {i k j : Nat} (hi : i < 2 * (presentSymbols freq).length - 1)
    (hk : k < 2 * (presentSymbols freq).length - 1) (hic : isChild node i j = true)
    (hkc : isChild node k j = true) : k = i := by
  rcases Nat.lt_trichotomy i k with hlt | heq | hlt
  · rw [h.parent_not_lt hk hlt hic] at hkc; cases hkc
  · exact heq.symm
  · rw [h.parent_not_lt hi hlt hkc] at hic; cases hic

/-- The larger of two siblings weighs at most as much as the smaller of later siblings (R127). -/
theorem right_le_left {i k : Nat} {w w' : Word} {l r l' r' : BitVec 9}
    (hi : nodeAt node i = .internal w l r) (hk : nodeAt node k = .internal w' l' r') (hik : i < k)
    (hlt : k < 2 * (presentSymbols freq).length - 1) :
    weightAt node r.toNat ≤ weightAt node l'.toNat := by
  obtain ⟨hle, ⟨-, -, -, hleast⟩, hw⟩ := h.mergedAt_of_internal (by omega) hi
  induction k using Nat.strong_induction_on generalizing w' l' r' with
  | _ k ih =>
    obtain ⟨-, ⟨⟨hlk, hfree⟩, -, -, -⟩, -⟩ := h.mergedAt_of_internal hlt hk
    rcases Nat.lt_trichotomy l'.toNat i with hli | hli | hli
    · have hnot := hfree i hik
      rw [← Bool.not_eq_true, isChild_internal hi, not_or] at hnot
      have hkey := hleast l'.toNat ⟨hli, fun x hx => hfree x (by omega)⟩ hnot.1 hnot.2
      rw [keyLt] at hkey
      omega
    · rw [hli, weightAt_internal hi, hw]
      omega
    · have hmerged := h.merged l'.toNat (by omega) (by omega)
      obtain ⟨w₂, l₂, r₂, hnode, -, hw₂⟩ := hmerged
      have := ih l'.toNat hlk hnode hli (by omega)
      rw [weightAt_internal hnode, hw₂]
      omega

end Built

end Sys2Proof.Machine
end

section
/-!
PROOF. The obligations on BUILD (41_tree_builder R120 to R127).
-/

namespace Sys2Proof.Machine

/-! ### What stops a BUILD -/

theorem allWritten_iff {freq : Vector FreqEntry 256} :
    allWritten freq ↔ ∀ sym, (freqAt freq sym).written = true := by
  simp [allWritten, freq_toList]

/-- Settles O22: the first unwritten entry is the one whose predecessors are all written. -/
theorem buildFaultsOnUnwrittenFreq : Obligations.BuildFaultsOnUnwrittenFreq := by
  intro s sym hsym hbefore
  have hnot : ¬ allWritten s.freq := fun hall => by
    rw [allWritten_iff.mp hall sym] at hsym; cases hsym
  rcases buildBody_cases (consumeHenc s) with ⟨k, hk, hbody⟩ | ⟨hall, -⟩ | ⟨_, _, hall, -⟩ |
    ⟨_, hall, -⟩
  · obtain ⟨i, f, rfl, hi, hf, hprev⟩ := firstUnwritten_eq_some hk
    rw [consumeHenc_freq] at hi hprev
    have hlt : i < 256 := by simpa using (List.getElem?_eq_some_iff.mp hi).1
    rw [getElem?_freq_toList _ hlt] at hi
    have hsame : i = sym.toNat := by
      rcases Nat.lt_trichotomy i sym.toNat with hless | heq | hmore
      · have := hbefore (BitVec.ofNat 8 i) (by rw [BitVec.toNat_ofNat]; omega)
        rw [Option.some.inj hi, hf] at this
        cases this
      · exact heq
      · have := hprev sym.toNat _ hmore (getElem?_freq_toList _ sym.isLt)
        rw [BitVec.ofNat_toNat, BitVec.setWidth_eq, hsym] at this
        cases this
    show finish (buildBody (consumeHenc s)) = _
    rw [hbody, Nat.zero_add, hsame]
    rfl
  · exact absurd hall hnot
  · exact absurd hall hnot
  · exact absurd hall hnot

/-! ### A BUILD that ends with a tree -/

theorem toNat_numNodes_buildResults (freq : Vector FreqEntry 256) (node : Vector Node 511) (s : State) :
    (buildResults freq node s).numNodes.toNat = 2 * (presentSymbols freq).length - 1 := by
  have := length_presentSymbols_le freq
  rw [buildResults, BitVec.toNat_ofNat]
  omega

theorem root_buildResults (freq : Vector FreqEntry 256) (node : Vector Node 511) (s : State) :
    (buildResults freq node s).root = 2 * (presentSymbols freq).length - 2 := by
  rw [State.root, toNat_numNodes_buildResults]
  omega

/-- A BUILD without error has stored a tree. -/
theorem exec_build_ok {s t : State} (h : exec .build s = .next t) (herr : t.err = false) :
    Built s.freq t.node ∧ t.numNodes.toNat = 2 * (presentSymbols s.freq).length - 1 ∧
      t.root = 2 * (presentSymbols s.freq).length - 2 ∧ t.treeOk = true := by
  have h : finish (buildBody (consumeHenc s)) = .next t := h
  rcases buildBody_cases (consumeHenc s) with ⟨k, -, hbody⟩ | ⟨-, -, hbody⟩ | ⟨_, _, -, -, hbody⟩ |
    ⟨node, -, hbuilt, hbody⟩ <;> rw [hbody] at h <;> cases h
  · cases herr
  · cases herr
  · exact ⟨hbuilt, toNat_numNodes_buildResults s.freq node (buildStart (consumeHenc s)),
      root_buildResults s.freq node (buildStart (consumeHenc s)), rfl⟩

/-- Settles O17: with no present symbol there is no leaf. -/
theorem emptyFrequencyTableIsEmptyInput : Obligations.EmptyFrequencyTableIsEmptyInput := by
  intro s hall hempty
  show finish (buildBody (consumeHenc s)) = _
  unfold buildBody
  rw [consumeHenc_freq, firstUnwritten_eq_none_iff.mpr hall, leavesFrom_eq, hempty]
  rfl

/-- Settles O18: a sum that fits rules the other ends out, and `Built` says the rest. -/
theorem buildCompletes : Obligations.BuildCompletes := by
  intro s hall hne hsum
  rcases buildBody_cases (consumeHenc s) with ⟨k, hk, -⟩ | ⟨-, hnil, -⟩ | ⟨_, _, -, hover, -⟩ |
    ⟨node, -, hbuilt, hbody⟩
  · rw [consumeHenc_freq, firstUnwritten_eq_none_iff.mpr hall] at hk; cases hk
  · exact absurd hnil hne
  · exact absurd hover.heavy (Nat.not_lt.mpr hsum)
  · refine ⟨complete (buildResults s.freq node (buildStart (consumeHenc s))), ?_, rfl, rfl, rfl, rfl,
      rfl, rfl, toNat_numNodes_buildResults s.freq node (buildStart (consumeHenc s)), hbuilt.leaves,
      fun i hle hi => ?_, ?_⟩
    · show finish (buildBody (consumeHenc s)) = _
      rw [hbody]
      rfl
    · have hi : i < (buildResults s.freq node (buildStart (consumeHenc s))).numNodes.toNat := hi
      rw [toNat_numNodes_buildResults] at hi
      obtain ⟨w, l, r, hnode, htwo, hw⟩ := hbuilt.merged i hle hi
      exact ⟨w, l, r, hnode, htwo.1.1, htwo.2.1.1, hw⟩
    · show weightAt node (buildResults s.freq node (buildStart (consumeHenc s))).root = _
      rw [root_buildResults]
      exact hbuilt.weightAt_root

/-- Settles O19: every internal node is a merge. -/
theorem eachMergeTakesTheTwoLeast : Obligations.EachMergeTakesTheTwoLeast := by
  intro s t hexec herr i w l r hi hnode
  obtain ⟨hbuilt, hnum, -, -⟩ := exec_build_ok hexec herr
  rw [hnum] at hi
  exact (hbuilt.mergedAt_of_internal hi hnode).2.1

/-- Settles O21: a sum too heavy rules a finished tree out, and `Overflowed` says the rest. -/
theorem heavyFrequencyTableIsWeightOverflow : Obligations.HeavyFrequencyTableIsWeightOverflow := by
  intro s hall htwo hheavy
  rcases buildBody_cases (consumeHenc s) with ⟨k, hk, -⟩ | ⟨-, hnil, -⟩ | ⟨node, k, -, hover, hbody⟩ |
    ⟨node, -, hbuilt, -⟩
  · rw [consumeHenc_freq, firstUnwritten_eq_none_iff.mpr hall] at hk; cases hk
  · rw [consumeHenc_freq] at hnil
    simp [hnil] at htwo
  · have hk : (BitVec.ofNat 32 k).toNat = k := by
      have := hover.range
      rw [BitVec.toNat_ofNat]
      omega
    have hexec : exec .build s = .next (raiseError .weightOverflow (BitVec.ofNat 32 k)
        { buildStart (consumeHenc s) with node := node, numNodes := 0#9 }) := by
      show finish (buildBody (consumeHenc s)) = _
      rw [hbody, finish_raise]
    refine ⟨_, hexec, rfl, rfl, rfl, rfl, rfl, rfl, rfl, rfl, ?_⟩
    · rw [raiseError_errInfo, hk]
      exact ⟨hover.range.1, hover.range.2, node, hover.leaves, hover.merged, hover.least⟩
  · exact absurd hbuilt.totalWeight_le (Nat.not_le.mpr hheavy)

/-- Settles O20: the facts of `Built`. -/
theorem successfulBuildIsATree : Obligations.SuccessfulBuildIsATree := by
  intro s t hexec herr
  obtain ⟨hbuilt, hnum, hroot, -⟩ := exec_build_ok hexec herr
  rw [hnum, hroot]
  have hpos := hbuilt.pos
  refine ⟨fun j hj => ?_, fun i hi => ?_, fun i w l r hi hnode => ?_, hbuilt.weightAt_root,
    fun i k w l r w' l' r' hik hk hi hk' => ?_, fun sym => ?_, fun sym i k w w' hi hk hi' hk' => ?_⟩
  · obtain ⟨i, hi, hc⟩ := hbuilt.exists_parent (j := j) (by omega)
    exact ⟨i, hi, hc, fun k hk hkc => hbuilt.parent_unique hi hk hc hkc⟩
  · exact (hbuilt.inQueue_iff.mpr rfl).2 i hi
  · obtain ⟨-, htwo, hw⟩ := hbuilt.mergedAt_of_internal hi hnode
    exact ⟨fun heq => htwo.left_ne_right (congrArg BitVec.toNat heq), hw⟩
  · obtain ⟨-, htwo, hw⟩ := hbuilt.mergedAt_of_internal (by omega) hi
    obtain ⟨-, htwo', hw'⟩ := hbuilt.mergedAt_of_internal hk hk'
    have h₁ := htwo.left_le_right
    have h₂ := htwo'.left_le_right
    have h₃ := hbuilt.right_le_left hi hk' hik hk
    exact ⟨by omega, h₁.trans h₃, h₃.trans h₂⟩
  · rw [← mem_presentSymbols]
    exact hbuilt.mem_presentSymbols_iff
  · exact hbuilt.leaf_unique hi hk hi' hk'

end Sys2Proof.Machine
end

section
/-!
PROOF. How a command can end, said once (40_control R104 to R112), and the frames that follow.
-/

namespace Sys2Proof.Machine

/-! ### The ends of a command -/

/-- The state at an error of command i, before its completion: a check failed, or the body raised. -/
inductive Failed : Instr → State → State → Prop where
  | check {i : Instr} {s : State}
      (h : flagOf i s = false ∨ (hasLengthCheck i = true ∧ s.bufSize.toNat < s.inLen.toNat)) :
      Failed i s (consumeHenc s)
  | build {s : State} (node : Vector Node 511) :
      Failed .build s { buildStart (consumeHenc s) with node := node, numNodes := 0#9 }
  | extract {s : State} : Failed .extract s (extractStart (consumeHenc s))
  | henc {s : State} {m : Memory}
      (h : StoredWithin s.bufSize.toNat 0 (1 + (headerSpec s).length) s.obuf m) :
      Failed .henc s { consumeHenc s with obuf := m, outLen := 0#32 }
  | pack {s : State} {m : Memory} {xs : List Byte} (hlen : xs.length ≤ s.inLen.toNat)
      (h : StoredWithin s.bufSize.toNat s.outLen.toNat
        (s.outLen.toNat + bytesFor (codesOf s.ct xs).length) s.obuf m) :
      Failed .pack s { consumeHenc s with obuf := m, outLen := 0#32 }
  | hdec {s : State} : Failed .hdec s (hdecStart (consumeHenc s))
  | decode {s : State} {m : Memory}
      (h : StoredWithin s.bufSize.toNat 0 (payloadHave s - payloadNeed s) s.obuf m) :
      Failed .decode s { consumeHenc s with obuf := m, outLen := 0#32 }

/-- The state that the body of command i leaves without error, before its completion. -/
inductive Succeeded : Instr → State → State → Prop where
  | build {s : State} {node : Vector Node 511} (h : Built s.freq node) :
      Succeeded .build s (buildResults s.freq node (buildStart (consumeHenc s)))
  | extract {s : State} {ct : Vector CtEntry 256} (htree : s.treeOk = true) (h : GoodTable ct) :
      Succeeded .extract s
        { installTable ct (extractStart (consumeHenc s)) with ctOk := true }
  | henc {s : State} {m : Memory} (hct : s.ctOk = true)
      (hfit : 1 + (headerSpec s).length ≤ s.bufSize.toNat) (hheld : holds m 0 (0x00#8 :: headerSpec s))
      (h : StoredWithin s.bufSize.toNat 0 (1 + (headerSpec s).length) s.obuf m) :
      Succeeded .henc s { consumeHenc s with
        obuf := m, outLen := BitVec.ofNat 32 (1 + (headerSpec s).length), hencOk := true }
  | pack {s : State} {m : Memory} {xs : List Byte} (hread : holds s.ibuf 0 xs)
      (hlen : s.inLen.toNat = xs.length) (hvalid : ∀ y ∈ xs, (ctAt s.ct y).valid = true)
      (hfit : (packBits (codesOf s.ct xs)).1 = [] ∨
        s.outLen.toNat + bytesFor (codesOf s.ct xs).length ≤ s.bufSize.toNat)
      (hheld : holds m s.outLen.toNat (packBits (codesOf s.ct xs)).1)
      (h : StoredWithin s.bufSize.toNat s.outLen.toNat
        (s.outLen.toNat + bytesFor (codesOf s.ct xs).length) s.obuf m) :
      Succeeded .pack s (packResults (codesOf s.ct xs)
        (s.outLen.toNat + bytesFor (codesOf s.ct xs).length) { consumeHenc s with obuf := m })
  | hdec {s : State} {ct : Vector CtEntry 256} (padByte : Byte) (p : Nat) (h : GoodTable ct) :
      Succeeded .hdec s
        (hdecResults padByte (countValid ct) p { hdecStart (consumeHenc s) with ct := ct })
  | decode {s : State} {m : Memory} {q : Nat} (hfit : q ≤ s.bufSize.toNat)
      (h : StoredWithin s.bufSize.toNat 0 q s.obuf m) (hheld : ∀ a, a < q → m.read a ≠ none) :
      Succeeded .decode s { consumeHenc s with obuf := m, outLen := BitVec.ofNat 32 q }
  | clear {s : State} : Succeeded .clear s (clearDatapath (consumeHenc s))

/-- The inputs on which a command's body faults: nobody wrote them, or NODE holds no tree. -/
inductive Stopped : Instr → State → Fault → Prop where
  | build {s : State} {k : Nat} (h : firstUnwritten 0 s.freq.toList = some k) :
      Stopped .build s (.unwrittenFreq k)
  | extract {s : State} (htree : s.treeOk = true) (h : extractTable s.node s.root = .notATree) :
      Stopped .extract s .notATree
  | input {i : Instr} {s : State} {a : Nat} (hi : hasLengthCheck i = true)
      (ha : a < s.inLen.toNat) (h : s.ibuf.read a = none) : Stopped i s (.unwrittenIbuf a)

/-- What the body of a command can do after its checks. -/
def bodyEnds (i : Instr) (s : State) : Prop :=
  (∃ u, Succeeded i s u ∧ bodyOf i (consumeHenc s) = .ok () u) ∨
  (∃ e info u, e ≠ .none ∧ Failed i s u ∧ bodyOf i (consumeHenc s) = .raise e info u) ∨
  (∃ f, Stopped i s f ∧ bodyOf i (consumeHenc s) = .fault f)

theorem bodyEnds_build (s : State) : bodyEnds .build s := by
  rcases buildBody_cases (consumeHenc s) with ⟨k, hk, h⟩ | ⟨-, -, h⟩ | ⟨node, k, -, -, h⟩ |
    ⟨node, -, hbuilt, h⟩
  · exact .inr (.inr ⟨_, .build hk, h⟩)
  · exact .inr (.inl ⟨_, _, _, by decide, .build s.node, h⟩)
  · exact .inr (.inl ⟨_, _, _, by decide, .build node, h⟩)
  · exact .inl ⟨_, .build hbuilt, h⟩

theorem bodyEnds_extract {s : State} (hflag : s.treeOk = true) : bodyEnds .extract s := by
  rcases extractBody_cases (consumeHenc s) with ⟨ct, h, hgood⟩ | ⟨info, h⟩ | ⟨hno, h⟩
  · exact .inl ⟨_, .extract hflag hgood, h⟩
  · exact .inr (.inl ⟨_, _, _, by decide, .extract, h⟩)
  · exact .inr (.inr ⟨_, .extract hflag hno, h⟩)

theorem bodyEnds_henc {s : State} (hflag : s.ctOk = true) : bodyEnds .henc s := by
  by_cases hfit : 1 + (headerSpec s).length ≤ s.bufSize.toNat
  · obtain ⟨m, h, hheld, hstored⟩ := hencBody_fits (s := consumeHenc s) hfit
    exact .inl ⟨_, .henc hflag hfit hheld hstored, h⟩
  · obtain ⟨m, h, hstored⟩ := hencBody_overflows (s := consumeHenc s) (Nat.lt_of_not_le hfit)
    exact .inr (.inl ⟨_, _, _, by decide, .henc hstored, h⟩)

theorem bodyEnds_pack (s : State) : bodyEnds .pack s := by
  rcases packBody_cases (consumeHenc s) with ⟨xs, m, hread, hlen, hvalid, hfit, hheld, hstored, h⟩ |
    ⟨xs, m, e, info, hlen, hne, hstored, h⟩ | ⟨a, ha, hnone, h⟩
  · exact .inl ⟨_, .pack hread hlen hvalid hfit hheld hstored, h⟩
  · exact .inr (.inl ⟨_, _, _, hne, .pack hlen hstored, h⟩)
  · exact .inr (.inr ⟨_, .input rfl ha hnone, h⟩)

theorem bodyEnds_hdec (s : State) : bodyEnds .hdec s := by
  rcases hdecBody_cases (consumeHenc s) with ⟨padByte, p, ct, h, hcanon, hfree, hpos⟩ |
    ⟨e, info, hne, h⟩ | ⟨a, ha, hnone, h⟩
  · exact .inl ⟨_, .hdec padByte p ⟨hcanon, hfree, hpos⟩, h⟩
  · exact .inr (.inl ⟨_, _, _, hne, .hdec, h⟩)
  · exact .inr (.inr ⟨_, .input rfl ha hnone, h⟩)

theorem bodyEnds_decode (s : State) : bodyEnds .decode s := by
  rcases decodeBody_cases (consumeHenc s) with ⟨q, m, h, hfit, hstored, hheld⟩ |
    ⟨m, e, info, h, hne, hstored⟩ | ⟨a, ha, hnone, h⟩
  · exact .inl ⟨_, .decode hfit hstored hheld, h⟩
  · exact .inr (.inl ⟨_, _, _, hne, .decode hstored, h⟩)
  · exact .inr (.inr ⟨_, .input rfl ha hnone, h⟩)

theorem bodyEnds_of_flag {i : Instr} (hi : i ≠ .nop) {s : State} (hflag : flagOf i s = true) :
    bodyEnds i s := by
  cases i with
  | nop => exact absurd rfl hi
  | build => exact bodyEnds_build s
  | extract => exact bodyEnds_extract hflag
  | henc => exact bodyEnds_henc hflag
  | pack => exact bodyEnds_pack s
  | hdec => exact bodyEnds_hdec s
  | decode => exact bodyEnds_decode s
  | clear => exact .inl ⟨_, .clear, rfl⟩

/-- How a command other than NOP ends. -/
theorem exec_ends {i : Instr} (hi : i ≠ .nop) (s : State) :
    (∃ u, Succeeded i s u ∧ exec i s = .next (complete u)) ∨
    (∃ e info u, e ≠ .none ∧ Failed i s u ∧ exec i s = .next (raiseError e info u)) ∨
    (∃ f, Stopped i s f ∧ exec i s = .fault f) := by
  rcases exec_checks_cases hi s with ⟨hflag, h⟩ | ⟨-, hlen, hcheck, h⟩ | ⟨hflag, -, h⟩
  · exact .inr (.inl ⟨_, _, _, by decide, .check (.inl hflag), h⟩)
  · exact .inr (.inl ⟨_, _, _, by decide, .check (.inr ⟨hcheck, hlen⟩), h⟩)
  · rcases bodyEnds_of_flag hi hflag with ⟨u, hu, hb⟩ | ⟨e, info, u, hne, hu, hb⟩ | ⟨f, hf, hb⟩ <;>
      rw [hb] at h
    · exact .inl ⟨u, hu, h⟩
    · exact .inr (.inl ⟨e, info, u, hne, hu, h⟩)
    · exact .inr (.inr ⟨f, hf, h⟩)

/-- How a command that answers has ended. -/
theorem exec_next_cases {i : Instr} {s t : State} (h : exec i s = .next t) :
    (i = .nop ∧ t = complete s) ∨ (∃ u, Succeeded i s u ∧ t = complete u) ∨
    (∃ e info u, e ≠ .none ∧ Failed i s u ∧ t = raiseError e info u) := by
  by_cases hi : i = .nop
  · subst hi
    cases h
    exact .inl ⟨rfl, rfl⟩
  · rcases exec_ends hi s with ⟨u, hu, hexec⟩ | ⟨e, info, u, hne, hu, hexec⟩ | ⟨f, -, hexec⟩ <;>
      rw [hexec] at h <;> cases h
    · exact .inr (.inl ⟨u, hu, rfl⟩)
    · exact .inr (.inr ⟨e, info, u, hne, hu, rfl⟩)

/-! ### What no command changes -/

/-- The fields that no command writes. -/
structure Framed (s t : State) : Prop where
  freq : t.freq = s.freq
  inLen : t.inLen = s.inLen
  irqEn : t.irqEn = s.irqEn
  ovr : t.ovr = s.ovr
  bufSize : t.bufSize = s.bufSize
  agenda : t.agenda = s.agenda
  hostRead : t.hostRead = s.hostRead
  ibuf : t.ibuf = s.ibuf

theorem Succeeded.framed {i : Instr} {s u : State} (h : Succeeded i s u) : Framed s u := by
  cases h <;> exact ⟨rfl, rfl, rfl, rfl, rfl, rfl, rfl, rfl⟩

theorem Failed.framed {i : Instr} {s u : State} (h : Failed i s u) : Framed s u := by
  cases h <;> exact ⟨rfl, rfl, rfl, rfl, rfl, rfl, rfl, rfl⟩

theorem exec_framed {i : Instr} {s t : State} (h : exec i s = .next t) : Framed s t := by
  rcases exec_next_cases h with ⟨-, rfl⟩ | ⟨u, hu, rfl⟩ | ⟨e, info, u, -, hu, rfl⟩
  · exact ⟨rfl, rfl, rfl, rfl, rfl, rfl, rfl, rfl⟩
  · obtain ⟨h₁, h₂, h₃, h₄, h₅, h₆, h₇, h₈⟩ := hu.framed
    exact ⟨h₁, h₂, h₃, h₄, h₅, h₆, h₇, h₈⟩
  · obtain ⟨h₁, h₂, h₃, h₄, h₅, h₆, h₇, h₈⟩ := hu.framed
    exact ⟨h₁, h₂, h₃, h₄, h₅, h₆, h₇, h₈⟩

/-! ### Obligations on the end of a command -/

/-- A failed check rules out the commands that have none, and those whose checks are met. -/
theorem sequencingFlags_of_check {i : Instr} {s : State}
    (h : flagOf i s = false ∨ (hasLengthCheck i = true ∧ s.bufSize.toNat < s.inLen.toNat)) :
    i ≠ .nop ∧ i ≠ .build ∧ i ≠ .clear ∧ (i = .extract → s.treeOk = false) ∧
      (i = .hdec → s.bufSize.toNat < s.inLen.toNat) := by
  cases i <;> simp_all [flagOf, hasLengthCheck]

/-- Settles O14: the flags of each end. -/
theorem sequencingFlagsFollowTheTable : Obligations.SequencingFlagsFollowTheTable := by
  intro s t i hexec
  rcases exec_next_cases hexec with ⟨rfl, rfl⟩ | ⟨u, hu, rfl⟩ | ⟨e, info, u, -, hu, rfl⟩
  · simp
  · cases hu <;> simp [buildResults, buildStart, installTable, extractStart, packResults, hdecResults,
      hdecStart, clearDatapath, clearTable, consumeHenc, *]
  · cases hu with
    | check h =>
      obtain ⟨hnop, hbuild, hclear, hextract, hhdec⟩ := sequencingFlags_of_check h
      refine ⟨fun hi => absurd hi hnop, fun _ => ?_, fun hi => absurd hi hbuild, fun hi htree => ?_,
        fun _ => ⟨rfl, rfl, rfl⟩, fun hi hle => ?_, fun hi => absurd hi hclear⟩
      · simp
      · rw [hextract hi] at htree; cases htree
      · exact absurd (hhdec hi) (Nat.not_lt.mpr hle)
    | build | extract | henc | pack | hdec | decode =>
      simp [buildStart, extractStart, hdecStart, clearTable, consumeHenc]

/-- Settles O15: `Framed` for what no command writes, and the fields of each end for the rest. -/
theorem frameOfNonStoringCommands : Obligations.FrameOfNonStoringCommands := by
  intro s t i hi hexec
  obtain ⟨hfreq, hinLen, hirq, hovr, hbuf, hagenda, hread, hibuf⟩ := exec_framed hexec
  refine ⟨⟨hfreq, hinLen, hirq, hovr, hbuf, hagenda, hread⟩, fun a => by rw [hibuf], ?_⟩
  rcases exec_next_cases hexec with ⟨rfl, rfl⟩ | ⟨u, hu, rfl⟩ | ⟨e, info, u, -, hu, rfl⟩
  · simp
  · cases hu <;> simp [buildResults, buildStart, installTable, extractStart, hdecResults,
      hdecStart, clearDatapath, clearTable, consumeHenc] at hi ⊢
  · cases hu with
    | check h =>
      obtain ⟨hnop, hbuild, -⟩ := sequencingFlags_of_check h
      simp [hnop, hbuild]
    | build | extract | henc | pack | hdec | decode =>
      simp [buildStart, extractStart, hdecStart, clearTable, consumeHenc] at hi ⊢

end Sys2Proof.Machine
end

section
/-!
PROOF. The obligations that follow from the ends of a command and from what a step can be (40_control
R106, R111, 42_code_table R144, 60_exceptions R239).
-/

namespace Sys2Proof.Machine

/-! ### Bytes stored -/

theorem length_codesOf_le {ct : Vector CtEntry 256} (h : ∀ sym, (ctAt ct sym).canonical)
    (xs : List Byte) :
    (codesOf ct xs).length ≤ 8 * xs.length := by
  induction xs with
  | nil => exact Nat.zero_le _
  | cons x xs ih =>
    have : (ctAt ct x).bits.length ≤ 8 := by
      rw [CtEntry.length_bits]
      rcases h x with ⟨-, -, hle, -⟩ | ⟨-, hzero, -⟩
      · exact hle
      · simp [hzero]
    rw [codesOf_cons, List.length_append, List.length_cons]
    omega

theorem bytesFor_codesOf_le {ct : Vector CtEntry 256} (h : ∀ sym, (ctAt ct sym).canonical)
    (xs : List Byte) : bytesFor (codesOf ct xs).length ≤ xs.length := by
  have := length_codesOf_le h xs
  rw [bytesFor]
  omega

/-- Payload bits that fit in OBUF are a number for TOTAL_BITS (R194). -/
theorem length_lt_of_packBits_fit {s : State} {bits : List Bool} (hbuf : s.bufSizeOk)
    (hfit : (packBits bits).1 = [] ∨ s.outLen.toNat + bytesFor bits.length ≤ s.bufSize.toNat) :
    bits.length < 2 ^ 32 := by
  have hmax : s.bufSize.toNat ≤ 16777216 := hbuf.2
  have hlen := length_packBits bits
  rw [bytesFor] at hlen hfit
  rcases hfit with hnil | hle
  · rw [hnil, List.length_nil] at hlen
    omega
  · omega

/-- Settles O16: the range of the stores of each end. -/
theorem frameOfStoringCommands : Obligations.FrameOfStoringCommands := by
  intro s t i hi hexec
  obtain ⟨hfreq, hinLen, hirq, hovr, hbuf, hagenda, hread, hibuf⟩ := exec_framed hexec
  refine ⟨⟨hfreq, hinLen, hirq, hovr, hbuf, hagenda, hread⟩, ?_⟩
  rcases exec_next_cases hexec with ⟨rfl, -⟩ | ⟨u, hu, rfl⟩ | ⟨e, info, u, -, hu, rfl⟩
  · simp at hi
  · cases hu with
    | build | extract | hdec | clear => simp at hi
    | henc hct hfit hheld h =>
      exact ⟨⟨rfl, rfl, rfl, rfl, rfl, rfl, rfl, rfl, rfl⟩, fun _ => ⟨rfl, rfl⟩, fun _ => rfl,
        fun _ => h.same, nofun, nofun, nofun, nofun⟩
    | @pack _ m xs hread hlen hvalid hfit hheld h =>
      refine ⟨⟨rfl, rfl, rfl, rfl, rfl, rfl, rfl, rfl, rfl⟩, fun hp => ?_, fun _ => rfl, nofun,
        fun _ _ hok a ha hout => ?_, nofun, nofun, nofun⟩
      · simp at hp
      · have hbits := length_lt_of_packBits_fit hok hfit
        have hout : a < s.outLen.toNat ∨
            s.outLen.toNat + bytesFor (BitVec.ofNat 32 (codesOf s.ct xs).length).toNat ≤ a := hout
        rw [BitVec.toNat_ofNat, Nat.mod_eq_of_lt hbits] at hout
        exact (Memory.read_write_other m _ ha).trans (h.same a hout)
    | @decode _ m q hfit h hheld =>
      refine ⟨⟨rfl, rfl, rfl, rfl, rfl, rfl, rfl, rfl, rfl⟩, fun _ => ⟨rfl, rfl⟩, fun _ => rfl, nofun,
        nofun, nofun, fun _ _ => ?_, nofun⟩
      have hq : q < 2 ^ 32 := Nat.lt_of_le_of_lt hfit s.bufSize.isLt
      show sameOutside s.obuf m 0 (BitVec.ofNat 32 q).toNat
      rw [BitVec.toNat_ofNat, Nat.mod_eq_of_lt hq]
      exact h.same
  · cases hu with
    | build | extract | hdec => simp at hi
    | check h =>
      exact ⟨⟨rfl, rfl, rfl, rfl, rfl, rfl, rfl, rfl, rfl⟩, fun _ => ⟨rfl, rfl⟩, fun _ => rfl,
        fun _ _ _ => rfl, nofun, fun _ _ _ _ _ => rfl, nofun, fun _ _ _ _ => rfl⟩
    | henc h =>
      exact ⟨⟨rfl, rfl, rfl, rfl, rfl, rfl, rfl, rfl, rfl⟩, fun _ => ⟨rfl, rfl⟩, fun _ => rfl,
        fun _ => h.same, nofun, nofun, nofun, nofun⟩
    | @pack _ m xs hlen h =>
      refine ⟨⟨rfl, rfl, rfl, rfl, rfl, rfl, rfl, rfl, rfl⟩, fun _ => ⟨rfl, rfl⟩, fun _ => rfl, nofun,
        nofun, fun _ _ htable => ?_, nofun, nofun⟩
      have hle := bytesFor_codesOf_le (State.tableInv_iff.mp htable).1 xs
      exact (h.mono le_rfl (by omega)).same
    | decode h =>
      exact ⟨⟨rfl, rfl, rfl, rfl, rfl, rfl, rfl, rfl, rfl⟩, fun _ => ⟨rfl, rfl⟩, fun _ => rfl, nofun,
        nofun, nofun, nofun, fun _ _ => h.same⟩

/-! ### The engine's completion -/

/-- Settles O9: an engine's step with a word pending is a completion. -/
theorem completionReportsItsOutcome : Obligations.CompletionReportsItsOutcome := by
  refine ⟨fun s => by simp [State.irq], fun s t w rest hw hturn hstep => ?_⟩
  rw [step_of_engineTurn hturn] at hstep
  rcases engineStep_cases hstep with ⟨hidle, -⟩ | ⟨i, -, hexec⟩ | ⟨w, -, rfl⟩
  · have hidle : s.pending = none := hidle
    rw [hw] at hidle
    cases hidle
  · have hirq : t.irqEn = s.irqEn := (exec_framed hexec).irqEn
    have hagenda : t.agenda = rest := (exec_framed hexec).agenda
    rcases exec_next_cases hexec with ⟨-, rfl⟩ | ⟨u, -, rfl⟩ | ⟨e, info, u, hne, -, rfl⟩
    · exact ⟨rfl, rfl, by simp [State.irq], rfl, .inl ⟨rfl, rfl, rfl⟩⟩
    · exact ⟨rfl, rfl, by rw [← hirq]; simp [State.irq], hagenda, .inl ⟨rfl, rfl, rfl⟩⟩
    · exact ⟨rfl, rfl, by rw [← hirq]; simp [State.irq], hagenda, .inr ⟨rfl, hne⟩⟩
  · exact ⟨rfl, rfl, by simp [State.irq], rfl, .inr ⟨rfl, ErrCode.noConfusion⟩⟩

/-- Settles O10: a tree leaves only the unwritten inputs to stop on. -/
theorem engineStopsOnlyOnUnwrittenInput : Obligations.EngineStopsOnlyOnUnwrittenInput := by
  intro s w rest hinv hw hturn
  rw [step_of_engineTurn hturn]
  have hw : { s with agenda := rest }.pending = some w := hw
  cases hd : decode w with
  | error e => exact .inl ⟨_, engineStep_of_illegal hw hd⟩
  | ok i =>
    rw [engineStep_of_command hw hd]
    rw [decode_eq_ok_iff] at hd
    subst hd
    by_cases hi : i = .nop
    · subst hi
      exact .inl ⟨_, rfl⟩
    rcases exec_ends hi { s with agenda := rest } with ⟨u, -, hexec⟩ | ⟨e, info, u, -, -, hexec⟩ |
      ⟨f, hf, hexec⟩
    · exact .inl ⟨_, hexec⟩
    · exact .inl ⟨_, hexec⟩
    · refine .inr ?_
      cases hf with
      | build h =>
        obtain ⟨k, f, rfl, hk, hnot, -⟩ := firstUnwritten_eq_some h
        have hlt : k < 256 := by simpa using (List.getElem?_eq_some_iff.mp hk).1
        rw [Nat.zero_add] at hexec
        rw [getElem?_freq_toList _ hlt] at hk
        exact .inl ⟨rfl, k, hlt, hexec, by rw [← hnot, ← Option.some.inj hk]⟩
      | extract htree h => exact absurd h (extractTable_ne_notATree_of_descendInv hinv htree)
      | @input _ _ a hcheck ha h =>
        refine .inr ⟨?_, a, ha, h, hexec⟩
        cases i with
        | nop | build | extract | henc | clear => cases hcheck
        | pack => exact .inl rfl
        | hdec => exact .inr (.inl rfl)
        | decode => exact .inr (.inr rfl)

/-- Settles O53: of the accesses only the STATUS write writes OVR. -/
theorem ovrIsSticky : Obligations.OvrIsSticky := by
  intro s t hstep hset hclear
  rcases step_cases hstep with ⟨rest, hreset, -⟩ | ⟨op, rest, hop, hhost⟩ | ⟨rest, -, hengine⟩
  · exact .inl ⟨rest, hreset⟩
  · have hset : { s with agenda := rest }.ovr = true := hset
    rcases hostAccess_cases hhost with ⟨_, _, rfl⟩ | ⟨data, -, rfl⟩ | ⟨data, rfl, rfl⟩ | ⟨_, rfl⟩ |
      ⟨_, rfl⟩ | ⟨_, _, rfl⟩ | ⟨_, _, -, rfl⟩
    case inr.inl =>
      rw [writeCmd] at hclear
      split at hclear
      · cases hclear
      · cases hclear.symm.trans hset
    case inr.inr.inl =>
      have hset : s.ovr = true := hset
      simp only [State.writeStatus, hset, Bool.true_and, Bool.not_eq_false'] at hclear
      exact .inr ⟨data, rest, hop, hclear⟩
    all_goals cases hclear.symm.trans hset
  · have : t.ovr = s.ovr := by
      rcases engineStep_cases hengine with ⟨-, rfl⟩ | ⟨i, -, hexec⟩ | ⟨w, -, rfl⟩
      · rfl
      · exact (exec_framed hexec).ovr
      · rfl
    rw [hclear, hset] at this
    cases this

end Sys2Proof.Machine
end

section
/-!
PROOF. What every step keeps: the invariants on the buffers, the status fields, the table and the tree.
-/

namespace Sys2Proof.Machine

/-! ### Steps that write no result -/

/-- What a step leaves of the results and of the memory when it is no command's and no reset. -/
structure Quiet (s t : State) : Prop where
  treeOk : t.treeOk = s.treeOk
  ctOk : t.ctOk = s.ctOk
  hencOk : t.hencOk = s.hencOk
  hdrOk : t.hdrOk = s.hdrOk
  outLen : t.outLen = s.outLen
  numCodes : t.numCodes = s.numCodes
  maxLen : t.maxLen = s.maxLen
  numNodes : t.numNodes = s.numNodes
  bufSize : t.bufSize = s.bufSize
  ct : t.ct = s.ct
  node : t.node = s.node
  obuf : t.obuf = s.obuf
  ibuf : t.ibuf = s.ibuf ∨ ∃ a v, a < s.bufSize.toNat ∧ t.ibuf = s.ibuf.write a v

theorem quiet_of_hostAccess {op : HostOp} {s t : State} (h : hostAccess op s = .next t) :
    Quiet s t := by
  rcases hostAccess_cases h with ⟨_, _, rfl⟩ | ⟨data, -, rfl⟩ | ⟨_, -, rfl⟩ | ⟨_, rfl⟩ | ⟨_, rfl⟩ |
    ⟨_, _, rfl⟩ | ⟨a, v, ha, rfl⟩
  case inr.inl =>
    rw [writeCmd]
    split <;> exact ⟨rfl, rfl, rfl, rfl, rfl, rfl, rfl, rfl, rfl, rfl, rfl, rfl, .inl rfl⟩
  case inr.inr.inr.inr.inr.inr =>
    exact ⟨rfl, rfl, rfl, rfl, rfl, rfl, rfl, rfl, rfl, rfl, rfl, rfl, .inr ⟨a, v, ha, rfl⟩⟩
  all_goals exact ⟨rfl, rfl, rfl, rfl, rfl, rfl, rfl, rfl, rfl, rfl, rfl, rfl, .inl rfl⟩

/-- A step that answers is a reset, writes no result, or is a command's. -/
theorem step_ends {s t : State} (h : step s = .next t) :
    (∃ rest, s.agenda = .reset :: rest ∧ t = resetBlock { s with agenda := rest }) ∨ Quiet s t ∨
    (∃ rest i, engineTurn s rest ∧ s.pending = some (encode i) ∧
      exec i { s with agenda := rest } = .next t) := by
  rcases step_cases h with hreset | ⟨op, rest, -, hhost⟩ | ⟨rest, hturn, hengine⟩
  · exact .inl hreset
  · obtain ⟨h₁, h₂, h₃, h₄, h₅, h₆, h₇, h₈, h₉, h₁₀, h₁₁, h₁₂, h₁₃⟩ := quiet_of_hostAccess hhost
    exact .inr (.inl ⟨h₁, h₂, h₃, h₄, h₅, h₆, h₇, h₈, h₉, h₁₀, h₁₁, h₁₂, h₁₃⟩)
  · rcases engineStep_cases hengine with ⟨-, rfl⟩ | ⟨i, hi, hexec⟩ | ⟨w, -, rfl⟩
    · exact .inr (.inl ⟨rfl, rfl, rfl, rfl, rfl, rfl, rfl, rfl, rfl, rfl, rfl, rfl, .inl rfl⟩)
    · exact .inr (.inr ⟨rest, i, hturn, hi, hexec⟩)
    · exact .inr (.inl ⟨rfl, rfl, rfl, rfl, rfl, rfl, rfl, rfl, rfl, rfl, rfl, rfl, .inl rfl⟩)

/-! ### Reset -/

theorem treeInv_of_noTree {s : State} (htree : s.treeOk = false) (hnum : s.numNodes = 0#9) :
    s.treeInv := by
  have hzero : s.numNodes.toNat = 0 := by rw [hnum]; rfl
  refine ⟨⟨?_, ?_, ?_⟩, ?_, ?_⟩ <;> rw [hzero]
  · simp [htree]
  · exact Nat.zero_le _
  · exact fun i hi => absurd hi (Nat.not_lt_zero i)
  · exact fun i hi => absurd hi (Nat.not_lt_zero i)
  · exact fun i hi => absurd hi (Nat.not_lt_zero i)

theorem outputInv_of_outLen_zero {s : State} (h : s.outLen = 0#32) : s.outputInv := by
  have hzero : s.outLen.toNat = 0 := by rw [h]; rfl
  refine ⟨by omega, fun a ha => by omega⟩

/-- Settles O4: nothing is there yet. -/
theorem resetSatisfiesInvariants : Obligations.ResetSatisfiesInvariants :=
  ⟨⟨by decide, Memory.nil_wf, Memory.nil_wf, nofun, nofun⟩, outputInv_of_outLen_zero rfl,
    ⟨⟨fun _ => rfl, fun _ => rfl⟩, fun _ => rfl, nofun⟩, tableInv_of_cleared rfl rfl rfl, nofun,
    treeInv_of_noTree rfl rfl, nofun, nofun⟩

/-! ### The table -/

theorem codesInv_of_goodTable {s : State} (h : GoodTable s.ct)
    (hnum : s.numCodes = BitVec.ofNat 9 (countValid s.ct)) : s.codesInv := fun _ => by
  have := countValid_le s.ct
  have := h.pos
  refine ⟨h.free, ?_⟩
  rw [hnum, BitVec.toNat_ofNat]
  omega

/-- CT and its summary registers are as they were, with CT_OK no more than it was. -/
structure TableKept (s t : State) : Prop where
  ct : t.ct = s.ct
  numCodes : t.numCodes = s.numCodes
  maxLen : t.maxLen = s.maxLen
  ctOk : t.ctOk = true → s.ctOk = true

theorem TableKept.tableInv {s t : State} (h : TableKept s t) (hs : s.tableInv) : t.tableInv := by
  simpa only [State.tableInv, h.ct, h.numCodes, h.maxLen] using hs

theorem TableKept.codesInv {s t : State} (h : TableKept s t) (hs : s.codesInv) :
    t.codesInv := fun hok => by
  rw [h.ct, h.numCodes]
  exact hs (h.ctOk hok)

/-- A command keeps the table, or it is one of the three that write it, and leaves a good one. -/
theorem exec_table {i : Instr} {s t : State} (h : exec i s = .next t) : TableKept s t ∨
    ((i = .extract ∨ i = .hdec ∨ i = .clear) ∧ t.tableInv ∧ t.codesInv) := by
  rcases exec_next_cases h with ⟨-, rfl⟩ | ⟨u, hu, rfl⟩ | ⟨e, info, u, -, hu, rfl⟩
  · exact .inl ⟨rfl, rfl, rfl, id⟩
  · cases hu with
    | build => exact .inl ⟨rfl, rfl, rfl, nofun⟩
    | henc | pack | decode => exact .inl ⟨rfl, rfl, rfl, id⟩
    | extract _ hgood =>
      exact .inr ⟨.inl rfl, tableInv_of_canonical hgood.canonical rfl rfl,
        codesInv_of_goodTable hgood rfl⟩
    | hdec _ _ hgood =>
      exact .inr ⟨.inr (.inl rfl), tableInv_of_canonical hgood.canonical rfl rfl,
        codesInv_of_goodTable hgood rfl⟩
    | clear => exact .inr ⟨.inr (.inr rfl), tableInv_of_cleared rfl rfl rfl, nofun⟩
  · cases hu with
    | build => exact .inl ⟨rfl, rfl, rfl, nofun⟩
    | check | henc | pack | decode => exact .inl ⟨rfl, rfl, rfl, id⟩
    | extract => exact .inr ⟨.inl rfl, tableInv_of_cleared rfl rfl rfl, nofun⟩
    | hdec => exact .inr ⟨.inr (.inl rfl), tableInv_of_cleared rfl rfl rfl, nofun⟩

/-- So does a step, where a reset leaves the cleared one. -/
theorem step_table {s t : State} (h : step s = .next t) : TableKept s t ∨ (t.tableInv ∧ t.codesInv) := by
  rcases step_ends h with ⟨rest, -, rfl⟩ | hquiet | ⟨rest, i, -, -, hexec⟩
  · exact .inr ⟨tableInv_of_cleared rfl rfl rfl, nofun⟩
  · exact .inl ⟨hquiet.ct, hquiet.numCodes, hquiet.maxLen, fun hok => by rwa [← hquiet.ctOk]⟩
  · rcases exec_table hexec with ⟨h₁, h₂, h₃, h₄⟩ | ⟨-, hinv⟩
    · exact .inl ⟨h₁, h₂, h₃, h₄⟩
    · exact .inr hinv

/-- Settles O57: `step_table`. -/
theorem stepKeepsTable : Obligations.StepKeepsTable := by
  intro s t hs hstep
  rcases step_table hstep with hkept | ⟨hinv, -⟩
  · exact hkept.tableInv hs
  · exact hinv

/-- Settles O58: `step_table`. -/
theorem stepKeepsPrefixFree : Obligations.StepKeepsPrefixFree := by
  intro s t hs hstep
  rcases step_table hstep with hkept | ⟨-, hinv⟩
  · exact hkept.codesInv hs
  · exact hinv

/-- Settles O54: a step that changes CT is a reset or one of the three commands that write it. -/
theorem onlyThreeCommandsWriteTheTable : Obligations.OnlyThreeCommandsWriteTheTable := by
  intro s t hstep hne
  rcases step_ends hstep with ⟨rest, hreset, -⟩ | hquiet | ⟨rest, i, hturn, hpending, hexec⟩
  · exact .inl ⟨rest, hreset⟩
  · exact absurd hquiet.ct hne
  · rcases exec_table hexec with hkept | ⟨hi, -⟩
    · exact absurd hkept.ct hne
    · refine .inr ⟨hturn.imp And.left fun h => ⟨rest, h⟩, ?_⟩
      rw [hpending]
      rcases hi with rfl | rfl | rfl
      · exact .inl rfl
      · exact .inr (.inl rfl)
      · exact .inr (.inr rfl)

/-! ### The tree -/

/-- The store of a BUILD without error holds a tree (R32). -/
theorem treeInv_of_built {freq : Vector FreqEntry 256} {s : State} (h : Built freq s.node)
    (hnum : s.numNodes.toNat = 2 * (presentSymbols freq).length - 1) (htree : s.treeOk = true) :
    s.treeInv := by
  have hpos := h.pos
  have hle := length_presentSymbols_le freq
  rw [State.treeInv, State.descendInv, hnum]
  refine ⟨⟨⟨fun _ => by omega, fun _ => htree⟩, by omega, fun i hi => ?_⟩, fun i hi => ?_, fun j hj => ?_⟩
  · cases hnode : nodeAt s.node i with
    | leaf => simp [nodeBelow, hnode]
    | internal w l r =>
      obtain ⟨-, ⟨⟨hl, -⟩, ⟨hr, -⟩, -, -⟩, -⟩ := h.mergedAt_of_internal hi hnode
      simp [nodeBelow, hnode, hl, hr]
  · cases hnode : nodeAt s.node i with
    | leaf => simp [sidesDiffer, hnode]
    | internal w l r =>
      have hne := (h.mergedAt_of_internal hi hnode).2.1.left_ne_right
      simp only [sidesDiffer, hnode, bne_iff_ne]
      exact fun heq => hne (congrArg BitVec.toNat heq)
  · obtain ⟨i, hi, hchild⟩ := h.exists_parent (j := j) (by omega)
    have hperm : (parentsOf s.node (2 * (presentSymbols freq).length - 1) j).Perm [i] := by
      refine (List.perm_ext_iff_of_nodup (List.nodup_range.filter _) (List.nodup_singleton i)).mpr
        fun k => ?_
      rw [List.mem_filter, List.mem_range, List.mem_singleton]
      exact ⟨fun hk => h.parent_unique hi hk.1 hchild hk.2, by rintro rfl; exact ⟨hi, hchild⟩⟩
    exact hperm.length_eq

/-- A command keeps the tree, or leaves none or one that it has built. -/
theorem exec_tree {i : Instr} {s t : State} (h : exec i s = .next t) :
    (t.node = s.node ∧ t.numNodes = s.numNodes ∧ t.treeOk = s.treeOk) ∨ t.treeInv := by
  rcases exec_next_cases h with ⟨-, rfl⟩ | ⟨u, hu, rfl⟩ | ⟨e, info, u, -, hu, rfl⟩
  · exact .inl ⟨rfl, rfl, rfl⟩
  · cases hu with
    | @build _ node hbuilt =>
      exact .inr (treeInv_of_built hbuilt
        (toNat_numNodes_buildResults s.freq node (buildStart (consumeHenc s))) rfl)
    | clear => exact .inr (treeInv_of_noTree rfl rfl)
    | extract | henc | pack | hdec | decode => exact .inl ⟨rfl, rfl, rfl⟩
  · cases hu with
    | build => exact .inr (treeInv_of_noTree rfl rfl)
    | check | extract | henc | pack | hdec | decode => exact .inl ⟨rfl, rfl, rfl⟩

theorem step_tree {s t : State} (h : step s = .next t) :
    (t.node = s.node ∧ t.numNodes = s.numNodes ∧ t.treeOk = s.treeOk) ∨ t.treeInv := by
  rcases step_ends h with ⟨rest, -, rfl⟩ | hquiet | ⟨rest, i, -, -, hexec⟩
  · exact .inr (treeInv_of_noTree rfl rfl)
  · exact .inl ⟨hquiet.node, hquiet.numNodes, hquiet.treeOk⟩
  · exact (exec_tree hexec :)

/-- Settles O59: `step_tree`. -/
theorem stepKeepsTree : Obligations.StepKeepsTree := by
  intro s t hstep
  rcases step_tree hstep with ⟨hnode, hnum, htree⟩ | hinv
  · simp only [State.treeInv, State.descendInv, hnode, hnum, htree]
    exact ⟨id, id⟩
  · exact ⟨fun _ => hinv, fun _ => hinv.1⟩

end Sys2Proof.Machine
end

section
/-!
PROOF. What every step keeps: the invariants on the buffers, the output, the status fields and the
sequencing flags (20_memory R50, R55, 10_state R23, R24, R26).
-/

namespace Sys2Proof.Machine

/-! ### OBUF -/

/-- A command stores to OBUF below BUF_BYTES alone. -/
theorem Succeeded.stored {i : Instr} {s u : State} (h : Succeeded i s u) (hbuf : s.bufSizeOk) :
    ∃ lo hi, StoredWithin s.bufSize.toNat lo hi s.obuf u.obuf := by
  cases h with
  | build | extract | hdec | clear => exact ⟨0, 0, .refl ..⟩
  | henc _ _ _ h => exact ⟨_, _, h⟩
  | decode _ h _ => exact ⟨_, _, h⟩
  | pack _ _ _ _ _ h =>
    have hpos : 0 < s.bufSize.toNat := Nat.lt_of_lt_of_le (by decide) hbuf.1
    exact ⟨0, _, (h.mono (Nat.zero_le _) (Nat.le_succ _)).trans
      (.write _ _ hpos le_rfl (Nat.succ_pos _))⟩

theorem Failed.stored {i : Instr} {s u : State} (h : Failed i s u) :
    ∃ lo hi, StoredWithin s.bufSize.toNat lo hi s.obuf u.obuf := by
  cases h with
  | check | build | extract | hdec => exact ⟨0, 0, .refl ..⟩
  | henc h => exact ⟨_, _, h⟩
  | pack _ h => exact ⟨_, _, h⟩
  | decode h => exact ⟨_, _, h⟩

theorem exec_stored {i : Instr} {s t : State} (h : exec i s = .next t) (hbuf : s.bufSizeOk) :
    ∃ lo hi, StoredWithin s.bufSize.toNat lo hi s.obuf t.obuf := by
  rcases exec_next_cases h with ⟨-, rfl⟩ | ⟨u, hu, rfl⟩ | ⟨e, info, u, -, hu, rfl⟩
  · exact ⟨0, 0, .refl ..⟩
  · exact hu.stored hbuf
  · exact hu.stored

theorem step_keeps_buffersInv {s t : State} (hs : s.buffersInv) (h : step s = .next t) :
    t.buffersInv := by
  obtain ⟨hbuf, hiwf, howf, hibelow, hobelow⟩ := hs
  rcases step_ends h with ⟨rest, -, rfl⟩ | hquiet | ⟨rest, i, -, -, hexec⟩
  · exact ⟨hbuf, Memory.nil_wf, Memory.nil_wf, nofun, nofun⟩
  · have hobuf := hquiet.obuf
    have hsize := hquiet.bufSize
    rw [State.buffersInv, State.bufSizeOk, hobuf, hsize]
    rcases hquiet.ibuf with hibuf | ⟨a, v, ha, hibuf⟩ <;> rw [hibuf]
    · exact ⟨hbuf, hiwf, howf, hibelow, hobelow⟩
    · exact ⟨hbuf, Memory.write_wf a v hiwf, howf, Memory.write_below ha hibelow, hobelow⟩
  · obtain ⟨lo, hi, hstored⟩ := exec_stored hexec hbuf
    rw [State.buffersInv, State.bufSizeOk, (exec_framed hexec).ibuf, (exec_framed hexec).bufSize]
    exact ⟨hbuf, hiwf, hstored.wf howf, hibelow, hstored.below hobelow⟩

/-! ### OUT_LEN -/

theorem toNat_ofNat_of_le {n : Nat} {x : Word} (h : n ≤ x.toNat) : (BitVec.ofNat 32 n).toNat = n := by
  rw [BitVec.toNat_ofNat, Nat.mod_eq_of_lt (Nat.lt_of_le_of_lt h x.isLt)]

theorem outputInv_of_outLen {s : State} {n : Nat} (hlen : s.outLen = BitVec.ofNat 32 n)
    (hle : n ≤ s.bufSize.toNat) (hread : ∀ a, a < n → s.obuf.read a ≠ none) : s.outputInv := by
  rw [State.outputInv, hlen, toNat_ofNat_of_le hle]
  exact ⟨hle, hread⟩

/-- PACK's output: the old bytes below OUT_LEN, and then the payload (R192 to R194). -/
theorem outputInv_of_pack {s t : State} {m : Memory} {bits : List Bool} (hs : s.outputInv)
    (hfit : (packBits bits).1 = [] ∨ s.outLen.toNat + bytesFor bits.length ≤ s.bufSize.toNat)
    (hheld : holds m s.outLen.toNat (packBits bits).1)
    (h : StoredWithin s.bufSize.toNat s.outLen.toNat (s.outLen.toNat + bytesFor bits.length) s.obuf m)
    (hlen : t.outLen = BitVec.ofNat 32 (s.outLen.toNat + bytesFor bits.length))
    (hbuf : t.bufSize = s.bufSize) (hobuf : ∃ v, t.obuf = m.write 0 v) : t.outputInv := by
  obtain ⟨hle, hread⟩ := hs
  have hbits := length_packBits bits
  obtain ⟨v, hobuf⟩ := hobuf
  refine outputInv_of_outLen hlen ?_ fun a ha => ?_ <;> simp only [hbuf, hobuf]
  · rcases hfit with hnil | hfit
    · rw [hnil, List.length_nil] at hbits
      omega
    · exact hfit
  · refine Memory.read_write_isSome ?_
    by_cases hlt : a < s.outLen.toNat
    · exact h.kept a (hread a hlt)
    · exact read_ne_none_of_holds hheld (Nat.not_lt.mp hlt) (by omega)

theorem exec_keeps_outputInv {i : Instr} {s t : State} (h : exec i s = .next t) (hs : s.outputInv) :
    t.outputInv := by
  rcases exec_next_cases h with ⟨-, rfl⟩ | ⟨u, hu, rfl⟩ | ⟨e, info, u, -, hu, rfl⟩
  · exact hs
  · cases hu with
    | build | hdec | clear => exact outputInv_of_outLen_zero rfl
    | extract => exact hs
    | henc _ hfit hheld _ =>
      refine outputInv_of_outLen rfl hfit fun a ha => read_ne_none_of_holds hheld (Nat.zero_le a) ?_
      rw [List.length_cons]
      omega
    | pack _ _ _ hfit hheld hm => exact outputInv_of_pack hs hfit hheld hm rfl rfl ⟨_, rfl⟩
    | decode hfit _ hheld => exact outputInv_of_outLen rfl hfit hheld
  · cases hu with
    | check | extract => exact hs
    | build | henc | pack | hdec | decode => exact outputInv_of_outLen_zero rfl

/-- Settles O55: `step_keeps_buffersInv`, and a step keeps OUT_LEN and OBUF or a command stores both. -/
theorem stepKeepsBuffers : Obligations.StepKeepsBuffers := by
  intro s t hs hstep
  refine ⟨step_keeps_buffersInv hs hstep, fun hout => ?_⟩
  rcases step_ends hstep with ⟨rest, -, rfl⟩ | hquiet | ⟨rest, i, -, -, hexec⟩
  · exact outputInv_of_outLen_zero rfl
  · rwa [State.outputInv, hquiet.outLen, hquiet.bufSize, hquiet.obuf]
  · exact exec_keeps_outputInv hexec hout

/-! ### The status fields -/

theorem statusInv_complete (s : State) : (complete s).statusInv :=
  ⟨⟨fun _ => rfl, fun _ => rfl⟩, fun _ => rfl, nofun⟩

theorem statusInv_raiseError {e : ErrCode} (he : e ≠ .none) (info : Word) (s : State) :
    (raiseError e info s).statusInv :=
  ⟨⟨nofun, fun h => absurd h he⟩, nofun, nofun⟩

theorem hostAccess_keeps_statusInv {op : HostOp} {s t : State} (h : hostAccess op s = .next t)
    (hs : s.statusInv) : t.statusInv := by
  rcases hostAccess_cases h with ⟨_, _, rfl⟩ | ⟨data, -, rfl⟩ | ⟨_, -, rfl⟩ | ⟨_, rfl⟩ | ⟨_, rfl⟩ |
    ⟨_, _, rfl⟩ | ⟨_, _, -, rfl⟩
  case inr.inl =>
    rw [writeCmd]
    split
    · exact hs
    · exact ⟨⟨fun _ => rfl, fun _ => rfl⟩, fun _ => rfl, fun _ => ⟨rfl, rfl⟩⟩
  case inr.inr.inl =>
    obtain ⟨hcode, hinfo, hbusy⟩ := hs
    exact ⟨hcode, hinfo, fun hp => ⟨by simp [State.writeStatus, (hbusy hp).1], (hbusy hp).2⟩⟩
  all_goals exact hs

theorem step_keeps_statusInv {s t : State} (h : step s = .next t) (hs : s.statusInv) :
    t.statusInv := by
  rcases step_cases h with ⟨rest, -, rfl⟩ | ⟨op, rest, -, hhost⟩ | ⟨rest, -, hengine⟩
  · exact ⟨⟨fun _ => rfl, fun _ => rfl⟩, fun _ => rfl, nofun⟩
  · exact hostAccess_keeps_statusInv hhost hs
  · rcases engineStep_cases hengine with ⟨-, rfl⟩ | ⟨i, -, hexec⟩ | ⟨w, -, rfl⟩
    · exact hs
    · rcases exec_next_cases hexec with ⟨-, rfl⟩ | ⟨u, -, rfl⟩ | ⟨e, info, u, hne, -, rfl⟩
      · exact statusInv_complete _
      · exact statusInv_complete _
      · exact statusInv_raiseError hne ..
    · exact statusInv_raiseError ErrCode.noConfusion ..

/-! ### The sequencing flags -/

theorem exec_keeps_flagsInv {i : Instr} {s t : State} (h : exec i s = .next t) (hs : s.flagsInv) :
    t.flagsInv := by
  obtain ⟨hhenc, hhdr⟩ := hs
  rcases exec_next_cases h with ⟨-, rfl⟩ | ⟨u, hu, rfl⟩ | ⟨e, info, u, -, hu, rfl⟩
  · exact ⟨hhenc, hhdr⟩
  · cases hu with
    | build | extract | clear => exact ⟨nofun, nofun⟩
    | henc hct hfit _ _ =>
      refine ⟨fun _ => ⟨hct, ?_⟩, hhdr⟩
      have hpos := List.length_pos_of_ne_nil (headerSpec_ne_nil s)
      show 2 ≤ (BitVec.ofNat 32 (1 + (headerSpec s).length)).toNat
      rw [toNat_ofNat_of_le hfit]
      omega
    | hdec => exact ⟨nofun, fun _ => rfl⟩
    | pack | decode => exact ⟨nofun, hhdr⟩
  · cases hu with
    | build | extract | hdec => exact ⟨nofun, nofun⟩
    | check | henc | pack | decode => exact ⟨nofun, hhdr⟩

/-- Settles O56: `step_keeps_statusInv`, and `exec_keeps_flagsInv` where the flags can change. -/
theorem stepKeepsStatusAndFlags : Obligations.StepKeepsStatusAndFlags := by
  intro s t hstep
  refine ⟨step_keeps_statusInv hstep, fun _ hs => ?_⟩
  rcases step_ends hstep with ⟨rest, -, rfl⟩ | hquiet | ⟨rest, i, -, -, hexec⟩
  · exact ⟨nofun, nofun⟩
  · rwa [State.flagsInv, hquiet.hencOk, hquiet.ctOk, hquiet.outLen, hquiet.hdrOk]
  · exact exec_keeps_flagsInv hexec hs

end Sys2Proof.Machine
end

section
/-!
PROOF. The container that HENC and PACK leave in OBUF, and the round trip (45_decoder R218).
-/

namespace Sys2Proof.Machine

theorem holds_unique {m : Memory} {xs ys : List Byte} (hx : holds m 0 xs) (hy : holds m 0 ys)
    (hlen : xs.length = ys.length) : xs = ys := by
  refine List.ext_getElem? fun i => ?_
  by_cases hi : i < xs.length
  · rw [← hx i hi, ← hy i (hlen ▸ hi)]
  · rw [List.getElem?_eq_none (Nat.not_lt.mp hi), List.getElem?_eq_none (hlen ▸ Nat.not_lt.mp hi)]

/-- The container of an input: the padding count over the header's placeholder, the header, and the packed
codes (R84 to R91). -/
def containerOf (s : State) (xs : List Byte) : List Byte :=
  BitVec.ofNat 8 (packBits (codesOf s.ct xs)).2 :: headerSpec s ++ (packBits (codesOf s.ct xs)).1

theorem length_containerOf (s : State) (xs : List Byte) : (containerOf s xs).length =
    1 + (headerSpec s).length + bytesFor (codesOf s.ct xs).length := by
  rw [containerOf, List.length_append, List.length_cons, length_packBits, Nat.add_comm 1]

/-- A PACK without error appends the packed codes to the header and puts the padding count in front. -/
theorem holds_container {m m' : Memory} {s : State} {xs : List Byte} {n : Nat}
    (hheader : holds m 0 (0x00#8 :: headerSpec s))
    (h : StoredWithin n (1 + (headerSpec s).length)
      (1 + (headerSpec s).length + bytesFor (codesOf s.ct xs).length) m m')
    (hpacked : holds m' (1 + (headerSpec s).length) (packBits (codesOf s.ct xs)).1) :
    holds (m'.write 0 (BitVec.ofNat 8 (packBits (codesOf s.ct xs)).2)) 0 (containerOf s xs) := by
  have hwrite : StoredWithin 1 0 1 m' (m'.write 0 (BitVec.ofNat 8 (packBits (codesOf s.ct xs)).2)) :=
    .write _ _ Nat.one_pos le_rfl Nat.one_pos
  obtain ⟨-, hheader⟩ := holds_cons.mp (h.holds hheader (.inl (by rw [List.length_cons]; omega)))
  rw [containerOf, holds_append, holds_cons, List.length_cons, Nat.zero_add, Nat.zero_add,
    Nat.add_comm _ 1]
  exact ⟨⟨Memory.read_write_same .., hwrite.holds hheader (.inr le_rfl)⟩,
    hwrite.holds hpacked (.inr (Nat.le_add_right ..))⟩

/-- HENC and then PACK of an input leave its container in OBUF, and OUT_LEN is its length. -/
theorem henc_pack_container {s s₁ s₂ : State} {xs : List Byte} (hok : s.ctOk = true)
    (hbuf : s.bufSizeOk) (htable : s.tableInv) (hinput : holds s.ibuf 0 xs)
    (hlen : s.inLen.toNat = xs.length) (hhenc : exec .henc s = .next s₁)
    (hpack : exec .pack s₁ = .next s₂) (herr : s₂.err = false) :
    holds s₂.obuf 0 (containerOf s xs) ∧ s₂.outLen.toNat = (containerOf s xs).length ∧
      (containerOf s xs).length ≤ s.bufSize.toNat ∧ ∀ x ∈ xs, (ctAt s.ct x).valid = true := by
  obtain ⟨m, hnext, hheader, -⟩ := hencWritesTheHeader s hok hbuf htable
  rw [hnext] at hhenc
  cases hhenc
  rcases exec_next_cases hpack with ⟨h, -⟩ | ⟨u, hu, rfl⟩ | ⟨e, info, u, -, -, rfl⟩
  · cases h
  · cases hu with
    | @pack _ m' ys hread hlen' hvalid hfit hheld h =>
      obtain rfl := holds_unique hinput hread (hlen.symm.trans hlen')
      have hsize : 1 + (headerSpec s).length ≤ s.bufSize.toNat := by
        have := (headerSize_bounds htable).1
        have := length_headerSpec s
        have : 1024 ≤ s.bufSize.toNat := hbuf.1
        omega
      have hout : (BitVec.ofNat 32 (1 + (headerSpec s).length)).toNat = 1 + (headerSpec s).length :=
        toNat_ofNat_of_le hsize
      simp only [hout] at hfit hheld h
      have hfit : 1 + (headerSpec s).length + bytesFor (codesOf s.ct xs).length ≤ s.bufSize.toNat := by
        have hbits := length_packBits (codesOf s.ct xs)
        rcases hfit with hnil | hfit
        · rw [hnil, List.length_nil] at hbits
          omega
        · exact hfit
      refine ⟨holds_container hheader h hheld, ?_, by rwa [length_containerOf], hvalid⟩
      show (BitVec.ofNat 32 ((BitVec.ofNat 32 (1 + (headerSpec s).length)).toNat +
        bytesFor (codesOf s.ct xs).length)).toNat = _
      rw [hout, toNat_ofNat_of_le hfit, length_containerOf]
  · cases herr

/-- Settles O44: HDEC recovers the table from the container's header (O39), and DECODE the input from its
payload (O42). -/
theorem containerRoundTrips : Obligations.ContainerRoundTrips := by
  intro s s₁ s₂ u xs hok hbuf htable hcodes hinput hlen hle hhenc hpack herr husize huin huread
  obtain ⟨hheld, hout, hfit, hvalid⟩ :=
    henc_pack_container hok hbuf htable hinput hlen hhenc hpack herr
  rw [State.bufSizeOk, ← husize] at hbuf
  rw [← husize] at hle hfit
  have hu : holds u.ibuf 0 (containerOf s xs) := fun i hi => by
    rw [Nat.zero_add, huread i (by omega), ← hheld i hi, Nat.zero_add]
  rw [containerOf, holds_append, List.length_cons, Nat.zero_add, Nat.add_comm _ 1] at hu
  obtain ⟨huheader, hupacked⟩ := hu
  have hcount := length_containerOf s xs
  have hsize := length_headerSpec s
  have hpadLt := padOf_lt (codesOf s.ct xs).length
  have hpad : (BitVec.ofNat 8 (packBits (codesOf s.ct xs)).2).toNat =
      padOf (codesOf s.ct xs).length := by
    rw [BitVec.toNat_ofNat, packBits]
    omega
  rw [← huin] at hout
  obtain ⟨v, hhdec, hverr, hct, hnum, hmax, hpay, hvpad, -, hhdr⟩ :=
    hdecRecoversTheEncodedTable u s _ hok htable hcodes (by omega) huheader (by omega) (by omega)
  obtain ⟨-, hvin, -, -, hvsize, -, -, hvibuf⟩ := exec_framed hhdec
  have hvtable : v.tableInv := TableKept.tableInv ⟨hct, hnum, hmax, fun _ => hok⟩ htable
  obtain ⟨m, hdecode, hxs, -⟩ := decodeInvertsPack v xs hhdr
    (by rwa [State.bufSizeOk, hvsize]) hvtable (by rw [hct]; exact (hcodes hok).1)
    (by rwa [hct]) (by rwa [hvsize]) (by rw [hvsize, hvin]; omega)
    (by rw [hvin, hpay, hct, length_packBits]; omega) (by rw [hct, hvpad, hpad]; rfl)
    (by rw [hvibuf, hpay, hct, ← hsize]; exact hupacked)
  exact ⟨v, _, hhdec, hverr, hdecode, rfl, toNat_ofNat_of_le hle, hxs⟩

end Sys2Proof.Machine
end

section
/-!
PROOF. The table of BUILD and EXTRACT: the leaves of a built tree, each of them once, and the sum of
Kraft (42_code_table R146).
-/

namespace Sys2Proof.Machine

/-! ### The leaves below a node -/

/-- i is the parent of j below `n`. -/
def parentOf (node : Vector Node 511) (n j i : Nat) : Prop := i < n ∧ isChild node i j = true

/-- A path's leaf stands below the node that the walk began at. -/
theorem exists_leaf_of_mem_leafPathsFrom {node : Vector Node 511} {n fuel i : Nat} {c : List Bool}
    (hi : i < n) (hbelow : ∀ k j, k < n → isChild node k j = true → j < k) {x : List Bool × Byte}
    (hx : x ∈ leafPathsFrom node fuel i c) :
    ∃ k w, k < n ∧ nodeAt node k = .leaf w x.2 ∧ Relation.ReflTransGen (parentOf node n) k i := by
  induction fuel generalizing i c with
  | zero => cases hx
  | succ fuel ih =>
    cases hnode : nodeAt node i with
    | leaf w sym =>
      rw [leafPathsFrom_leaf hnode, List.mem_singleton] at hx
      subst hx
      exact ⟨i, w, hi, hnode, .refl⟩
    | internal w l r =>
      have hchild := fun j => isChild_internal (j := j) hnode
      rw [leafPathsFrom_internal hnode, List.mem_append] at hx
      have hside : ∀ j c, isChild node i j = true → x ∈ leafPathsFrom node fuel j c →
          ∃ k w, k < n ∧ nodeAt node k = .leaf w x.2 ∧
            Relation.ReflTransGen (parentOf node n) k i := fun j c hj hx => by
        obtain ⟨k, w, hk, hleaf, hup⟩ := ih ((hbelow i j hi hj).trans hi) hx
        exact ⟨k, w, hk, hleaf, hup.tail ⟨hi, hj⟩⟩
      rcases hx with hx | hx
      · exact hside _ _ ((hchild _).mpr (.inl rfl)) hx
      · exact hside _ _ ((hchild _).mpr (.inr rfl)) hx

/-- The walk visits every leaf below its start. -/
theorem mem_leafPathsFrom_of_leaf {node : Vector Node 511} {n fuel i k : Nat} {w : Word} {sym : Byte}
    (hfuel : i < fuel) (hbelow : ∀ k j, k < n → isChild node k j = true → j < k)
    (hleaf : nodeAt node k = .leaf w sym) (hup : Relation.ReflTransGen (parentOf node n) k i)
    (c : List Bool) : sym ∈ (leafPathsFrom node fuel i c).map (·.2) := by
  induction fuel generalizing i c with
  | zero => omega
  | succ fuel ih =>
    rcases hup.cases_tail with rfl | ⟨j, hkj, hin, hchild⟩
    · simp [leafPathsFrom_leaf hleaf]
    · have hji := hbelow i j hin hchild
      cases hnode : nodeAt node i with
      | leaf w sym => rw [isChild_leaf hnode] at hchild; cases hchild
      | internal w l r =>
        rw [leafPathsFrom_internal hnode, List.map_append, List.mem_append]
        rcases (isChild_internal hnode).mp hchild with rfl | rfl
        · exact .inl (ih (by omega) hkj _)
        · exact .inr (ih (by omega) hkj _)

namespace Built

variable {freq : Vector FreqEntry 256} {node : Vector Node 511} (h : Built freq node)

include h

theorem parentOf_rightUnique :
    Relator.RightUnique (parentOf node (2 * (presentSymbols freq).length - 1)) :=
  fun _ _ _ h₁ h₂ => (h.parent_unique h₁.1 h₂.1 h₁.2 h₂.2).symm

theorem le_of_ancestor {j i : Nat}
    (hup : Relation.ReflTransGen (parentOf node (2 * (presentSymbols freq).length - 1)) j i) :
    j ≤ i := by
  induction hup with
  | refl => exact le_rfl
  | tail _ hstep ih => exact ih.trans (h.below hstep.1 hstep.2).le

/-- A sibling is no ancestor of the other. -/
theorem not_ancestor_of_sibling {i j k : Nat} (hi : i < 2 * (presentSymbols freq).length - 1)
    (hj : isChild node i j = true) (hk : isChild node i k = true) (hne : j ≠ k) :
    ¬ Relation.ReflTransGen (parentOf node (2 * (presentSymbols freq).length - 1)) j k := by
  intro hup
  rcases hup.cases_head with rfl | ⟨i', hstep, hup⟩
  · exact hne rfl
  · obtain rfl := h.parent_unique hi hstep.1 hj hstep.2
    have := h.le_of_ancestor hup
    have := h.below hi hk
    omega

/-- The two sides of a node have no leaf in common. -/
theorem nodup_leafPathsFrom {fuel i : Nat} {c : List Bool}
    (hi : i < 2 * (presentSymbols freq).length - 1) :
    ((leafPathsFrom node fuel i c).map (·.2)).Nodup := by
  induction fuel generalizing i c with
  | zero => exact .nil
  | succ fuel ih =>
    cases hnode : nodeAt node i with
    | leaf w sym =>
      rw [leafPathsFrom_leaf hnode]
      exact List.nodup_singleton _
    | internal w l r =>
      have hl : isChild node i l.toNat = true := (isChild_internal hnode).mpr (.inl rfl)
      have hr : isChild node i r.toNat = true := (isChild_internal hnode).mpr (.inr rfl)
      have hne := (h.mergedAt_of_internal hi hnode).2.1.left_ne_right
      have hlt := (h.below hi hl).trans hi
      have hrt := (h.below hi hr).trans hi
      rw [leafPathsFrom_internal hnode, List.map_append, List.nodup_append]
      refine ⟨ih hlt, ih hrt, ?_⟩
      rintro sym hsym _ hsym' rfl
      obtain ⟨x, hx, hxs⟩ := List.mem_map.mp hsym
      obtain ⟨y, hy, hys⟩ := List.mem_map.mp hsym'
      have hbelow := fun k j hk hc => h.below (i := k) (j := j) hk hc
      obtain ⟨k, w, hk, hkx, hupl⟩ := exists_leaf_of_mem_leafPathsFrom hlt hbelow hx
      obtain ⟨k', w', hk', hky, hupr⟩ := exists_leaf_of_mem_leafPathsFrom hrt hbelow hy
      rw [hxs] at hkx
      rw [hys] at hky
      obtain rfl := h.leaf_unique hk hk' hkx hky
      rcases Relation.ReflTransGen.total_of_right_unique h.parentOf_rightUnique hupl hupr with hup | hup
      · exact h.not_ancestor_of_sibling hi hl hr hne hup
      · exact h.not_ancestor_of_sibling hi hr hl hne.symm hup

theorem ancestor_root {k : Nat} (hk : k < 2 * (presentSymbols freq).length - 1) :
    Relation.ReflTransGen (parentOf node (2 * (presentSymbols freq).length - 1)) k
      (2 * (presentSymbols freq).length - 2) := by
  obtain ⟨d, hd⟩ : ∃ d, d = 2 * (presentSymbols freq).length - 2 - k := ⟨_, rfl⟩
  induction d using Nat.strong_induction_on generalizing k with
  | _ d ih =>
    by_cases hroot : k = 2 * (presentSymbols freq).length - 2
    · rw [hroot]
    · obtain ⟨i, hi, hchild⟩ := h.exists_parent (j := k) (by omega)
      have := h.below hi hchild
      exact (ih _ (by omega) hi rfl).head ⟨hi, hchild⟩

/-- The walk from the root visits the leaf of every present symbol. -/
theorem mem_leafPaths_iff (sym : Byte) :
    sym ∈ (leafPathsFrom node 511 (2 * (presentSymbols freq).length - 2) []).map (·.2) ↔
      sym ∈ presentSymbols freq := by
  have hpos := h.pos
  have hle := length_presentSymbols_le freq
  have hbelow := fun k j hk hc => h.below (i := k) (j := j) hk hc
  rw [h.mem_presentSymbols_iff]
  constructor
  · intro hmem
    obtain ⟨x, hx, rfl⟩ := List.mem_map.mp hmem
    obtain ⟨k, w, hk, hleaf, -⟩ := exists_leaf_of_mem_leafPathsFrom (by omega) hbelow hx
    exact ⟨k, w, hk, hleaf⟩
  · rintro ⟨k, w, hk, hleaf⟩
    exact mem_leafPathsFrom_of_leaf (by omega) hbelow hleaf (h.ancestor_root hk) []

end Built

/-! ### The sum of Kraft -/

/-- The sum of 2^(8 - length) over the paths. -/
def pathSum (paths : List (List Bool × Byte)) : Nat := (paths.map fun x => 2 ^ (8 - x.1.length)).sum

theorem pathSum_append (xs ys : List (List Bool × Byte)) :
    pathSum (xs ++ ys) = pathSum xs + pathSum ys := by
  simp [pathSum]

/-- The leaves below a node share what its own path leaves of the sum. -/
theorem pathSum_leafPathsFrom {node : Vector Node 511} {fuel i : Nat} {c : List Bool}
    {ct ct' : Vector CtEntry 256} (h : visit node fuel i c ct = .table ct') :
    pathSum (leafPathsFrom node fuel i c) = 2 ^ (8 - c.length) := by
  induction fuel generalizing i c ct ct' with
  | zero => cases h
  | succ fuel ih =>
    cases hnode : nodeAt node i with
    | leaf w sym => simp [leafPathsFrom_leaf hnode, pathSum]
    | internal w l r =>
      cases hl : visit node fuel l.toNat (c ++ [false]) ct with
      | tooDeep => rw [visit_of_left_tooDeep hnode hl] at h; cases h
      | notATree => rw [visit_of_left_notATree hnode hl] at h; cases h
      | table ct'' =>
        rw [visit_of_left_table hnode hl] at h
        have hlen : c.length < 8 := by
          obtain ⟨x, hx⟩ := List.exists_mem_of_ne_nil _ (leafPathsFrom_ne_nil hl)
          have hwalk := visit_walkOf node fuel l.toNat (c ++ [false]) ct
          rw [hl] at hwalk
          have hmax := find?_tooLong_eq_none.mp hwalk.1 x hx
          have hmin := (prefix_of_mem_leafPathsFrom hx).length_le
          rw [List.length_append, List.length_singleton] at hmin
          omega
        rw [leafPathsFrom_internal hnode, pathSum_append, ih hl, ih h, List.length_append,
          List.length_append, List.length_singleton, List.length_singleton, ← Nat.two_mul,
          ← Nat.pow_succ']
        congr 1
        omega

theorem kraftSum_eq (ct : Vector CtEntry 256) :
    kraftSum ct = ((validSymbols ct).map fun sym => 2 ^ (8 - (ctAt ct sym).len.toNat)).sum := by
  rw [kraftSum, ct_toList, validSymbols, List.filter_map, List.map_map]
  rfl

theorem valid_pathTable {paths : List (List Bool × Byte)} {sym : Byte} :
    (ctAt (pathTable ctEmpty paths) sym).valid = true ↔ sym ∈ paths.map (·.2) := by
  rcases ctAt_pathTable paths sym with ⟨x, hx, rfl, heq⟩ | ⟨hnot, heq⟩
  · rw [heq]
    exact ⟨fun _ => List.mem_map_of_mem hx, fun _ => rfl⟩
  · rw [heq]
    exact ⟨nofun, fun hmem => absurd hmem hnot⟩

/-- The sum over a table of paths is the sum over the paths. -/
theorem kraftSum_pathTable {paths : List (List Bool × Byte)} (hnodup : (paths.map (·.2)).Nodup)
    (hlen : ∀ x ∈ paths, x.1.length ≤ 8) : kraftSum (pathTable ctEmpty paths) = pathSum paths := by
  have hkeys : ((paths.map pathEntry).map (·.1)).Nodup := by rwa [List.map_map]
  have hperm : (validSymbols (pathTable ctEmpty paths)).Perm (paths.map (·.2)) := by
    refine (List.perm_ext_iff_of_nodup (nodup_symbols.filter _) hnodup).mpr fun sym => ?_
    rw [← valid_pathTable]
    exact mem_validSymbols
  rw [kraftSum_eq, (hperm.map _).sum_nat, List.map_map, pathSum]
  refine congrArg List.sum (List.map_congr_left fun x hx => ?_)
  have hentry : ctAt (pathTable ctEmpty paths) x.2 = (pathEntry x).2 :=
    ctAt_ctSetAll_of_mem hkeys (List.mem_map_of_mem hx)
  have := hlen x hx
  rw [Function.comp_apply, hentry, pathEntry, BitVec.toNat_ofNat, Nat.mod_eq_of_lt (by omega)]

/-! ### The table -/

/-- The paths of the codes that EXTRACT makes of a built tree. -/
structure BuiltPaths (freq : Vector FreqEntry 256) (paths : List (List Bool × Byte)) : Prop where
  nodup : (paths.map (·.2)).Nodup
  mem : ∀ sym, sym ∈ paths.map (·.2) ↔ sym ∈ presentSymbols freq
  len : ∀ x ∈ paths, x.1.length ≤ 8
  sum : pathSum paths = if (presentSymbols freq).length = 1 then 128 else 256

theorem Built.extractTable_paths {freq : Vector FreqEntry 256} {node : Vector Node 511}
    (h : Built freq node) {ct : Vector CtEntry 256}
    (hwalk : extractTable node (2 * (presentSymbols freq).length - 2) = .table ct) :
    ∃ paths, ct = pathTable ctEmpty paths ∧ BuiltPaths freq paths := by
  have hpos := h.pos
  have hmem := h.mem_leafPaths_iff
  cases hnode : nodeAt node (2 * (presentSymbols freq).length - 2) with
  | leaf w sym =>
    have hone : (presentSymbols freq).length = 1 := by
      rcases h.node_cases (i := 2 * (presentSymbols freq).length - 2) (by omega) with
        ⟨x, hx, -⟩ | ⟨-, w', l, r, hnode', -⟩
      · have := (List.getElem?_eq_some_iff.mp hx).1
        omega
      · rw [hnode] at hnode'; cases hnode'
    rw [extractTable_of_leaf hnode] at hwalk
    cases hwalk
    refine ⟨[([false], sym)], rfl, List.nodup_singleton _, fun x => ?_, by simp, ?_⟩
    · rw [← hmem, leafPathsFrom_leaf hnode]; rfl
    · rw [if_pos hone]; rfl
  | internal w l r =>
    have hmany : (presentSymbols freq).length ≠ 1 := by
      have := (h.mergedAt_of_internal (i := 2 * (presentSymbols freq).length - 2) (by omega) hnode).1
      omega
    rw [extractTable_of_internal hnode] at hwalk
    have hpaths := visit_walkOf node 511 (2 * (presentSymbols freq).length - 2) [] ctEmpty
    rw [hwalk] at hpaths
    obtain ⟨hlen, hct⟩ := hpaths
    refine ⟨_, hct, h.nodup_leafPathsFrom (by omega), hmem, find?_tooLong_eq_none.mp hlen, ?_⟩
    rw [if_neg hmany, pathSum_leafPathsFrom hwalk]
    rfl

/-- Positive numbers that sum to no more than their count are all 1. -/
theorem eq_one_of_sum_le_length {xs : List Nat} (hpos : ∀ x ∈ xs, 1 ≤ x) (hsum : xs.sum ≤ xs.length) :
    ∀ x ∈ xs, x = 1 := by
  induction xs with
  | nil => nofun
  | cons x xs ih =>
    rw [List.forall_mem_cons] at hpos ⊢
    rw [List.sum_cons, List.length_cons] at hsum
    have hle : xs.length ≤ xs.sum := by
      simpa using List.card_nsmul_le_sum xs 1 hpos.2
    exact ⟨by omega, ih hpos.2 (by omega)⟩

/-- The table of an EXTRACT without error is that of its walk. -/
theorem exec_extract_ok {s t : State} (htree : s.treeOk = true) (h : exec .extract s = .next t)
    (herr : t.err = false) : extractTable s.node s.root = .table t.ct := by
  rw [exec_extract_of_treeOk htree] at h
  cases hwalk : extractTable s.node s.root with
  | table ct =>
    rw [extractBody_of_table (s := consumeHenc s) hwalk] at h
    cases h
    rfl
  | tooDeep sym depth =>
    rw [extractBody_of_tooDeep (s := consumeHenc s) hwalk] at h
    cases h
    cases herr
  | notATree =>
    rw [extractBody_of_notATree (s := consumeHenc s) hwalk] at h
    cases h

/-- With all 256 symbols, a sum of 256 leaves each of them the length 8. -/
theorem len_eq_eight {ct : Vector CtEntry 256} (hcanon : ∀ sym, (ctAt ct sym).canonical)
    (hvalid : ∀ sym, (ctAt ct sym).valid = true) (hsum : kraftSum ct = 256) (sym : Byte) :
    (ctAt ct sym).len = 8#4 := by
  have hall : validSymbols ct = symbols := List.filter_eq_self.mpr fun x _ => hvalid x
  rw [kraftSum_eq, hall] at hsum
  have hone := eq_one_of_sum_le_length (xs := symbols.map fun x => 2 ^ (8 - (ctAt ct x).len.toNat))
    (List.forall_mem_map.mpr fun x _ => Nat.one_le_two_pow) (by simp [hsum]) _
    (List.mem_map_of_mem (mem_symbols sym))
  have hzero : 8 - (ctAt ct sym).len.toNat = 0 := by
    by_contra hne
    have := Nat.one_lt_two_pow hne
    omega
  have hle := (CtEntry.length_of_canonical (hcanon sym) (hvalid sym)).2
  exact BitVec.eq_of_toNat_eq (by rw [BitVec.toNat_ofNat]; omega)

/-- Settles O26: the table is that of `BuiltPaths`. -/
theorem builtTableIsPrefixFreeAndComplete : Obligations.BuiltTableIsPrefixFreeAndComplete := by
  intro s t u hbuild hterr hextract huerr
  obtain ⟨hbuilt, -, hroot, htree⟩ := exec_build_ok hbuild hterr
  have hwalk := exec_extract_ok htree hextract huerr
  have hgood := goodTable_of_extractTable hwalk
  rw [hroot] at hwalk
  obtain ⟨paths, hct, hpaths⟩ := hbuilt.extractTable_paths hwalk
  have hsum : kraftSum u.ct = if (presentSymbols s.freq).length = 1 then 128 else 256 := by
    rw [hct, kraftSum_pathTable hpaths.nodup hpaths.len, hpaths.sum]
  have hvalid : ∀ sym, (ctAt u.ct sym).valid = true ↔ (freqAt s.freq sym).count ≠ 0#32 := fun sym => by
    rw [hct, valid_pathTable, hpaths.mem, mem_presentSymbols]
  refine ⟨hgood.free, fun h => ?_, fun h => ?_, hvalid, fun h sym => ?_⟩
  · rw [hsum, if_neg (by omega)]
  · rw [hsum, if_pos h]
  · have hall : presentSymbols s.freq = symbols :=
      (List.filter_sublist.eq_of_length (by rw [length_symbols]; exact h))
    refine len_eq_eight hgood.canonical (fun x => ?_) (by rw [hsum, if_neg (by omega)]) sym
    rw [hvalid, ← mem_presentSymbols, hall]
    exact mem_symbols x

end Sys2Proof.Machine
end
